-- ==== Sys2Proof/Word.lean ====
section
/-! DEFINITION. The words of SOC16 and the two readings of a word (spec/00_scope.md R5, R6). -/

namespace Sys2Proof

/-- A word: a 16-bit vector, bit 15 the most significant (R5, R6). Registers, memory cells, the program
counter and instruction words are words (R4). -/
abbrev Word := BitVec 16

/-- A register number: the 4-bit field that selects one of r0 to r15 (R13). -/
abbrev RegNo := BitVec 4

/-- An 8-bit immediate field, of kind `s` or `u` (R49). -/
abbrev Imm8 := BitVec 8

/-- `sval(w)`: the two's-complement reading of a word, in [-32768, 32767] (R6). -/
abbrev sval (w : Word) : Int := w.toInt

/-- `uval(w)`: the unsigned reading of a word, in [0, 65535] (R6). -/
abbrev uval (w : Word) : Nat := w.toNat

/-- `word(v)`: the 16-bit two's-complement pattern `v mod 2^16` of an integer (R6). -/
abbrev word (v : Int) : Word := BitVec.ofInt 16 v

end Sys2Proof
end

