-- ==== Sys2Proof/Syntax.lean ====
section
/-! DEFINITION. The instructions of SOC16: one constructor for each of the 25 entries of the opcode table
(spec/30_encoding.md R53), with the operands of its argument shape (R54). -/

namespace Sys2Proof

/-- The 25 instructions, in table order (R53). `rX`, `rY`, `rZ`, `s`, `u` and `n` are the fields of R52. -/
inductive Instr where
  | halt
  | read (rX : RegNo)
  | write (rX : RegNo)
  | jumpi (rX : RegNo)
  | loadn (rX : RegNo) (s : Imm8)
  | load (rX : RegNo) (u : Imm8)
  | store (rX : RegNo) (u : Imm8)
  | loadi (rX rY : RegNo)
  | storei (rX rY : RegNo)
  | addn (rX : RegNo) (s : Imm8)
  | nop
  | mov (rX rY : RegNo)
  | add (rX rY rZ : RegNo)
  | neg (rX rY : RegNo)
  | sub (rX rY rZ : RegNo)
  | mul (rX rY rZ : RegNo)
  | div (rX rY rZ : RegNo)
  | mod (rX rY rZ : RegNo)
  | jump (u : Imm8)
  | call (rX : RegNo) (u : Imm8)
  | jeqz (rX : RegNo) (u : Imm8)
  | jnez (rX : RegNo) (u : Imm8)
  | jgtz (rX : RegNo) (u : Imm8)
  | jltz (rX : RegNo) (u : Imm8)
  | data (n : Word)
deriving DecidableEq, Repr

/-- The mnemonics of the opcode table, in table order (R53). -/
inductive Mnemonic where
  | halt | read | write | jumpi | loadn | load | store | loadi | storei | addn | nop | mov | add
  | neg | sub | mul | div | mod | jump | call | jeqz | jnez | jgtz | jltz | data
deriving DecidableEq, Repr

/-- The five kinds of operand field (R49); `z` is the filler, which carries no argument. -/
inductive Kind where
  | r | s | u | n | z
deriving DecidableEq, Repr

/-- What one operand field yields (R49, the table's last column). -/
inductive Arg where
  | reg (n : RegNo)
  | signed (v : Imm8)
  | unsigned (v : Imm8)
  | imm (n : Word)
deriving DecidableEq, Repr

end Sys2Proof
end

