-- ==== Sys2Proof/WellFormed.lean ====
section
/-! DEFINITION. The canonical spelling of an instruction: the one the decoder gives for its word. -/

namespace Sys2Proof

/-- `data n` is canonical exactly for the words no entry before it matches: top nibble 0000, but for the halt
word and the words of read, write and jumpi; or top nibble 0100 with a low nibble of 2 to 15
(spec/30_encoding.md R60). -/
def isDataWord (n : Word) : Bool :=
  if n.extractLsb' 12 4 = 0 then
    !(n = 0 || n.extractLsb' 0 8 = 1 || n.extractLsb' 0 8 = 2 || n.extractLsb' 0 8 = 3)
  else
    n.extractLsb' 12 4 = 4 && !(n.extractLsb' 0 4 = 0 || n.extractLsb' 0 4 = 1)

/-- An instruction in its canonical spelling (R58, R71): `mov r0 r0`, `add rX rY r0`, `sub rX r0 rZ`,
`call r0 u` and a `data` of another entry's word are second spellings, whose word decodes as the more
specific entry. Every other instruction is canonical, whatever its operands (R61). -/
def Instr.WellFormed : Instr → Bool
  | .mov rX rY => !(rX = 0 && rY = 0)
  | .add _ _ rZ => rZ ≠ 0
  | .sub _ rY _ => rY ≠ 0
  | .call rX _ => rX ≠ 0
  | .data n => isDataWord n
  | .halt | .nop => true
  | .read _ | .write _ | .jumpi _ => true
  | .loadn _ _ | .addn _ _ => true
  | .load _ _ | .store _ _ | .loadi _ _ | .storei _ _ => true
  | .neg _ _ | .mul _ _ _ | .div _ _ _ | .mod _ _ _ => true
  | .jump _ | .jeqz _ _ | .jnez _ _ | .jgtz _ _ | .jltz _ _ => true

end Sys2Proof
end

