-- ==== Sys2Proof/Decode.lean ====
section
/-! DEFINITION. The pattern-matching decoder (spec/30_encoding.md R48 to R61), the decoder block's ports (R57),
and after them the encoder (R52, R69). -/

namespace Sys2Proof

/-- A row of the opcode table: the triple of R10's glossary. -/
structure OpcodeEntry where
  matchBits : Word
  maskBits : Word
  mnemonic : Mnemonic
deriving DecidableEq, Repr

/-- `(word & maskBits) == matchBits` (R53). -/
def OpcodeEntry.isMatch (e : OpcodeEntry) (w : Word) : Bool := (w &&& e.maskBits) == e.matchBits

/-- The opcode table, in its load-bearing order (R53). PRESUMED by the spec itself for the bit values (GK2):
they stand in this one table so that it can be replaced whole (log entry 8). -/
def opcodeTable : List OpcodeEntry :=
  [ ⟨0x0000, 0xFFFF, .halt⟩,
    ⟨0x0001, 0xF0FF, .read⟩,
    ⟨0x0002, 0xF0FF, .write⟩,
    ⟨0x0003, 0xF0FF, .jumpi⟩,
    ⟨0x1000, 0xF000, .loadn⟩,
    ⟨0x2000, 0xF000, .load⟩,
    ⟨0x3000, 0xF000, .store⟩,
    ⟨0x4000, 0xF00F, .loadi⟩,
    ⟨0x4001, 0xF00F, .storei⟩,
    ⟨0x5000, 0xF000, .addn⟩,
    ⟨0x6000, 0xFFFF, .nop⟩,
    ⟨0x6000, 0xF00F, .mov⟩,
    ⟨0x6000, 0xF000, .add⟩,
    ⟨0x7000, 0xF0F0, .neg⟩,
    ⟨0x7000, 0xF000, .sub⟩,
    ⟨0x8000, 0xF000, .mul⟩,
    ⟨0x9000, 0xF000, .div⟩,
    ⟨0xA000, 0xF000, .mod⟩,
    ⟨0xB000, 0xFF00, .jump⟩,
    ⟨0xB000, 0xF000, .call⟩,
    ⟨0xC000, 0xF000, .jeqz⟩,
    ⟨0xD000, 0xF000, .jnez⟩,
    ⟨0xE000, 0xF000, .jgtz⟩,
    ⟨0xF000, 0xF000, .jltz⟩,
    ⟨0x0000, 0x0000, .data⟩ ]

/-- The argument shape of a mnemonic (R54). -/
def Mnemonic.shape : Mnemonic → List Kind
  | .halt | .nop => []
  | .read | .write | .jumpi => [.r]
  | .loadn | .addn => [.r, .s]
  | .load | .store => [.r, .u]
  | .loadi | .storei | .mov => [.r, .r]
  | .add | .sub | .mul | .div | .mod => [.r, .r, .r]
  | .neg => [.r, .z, .r]
  | .jump => [.z, .u]
  | .call | .jeqz | .jnez | .jgtz | .jltz => [.r, .u]
  | .data => [.n]

/-- The width of an operand field of a kind (R49). -/
def Kind.width : Kind → Nat
  | .r | .z => 4
  | .s | .u => 8
  | .n => 16

/-- Where a mnemonic's first field begins, as the number of word bits below its top (R51): bit 11 is the first
field's top bit for every entry but `data`, whose field is the whole word. -/
def Mnemonic.fieldTop : Mnemonic → Nat
  | .data => 16
  | _ => 12

/-- The walk of an argument shape from the top of the word down (R55): `top` is the number of bits not yet
consumed, and a filler consumes its bits and yields nothing. -/
def walkShape (w : Word) : List Kind → Nat → List Arg
  | [], _ => []
  | .r :: ks, top => .reg (w.extractLsb' (top - 4) 4) :: walkShape w ks (top - 4)
  | .z :: ks, top => walkShape w ks (top - 4)
  | .s :: ks, top => .signed (w.extractLsb' (top - 8) 8) :: walkShape w ks (top - 8)
  | .u :: ks, top => .unsigned (w.extractLsb' (top - 8) 8) :: walkShape w ks (top - 8)
  | .n :: ks, top => .imm (w.extractLsb' (top - 16) 16) :: walkShape w ks (top - 16)

/-- The instruction a mnemonic and its argument list spell, positionally (R52); `none` where the arguments are
not those of the mnemonic's shape. -/
def Instr.ofArgs : Mnemonic → List Arg → Option Instr
  | .halt, [] => some .halt
  | .read, [.reg x] => some (.read x)
  | .write, [.reg x] => some (.write x)
  | .jumpi, [.reg x] => some (.jumpi x)
  | .loadn, [.reg x, .signed s] => some (.loadn x s)
  | .load, [.reg x, .unsigned u] => some (.load x u)
  | .store, [.reg x, .unsigned u] => some (.store x u)
  | .loadi, [.reg x, .reg y] => some (.loadi x y)
  | .storei, [.reg x, .reg y] => some (.storei x y)
  | .addn, [.reg x, .signed s] => some (.addn x s)
  | .nop, [] => some .nop
  | .mov, [.reg x, .reg y] => some (.mov x y)
  | .add, [.reg x, .reg y, .reg z] => some (.add x y z)
  | .neg, [.reg x, .reg y] => some (.neg x y)
  | .sub, [.reg x, .reg y, .reg z] => some (.sub x y z)
  | .mul, [.reg x, .reg y, .reg z] => some (.mul x y z)
  | .div, [.reg x, .reg y, .reg z] => some (.div x y z)
  | .mod, [.reg x, .reg y, .reg z] => some (.mod x y z)
  | .jump, [.unsigned u] => some (.jump u)
  | .call, [.reg x, .unsigned u] => some (.call x u)
  | .jeqz, [.reg x, .unsigned u] => some (.jeqz x u)
  | .jnez, [.reg x, .unsigned u] => some (.jnez x u)
  | .jgtz, [.reg x, .unsigned u] => some (.jgtz x u)
  | .jltz, [.reg x, .unsigned u] => some (.jltz x u)
  | .data, [.imm n] => some (.data n)
  | _, _ => none

/-- What the decoder answers: an instruction, or the UNTRANSLATABLE marker for a word no entry matches (R59). -/
inductive Decoded where
  | instr (i : Instr)
  | untranslatable
deriving DecidableEq, Repr

/-- The first table entry that matches a word (R53, R55). -/
def firstMatch (w : Word) : Option OpcodeEntry := opcodeTable.find? (fun e => e.isMatch w)

/-- Decoding a word: the first entry that matches it, then the walk of that entry's shape (R55). -/
def decode (w : Word) : Decoded :=
  match firstMatch w with
  | none => .untranslatable
  | some e =>
    match Instr.ofArgs e.mnemonic (walkShape w e.mnemonic.shape e.mnemonic.fieldTop) with
    | some i => .instr i
    | none => .untranslatable

/-- The mnemonic of an instruction. -/
def Instr.mnemonic : Instr → Mnemonic
  | .halt => .halt
  | .read _ => .read
  | .write _ => .write
  | .jumpi _ => .jumpi
  | .loadn _ _ => .loadn
  | .load _ _ => .load
  | .store _ _ => .store
  | .loadi _ _ => .loadi
  | .storei _ _ => .storei
  | .addn _ _ => .addn
  | .nop => .nop
  | .mov _ _ => .mov
  | .add _ _ _ => .add
  | .neg _ _ => .neg
  | .sub _ _ _ => .sub
  | .mul _ _ _ => .mul
  | .div _ _ _ => .div
  | .mod _ _ _ => .mod
  | .jump _ => .jump
  | .call _ _ => .call
  | .jeqz _ _ => .jeqz
  | .jnez _ _ => .jnez
  | .jgtz _ _ => .jgtz
  | .jltz _ _ => .jltz
  | .data _ => .data

/-- The argument list of an instruction, in the order of its shape's non-filler fields (R52). -/
def Instr.args : Instr → List Arg
  | .halt | .nop => []
  | .read x | .write x | .jumpi x => [.reg x]
  | .loadn x s | .addn x s => [.reg x, .signed s]
  | .load x u | .store x u => [.reg x, .unsigned u]
  | .loadi x y | .storei x y | .mov x y | .neg x y => [.reg x, .reg y]
  | .add x y z | .sub x y z | .mul x y z | .div x y z | .mod x y z => [.reg x, .reg y, .reg z]
  | .jump u => [.unsigned u]
  | .call x u | .jeqz x u | .jnez x u | .jgtz x u | .jltz x u => [.reg x, .unsigned u]
  | .data n => [.imm n]

/-- A mnemonic's index in the opcode table, 0 to 24 (R53). -/
def Mnemonic.index : Mnemonic → Nat
  | .halt => 0
  | .read => 1
  | .write => 2
  | .jumpi => 3
  | .loadn => 4
  | .load => 5
  | .store => 6
  | .loadi => 7
  | .storei => 8
  | .addn => 9
  | .nop => 10
  | .mov => 11
  | .add => 12
  | .neg => 13
  | .sub => 14
  | .mul => 15
  | .div => 16
  | .mod => 17
  | .jump => 18
  | .call => 19
  | .jeqz => 20
  | .jnez => 21
  | .jgtz => 22
  | .jltz => 23
  | .data => 24

/-- The table entry of a mnemonic. -/
def tableEntry (m : Mnemonic) : OpcodeEntry := opcodeTable.getD m.index ⟨0x0000, 0x0000, .data⟩

/-- The word bits that the fields of one sort occupy, for a shape walked from `top` down (R50, R51). -/
def shapeBits (counts : Kind → Bool) : List Kind → Nat → Word
  | [], _ => 0
  | k :: ks, top =>
    (if counts k then BitVec.ofNat 16 ((2 ^ k.width - 1) * 2 ^ (top - k.width)) else 0) |||
      shapeBits counts ks (top - k.width)

/-- The word bits of a mnemonic's argument fields (R50). -/
def argumentBits (m : Mnemonic) : Word := shapeBits (fun k => k ≠ .z) m.shape m.fieldTop

/-- The word bits of a mnemonic's filler slots (R50). -/
def fillerBits (m : Mnemonic) : Word := shapeBits (fun k => k = .z) m.shape m.fieldTop

/-- The number of bits set in a word. -/
def popcount (w : Word) : Nat := ((List.range 16).filter (fun i => w.getLsbD i)).length

/-- The widths of a shape's non-filler kinds, added (R50). -/
def argumentWidth (m : Mnemonic) : Nat := ((m.shape.filter (fun k => k ≠ .z)).map Kind.width).sum

/-- The same priority logic as a tree on the top nibble, as R57 writes it. -/
def decodeTree (w : Word) : Mnemonic :=
  match (w.extractLsb' 12 4).toNat with
  | 0 =>
    if w = 0x0000 then .halt
    else if w.extractLsb' 0 8 = 0x01 then .read
    else if w.extractLsb' 0 8 = 0x02 then .write
    else if w.extractLsb' 0 8 = 0x03 then .jumpi
    else .data
  | 1 => .loadn
  | 2 => .load
  | 3 => .store
  | 4 =>
    if w.extractLsb' 0 4 = 0 then .loadi
    else if w.extractLsb' 0 4 = 1 then .storei
    else .data
  | 5 => .addn
  | 6 => if w = 0x6000 then .nop else if w.extractLsb' 0 4 = 0 then .mov else .add
  | 7 => if w.extractLsb' 4 4 = 0 then .neg else .sub
  | 8 => .mul
  | 9 => .div
  | 10 => .mod
  | 11 => if w.extractLsb' 8 4 = 0 then .jump else .call
  | 12 => .jeqz
  | 13 => .jnez
  | 14 => .jgtz
  | _ => .jltz

/-- The output ports of the decoder block (R57). -/
structure DecoderPorts where
  op : BitVec 5
  rX : RegNo
  rY : RegNo
  rZ : RegNo
  simm : Word
  uimm : Word
  illegal : Bool
deriving DecidableEq, Repr

/-- The decoder block: a priority encoder over the table's entries, entry 0 first, plus fixed field taps
(R57). Where no entry matched, `op` would be the entry count; entry 24 matches every word (R59). -/
def decoderPorts (ir : Word) : DecoderPorts :=
  let op : BitVec 5 := BitVec.ofNat 5 (opcodeTable.findIdx (fun e => e.isMatch ir))
  { op := op
    rX := ir.extractLsb' 8 4
    rY := if op = 13 then ir.extractLsb' 0 4 else ir.extractLsb' 4 4
    rZ := ir.extractLsb' 0 4
    simm := (ir.extractLsb' 0 8).signExtend 16
    uimm := (ir.extractLsb' 0 8).zeroExtend 16
    illegal := op = 24 }

/-- The word of an instruction: the format patterns of R52 with the opcode nibble and sub-opcode bits of R53's
match column, each argument's bits in its slot (R69). -/
def encode : Instr → Word
  | .halt => 0x0000#16
  | .read x => 0x0#4 ++ x ++ 0x01#8
  | .write x => 0x0#4 ++ x ++ 0x02#8
  | .jumpi x => 0x0#4 ++ x ++ 0x03#8
  | .loadn x s => 0x1#4 ++ x ++ s
  | .load x u => 0x2#4 ++ x ++ u
  | .store x u => 0x3#4 ++ x ++ u
  | .loadi x y => 0x4#4 ++ x ++ y ++ 0x0#4
  | .storei x y => 0x4#4 ++ x ++ y ++ 0x1#4
  | .addn x s => 0x5#4 ++ x ++ s
  | .nop => 0x6000#16
  | .mov x y => 0x6#4 ++ x ++ y ++ 0x0#4
  | .add x y z => 0x6#4 ++ x ++ y ++ z
  | .neg x y => 0x7#4 ++ x ++ 0x0#4 ++ y
  | .sub x y z => 0x7#4 ++ x ++ y ++ z
  | .mul x y z => 0x8#4 ++ x ++ y ++ z
  | .div x y z => 0x9#4 ++ x ++ y ++ z
  | .mod x y z => 0xA#4 ++ x ++ y ++ z
  | .jump u => 0xB#4 ++ 0x0#4 ++ u
  | .call x u => 0xB#4 ++ x ++ u
  | .jeqz x u => 0xC#4 ++ x ++ u
  | .jnez x u => 0xD#4 ++ x ++ u
  | .jgtz x u => 0xE#4 ++ x ++ u
  | .jltz x u => 0xF#4 ++ x ++ u
  | .data n => n

/-- The instruction the decoder reads from an instruction whose bits are `w`, of which the opcode table gives
`nbits`; every bit above them is 0. Every instruction is one word (R48). -/
def decodeTableWord (nbits w : Nat) : Option Instr :=
  match decode (BitVec.ofNat 16 (w % 2 ^ nbits)) with
  | .instr i => some i
  | .untranslatable => none

end Sys2Proof
end

