-- ==== Sys2Proof/Machine/Flags.lean ====
section
/-! DEFINITION. SOC16 stores no flags (spec/10_state.md R23). Its only overflow test is the range check of the
writeback, and the ripple-carry adder's carry and overflow outputs are internal signals
(spec/40_execution_cycle.md R79, R85 to R87). -/

namespace Sys2Proof.Machine

/-- An integer fits in 16 signed bits (R79). -/
def fits16 (v : Int) : Bool := decide (-32768 ≤ v) && decide (v ≤ 32767)

/-- The carry `c_i` into bit `i` of the ripple-carry adder, from the equations of R84 with `c_0 = cin`. -/
def rippleCarry (a b : Word) (cin : Bool) : Nat → Bool
  | 0 => cin
  | i + 1 =>
    (a.getLsbD i && b.getLsbD i) || (rippleCarry a b cin i && (a.getLsbD i ^^ b.getLsbD i))

/-- The sum bit `s_i` (R84). -/
def rippleSum (a b : Word) (cin : Bool) (i : Nat) : Bool :=
  a.getLsbD i ^^ b.getLsbD i ^^ rippleCarry a b cin i

/-- The word whose bit `i`, for `i` below `n`, is `f i`, and whose other bits are 0. -/
def wordOfBits (f : Nat → Bool) : Nat → Word
  | 0 => 0
  | n + 1 => wordOfBits f n ||| (BitVec.ofBool (f n)).zeroExtend 16 <<< n

/-- The output ports of the adder block (R85). -/
structure AdderOut where
  sum : Word
  cout : Bool
  ovf : Bool
deriving DecidableEq, Repr

/-- The 16-bit ripple-carry adder (R85): `sum = s_15 .. s_0`, `cout = c_16`, `ovf = c_16 XOR c_15`. -/
def adder16 (a b : Word) (cin : Bool) : AdderOut :=
  { sum := wordOfBits (rippleSum a b cin) 16
    cout := rippleCarry a b cin 16
    ovf := rippleCarry a b cin 16 ^^ rippleCarry a b cin 15 }

end Sys2Proof.Machine
end

