-- ==== Sys2Proof/Config.lean ====
section
/-! DEFINITION. What the spec leaves to an implementation: the named parameters of spec/00_scope.md R4 and
the one value it calls undefined (spec/10_state.md R25, spec/93_implementation_defined.md U14). -/

namespace Sys2Proof

/-- `DIV_MODE` (R4, R89, decision D8): how `div` rounds its quotient. -/
inductive DivMode where
  | floor
  | trunc
deriving DecidableEq, Repr

/-- The named parameters a step reads (R4). The spec takes them as arguments of the model, so a state holds
them (log entry 3) and a statement about every state holds for every choice. Each default is the spec's. -/
structure Params where
  /-- `DIV_MODE`, default FLOOR (R4, D8). -/
  divMode : DivMode := .floor
  /-- `CHECK_OVF_R0`, default true (R4, R79, D9). -/
  checkOvfR0 : Bool := true
  /-- `CHECK_UNTAKEN_TARGET`, default true (R4, R109, D10). -/
  checkUntakenTarget : Bool := true
deriving DecidableEq, Repr

/-- `DEBUG` (R4, R132): the host's choice before the first instruction. -/
inductive DebugOption where
  | on
  | off
  | ask
deriving DecidableEq, Repr

/-- FREE VALUE (log entry 9): `FAULT_WORD` of a fault that was raised before any word was fetched, which R25
calls undefined and U14 'any value'. It has no body: nothing about it can be proved but that it is a word. -/
opaque Config.unfetchedWord : Nat → Word

end Sys2Proof
end

