-- ==== Sys2Proof/Machine/State.lean ====
section
/-! DEFINITION. The state of SOC16 as plain data (spec/10_state.md R12 to R30), the reasons a step can stop,
and the state after reset. -/

namespace Sys2Proof.Machine

/-- The nine run-time faults of the machine (spec/60_exceptions.md R119). Taking one is a NEXT state, whose
status is `fault` and whose fault record is written (R118, log entry 1). -/
inductive RunFault where
  | memoryOutOfBounds
  | badInstruction
  | invalidJumpTarget
  | invalidMemoryTarget
  | divisionByZero
  | integerOverflow
  | invalidOpcode
  | interrupted
  | endOfInput
deriving DecidableEq, Repr

/-- The arguments a fault keeps with its record: the bad address or the bad target (R120). -/
inductive FaultInfo where
  | none
  | addr (a : Int)
  | target (t : Int)
deriving DecidableEq, Repr

/-- The fault record: `FAULT_CODE`, `FAULT_PC`, `FAULT_WORD` and `info` (R25, R120). -/
structure FaultRecord where
  code : RunFault
  pc : Word
  word : Word
  info : FaultInfo
deriving DecidableEq, Repr

/-- `status`: RUNNING, HALTED or FAULT(code) (R21). -/
inductive Status where
  | running
  | halted
  | fault (f : RunFault)
deriving DecidableEq, Repr

/-- The four states of the debugger (R133). -/
inductive DebuggerState where
  | paused
  | singleStepping
  | runningToCompletion
  | terminated
deriving DecidableEq, Repr

/-- What the host answers while a `read` waits (R92, R131). An answered value is in [-32768, 32767] by the
host's duty, so it is a word read as `sval`; `abort` is the operator escape and `cancel` a cancellation seen at
the wait (R75). -/
inductive ReadAnswer where
  | value (v : Word)
  | eof
  | abort
  | cancel
deriving DecidableEq, Repr

/-- What the host gives at a debugger prompt: a command of R134 (`cont` is `continue`, `other` any input that is
no command), or a cancellation (R75). -/
inductive PromptAnswer where
  | cont
  | run
  | quit
  | dump
  | print
  | help
  | other
  | cancel
deriving DecidableEq, Repr

/-- The host's free choices to come (R131), the MODEL's own field (log entry 2): one entry for each time the
core looks. `boundary`: is a cancellation requested at this instruction boundary? `console` and `prompt`: what
the host gives a waiting `read` or a debugger prompt, `none` for nothing yet. A list that has run out means: no
cancellation, and no answer ever. -/
structure HostScript where
  boundary : List Bool
  console : List (Option ReadAnswer)
  prompt : List (Option PromptAnswer)
deriving DecidableEq, Repr

/-- A memory cell: an address, which counts words, and the 16-bit word it holds (spec/20_memory.md R31). -/
abbrev Cell := Nat × Word

/-- The memory of 256 words (R27, R31), as the list of the cells that do not hold what an unlisted address reads
as; `Memory.wf` of Ops.lean says the list is canonical. -/
structure Memory where
  cells : List Cell
deriving DecidableEq, Repr

/-- The machine state (R12), and after it the model's own fields. -/
structure State where
  /-- `R[0..15]` (R13). -/
  regs : Vector Word 16
  /-- `PC`, 16 bits unsigned (R19). -/
  pc : Word
  /-- `MEM[0..255]` (R27). -/
  mem : Memory
  /-- `codeSize` (R22): at most 256. It is 0 only where no image is loaded (log entry 5). -/
  codeSize : Fin 257
  /-- `status` (R21). -/
  status : Status
  /-- `FAULT_CODE`, `FAULT_PC`, `FAULT_WORD` and the fault's arguments; empty until a fault (R25, R30). -/
  faultRecord : Option FaultRecord
  /-- `OUT`: the integers written to the console, in order (R28). -/
  out : List Int
  /-- `waiting`: a `read` is waiting for input (R29). -/
  waiting : Bool
  /-- `dbg`: the debugger state (R133). -/
  dbg : DebuggerState
  /-- MODEL: the core is suspended at `host_debug_pause`, after decode and before execute (R133, R144). -/
  prompting : Bool
  /-- MODEL: the host's choices to come (R131). -/
  host : HostScript
  /-- MODEL: the named parameters, fixed for the run (R4). -/
  params : Params
  /-- MODEL: how many free values have been drawn (log entry 9). -/
  freeDraws : Nat
deriving DecidableEq, Repr

/-- Why the model answers no next state. -/
inductive Fault where
  /-- The run has ended: `status` is HALTED or FAULT, and the machine takes no step (R81). Raised by `step` alone.
  Safe: the model goes nowhere where the machine goes nowhere. -/
  | runEnded
deriving DecidableEq, Repr

/-- Why an instruction is given no meaning. -/
inductive Refusal where
  /-- An arm of `exec` that has no meaning yet; no arm is one. Safe: nothing can be proved of a refused step. -/
  | notModelled (mnemonic : String)
deriving DecidableEq, Repr

/-- The machine right after reset (R30), before the host has loaded an image. PC, `status`, the fault record,
`OUT`, `waiting` and the parameters are as R30 and R4 say. R30 makes r1 to r15 and the data region draws; they
are zero here (DESIGN CHOICE, unsafe, log entry 4), as is `codeSize` while nothing is loaded (log entry 5) and a
host that does nothing and chose no debugging (log entry 6). `State.launch` gives the state for every draw. -/
def State.reset : State :=
  { regs := Vector.replicate 16 0
    pc := 0
    mem := ⟨[]⟩
    codeSize := 0
    status := .running
    faultRecord := none
    out := []
    waiting := false
    dbg := .runningToCompletion
    prompting := false
    host := ⟨[], [], []⟩
    params := {}
    freeDraws := 0 }

end Sys2Proof.Machine
end

