-- ==== Sys2Proof/Machine/Ops.lean ====
section
/-! DEFINITION. The named operations over memory, registers and the run: the load/store controller
(spec/20_memory.md R31 to R37), the register file (spec/10_state.md R13 to R17), raising a fault
(spec/60_exceptions.md R118 to R122), the writeback and the end of an instruction
(spec/40_execution_cycle.md R79, R80), and the transfer of control (spec/45_control_transfer.md R109). -/

namespace Sys2Proof.Machine

/-! ### Memory -/

/-- What an address that is not listed reads as (log entry 4). -/
def Memory.unlisted : Word := 0

/-- The word a list of cells gives an address. -/
def readCells : List Cell → Nat → Word
  | [], _ => Memory.unlisted
  | (b, v) :: cs, a => if a = b then v else readCells cs a

/-- The canonical list of cells with address `a` set to `v`: a cell that holds what an unlisted address reads as
is not listed. -/
def writeCells : List Cell → Nat → Word → List Cell
  | [], a, v => if v = Memory.unlisted then [] else [(a, v)]
  | (b, x) :: cs, a, v =>
    if a < b then
      if v = Memory.unlisted then (b, x) :: cs else (a, v) :: (b, x) :: cs
    else if a = b then
      if v = Memory.unlisted then cs else (a, v) :: cs
    else (b, x) :: writeCells cs a v

/-- `MEM[a]` (R27). -/
def Memory.read (m : Memory) (a : Nat) : Word := readCells m.cells a

/-- `MEM[a] <- v` (R37). -/
def Memory.write (m : Memory) (a : Nat) (v : Word) : Memory := ⟨writeCells m.cells a v⟩

/-- An address lies above a lower bound, if there is one. -/
def aboveBound (lo : Option Nat) (b : Nat) : Bool :=
  match lo with
  | none => true
  | some l => decide (l < b)

/-- Every listed address is above `lo`, the addresses rise strictly, each is below 256 (R31), and no listed cell
holds what an unlisted address reads as. -/
def cellsWf : List Cell → Option Nat → Bool
  | [], _ => true
  | (b, v) :: cs, lo =>
    aboveBound lo b && decide (b < 256) && decide (v ≠ Memory.unlisted) && cellsWf cs (some b)

/-- The canonical form of a memory. -/
def Memory.wf (m : Memory) : Bool := cellsWf m.cells none

/-- Words placed at successive addresses from `a` (R137). -/
def Memory.place (m : Memory) : Nat → List Word → Memory
  | _, [] => m
  | a, w :: ws => Memory.place (m.write a w) (a + 1) ws

/-! ### The load/store controller -/

/-- `valid(a)`: the address lies in the data region [codeSize, 256) (R35). The check is made on the integer,
before any narrowing (R34). -/
def validAddress (codeSize : Fin 257) (a : Int) : Bool :=
  decide ((codeSize.val : Int) ≤ a) && decide (a ≤ 255)

/-- The outputs of the load/store controller (R34); `rdata` is present only for a load that succeeds, and `mem`
is the memory after the access. -/
structure LsuOut where
  rdata : Option Word
  fault : Bool
  mem : Memory
deriving DecidableEq, Repr

/-- The load/store controller (R34 to R37): no access is made when the check fails. -/
def lsu (req wr : Bool) (addr : Int) (codeSize : Fin 257) (wdata : Word) (m : Memory) : LsuOut :=
  if !req then ⟨none, false, m⟩
  else if !validAddress codeSize addr then ⟨none, true, m⟩
  else if wr then ⟨none, false, m.write addr.toNat wdata⟩
  else ⟨some (m.read addr.toNat), false, m⟩

/-! ### The register file -/

/-- A read port: register 0 yields 0 whatever its storage holds (R14, R17). -/
def State.reg (s : State) (i : RegNo) : Word := if i = 0 then 0 else s.regs[i.toNat]

/-- `x[i]`: the register's word read as a signed integer (R7). -/
def State.x (s : State) (i : RegNo) : Int := sval (s.reg i)

/-- The write port (R17): a write to register 0 writes nothing (R79). -/
def State.setReg (s : State) (i : RegNo) (w : Word) : State :=
  if i = 0 then s else { s with regs := s.regs.set i.toNat w }

/-- `R[0] <- 0` (R15, R80). -/
def State.forceR0 (s : State) : State := { s with regs := s.regs.set 0 0 }

/-- The outputs of the register-file block's two read ports (R17). -/
def State.readPorts (s : State) (ra1 ra2 : RegNo) : Word × Word := (s.reg ra1, s.reg ra2)

/-- The register-file block's write port (R17): with `we` low nothing is written. -/
def State.writePort (s : State) (we : Bool) (wa : RegNo) (wd : Word) : State :=
  if we then s.setReg wa wd else s

/-! ### The instruction being executed -/

/-- `a`: the address of the instruction being executed. In the execute phase `PC` holds `a + 1` (R77). -/
def State.iaddr (s : State) : Word := s.pc - 1

/-- `w`: the word of the instruction being executed, which its address still holds (R33, R46). -/
def State.iword (s : State) : Word := s.mem.read s.iaddr.toNat

/-! ### Faults -/

/-- The numeric code of a fault (R119). -/
def RunFault.code : RunFault → Nat
  | .memoryOutOfBounds => 1
  | .badInstruction => 2
  | .invalidJumpTarget => 3
  | .invalidMemoryTarget => 4
  | .divisionByZero => 5
  | .integerOverflow => 6
  | .invalidOpcode => 7
  | .interrupted => 8
  | .endOfInput => 9

/-- TAKING A FAULT after the fetch (R8, R118, R122): the status becomes FAULT(code), the record names the
instruction being executed, and the state is otherwise the one before that instruction's writes, with
`PC = a + 1`. No handler runs and there is no return from it (R123). A fault ends any wait (R92, R134). -/
def State.raise (s : State) (f : RunFault) (info : FaultInfo) : State :=
  { s with
    status := .fault f
    faultRecord := some ⟨f, s.iaddr, s.iword, info⟩
    waiting := false
    prompting := false }

/-- Taking a fault before any fetch: `FAULT_PC` is `PC` itself and `FAULT_WORD` is undefined (R25), so it is a
FREE VALUE (log entry 9). -/
def State.raiseUnfetched (s : State) (f : RunFault) : State :=
  { s with
    status := .fault f
    faultRecord := some ⟨f, s.pc, Config.unfetchedWord s.freeDraws, .none⟩
    freeDraws := s.freeDraws + 1 }

/-! ### The end of an instruction -/

/-- The debugger after a completed instruction: single-stepping returns to PAUSED (R133). -/
def DebuggerState.afterInstruction : DebuggerState → DebuggerState
  | .singleStepping => .paused
  | d => d

/-- The end of every instruction that completes without a fault: register 0 is forced to 0 (R15, R80), and a
single-stepping debugger is PAUSED again (R133). -/
def State.retire (s : State) : State :=
  { s.forceR0 with dbg := s.dbg.afterInstruction }

/-- The outcome of an instruction, whose execute phase has the state with `PC = a + 1` (R77, R78). -/
abbrev Result := Host.Outcome State Fault Refusal

/-- An instruction that completes in a state. -/
def complete (t : State) : Result := .next t.retire

/-- The writeback of R79 of value `v` to register `rd`, in a state `t` that holds the instruction's other
effects; the range check fails into the state `s` before any of them (R122). -/
def writebackFrom (s : State) (rd : RegNo) (v : Int) (t : State) : Result :=
  if !fits16 v && (rd ≠ 0 || s.params.checkOvfR0) then
    .next (s.raise .integerOverflow .none)
  else
    complete (t.setReg rd (word v))

/-- The writeback of an instruction with no other effect (R79). -/
def writeback (s : State) (rd : RegNo) (v : Int) : Result := writebackFrom s rd v s

/-! ### Loads, stores and transfers -/

/-- A load into `rd` from effective address `ea` through the load/store controller (R36, R97, R99). -/
def loadFrom (s : State) (rd : RegNo) (ea : Int) : Result :=
  match (lsu true false ea s.codeSize 0 s.mem).rdata with
  | some w => writeback s rd (sval w)
  | none => .next (s.raise .invalidMemoryTarget (.addr ea))

/-- A store of a word to effective address `ea` through the load/store controller (R37, R98, R100). -/
def storeTo (s : State) (ea : Int) (w : Word) : Result :=
  if (lsu true true ea s.codeSize w s.mem).fault then
    .next (s.raise .invalidMemoryTarget (.addr ea))
  else
    complete { s with mem := (lsu true true ea s.codeSize w s.mem).mem }

/-- A transfer target is valid iff it lies in [0, codeSize) (R109). -/
def validTarget (codeSize : Fin 257) (t : Int) : Bool := decide (0 ≤ t) && decide (t < (codeSize.val : Int))

/-- A transfer to an invalid target (R109). -/
def badTarget (s : State) (t : Int) : Result := .next (s.raise .invalidJumpTarget (.target t))

/-- `transfer(t)` (R109), then the rest of the instruction. -/
def transferThen (s : State) (t : Int) (rest : State → Result) : Result :=
  if validTarget s.codeSize t then rest { s with pc := word t } else badTarget s t

/-- An unconditional transfer that writes no register (R109). -/
def transfer (s : State) (t : Int) : Result := transferThen s t complete

/-- A conditional branch (R109): taken, it transfers; untaken, it checks its target only if
`CHECK_UNTAKEN_TARGET` is true. -/
def branchIf (s : State) (taken : Bool) (t : Int) : Result :=
  if taken then transfer s t
  else if s.params.checkUntakenTarget && !validTarget s.codeSize t then badTarget s t
  else complete s

/-! ### The console -/

/-- `resp <- Input()` and what `read` does with it (R92): with no answer the core waits, and it looks again at
the next step. -/
def readConsole (s : State) (rd : RegNo) : Result :=
  match s.host.console with
  | [] => .next { s with waiting := true }
  | none :: rest => .next { s with waiting := true, host := { s.host with console := rest } }
  | some answer :: rest =>
    let t := { s with waiting := false, host := { s.host with console := rest } }
    match answer with
    | .value v => writeback t rd (sval v)
    | .eof => .next (t.raise .endOfInput .none)
    | .abort => .next (t.raise .interrupted .none)
    | .cancel => .next (t.raise .interrupted .none)

/-- `OUT <- OUT ++ [v]; Output(v)` (R93). The host always accepts it (R131, D24). -/
def State.output (s : State) (v : Int) : State := { s with out := s.out ++ [v] }

end Sys2Proof.Machine
end

