-- ==== Sys2Proof/Machine/Operands.lean ====
section
/-! DEFINITION. The operand forms: how an instruction's fields become the integers its rule computes with
(spec/30_encoding.md R56, spec/43_load_store.md, spec/45_control_transfer.md). -/

namespace Sys2Proof.Machine

/-- A signed immediate: `sext_16` of the field, an integer in -128..127, its sign the leading bit (R56). -/
def signedImm (s : Imm8) : Int := sval (s.signExtend 16)

/-- An unsigned immediate: `zext_16` of the field, an integer in 0..255 (R56). -/
def unsignedImm (u : Imm8) : Int := (uval (u.zeroExtend 16) : Int)

/-- The direct effective address of `load` and `store` (R97, R98). -/
def directAddress (u : Imm8) : Int := unsignedImm u

/-- The register-indirect effective address of `loadi` and `storei`: the signed register value (R99, R100). -/
def indirectAddress (s : State) (rY : RegNo) : Int := s.x rY

/-- The immediate transfer target of `jump`, `call` and the branches (R110 to R115). -/
def directTarget (u : Imm8) : Int := unsignedImm u

/-- The register transfer target of `jumpi`: the signed register value (R116). -/
def indirectTarget (s : State) (rX : RegNo) : Int := s.x rX

/-- The link value of `call`: `PC`, the post-increment return address (R111). -/
def linkValue (s : State) : Int := (uval s.pc : Int)

/-- The registers an instruction reads (spec/10_state.md R18). -/
def regReads : Instr → List RegNo
  | .halt | .nop | .jump _ => []
  | .read _ | .loadn _ _ | .load _ _ | .call _ _ | .data _ => []
  | .write rX | .jumpi rX | .addn rX _ | .store rX _ => [rX]
  | .loadi _ rY | .mov _ rY | .neg _ rY => [rY]
  | .storei rX rY => [rX, rY]
  | .add _ rY rZ | .sub _ rY rZ | .mul _ rY rZ | .div _ rY rZ | .mod _ rY rZ => [rY, rZ]
  | .jeqz rX _ | .jnez rX _ | .jgtz rX _ | .jltz rX _ => [rX]

/-- The register an instruction writes (spec/10_state.md R18). -/
def regWrites : Instr → Option RegNo
  | .read rX | .loadn rX _ | .addn rX _ | .load rX _ | .call rX _ => some rX
  | .loadi rX _ | .mov rX _ | .neg rX _ => some rX
  | .add rX _ _ | .sub rX _ _ | .mul rX _ _ | .div rX _ _ | .mod rX _ _ => some rX
  | .halt | .nop | .jump _ | .write _ | .jumpi _ | .store _ _ | .storei _ _ | .data _ => none
  | .jeqz _ _ | .jnez _ _ | .jgtz _ _ | .jltz _ _ => none

/-- The effective address an instruction stores to, and the word it stores there (R98, R100). -/
def memWrites : Instr → State → Option (Int × Word)
  | .store rX u, s => some (directAddress u, s.reg rX)
  | .storei rX rY, s => some (indirectAddress s rY, s.reg rX)
  | .halt, _ | .nop, _ | .read _, _ | .write _, _ | .jumpi _, _ | .jump _, _ | .call _ _, _ | .data _, _ => none
  | .loadn _ _, _ | .addn _ _, _ | .load _ _, _ | .loadi _ _, _ | .mov _ _, _ | .neg _ _, _ => none
  | .add _ _ _, _ | .sub _ _ _, _ | .mul _ _ _, _ | .div _ _ _, _ | .mod _ _ _, _ => none
  | .jeqz _ _, _ | .jnez _ _, _ | .jgtz _ _, _ | .jltz _ _, _ => none

/-- The register an instruction loads, and the effective address it loads from (R97, R99). -/
def memReads : Instr → State → Option (RegNo × Int)
  | .load rX u, _ => some (rX, directAddress u)
  | .loadi rX rY, s => some (rX, indirectAddress s rY)
  | .halt, _ | .nop, _ | .read _, _ | .write _, _ | .jumpi _, _ | .jump _, _ | .call _ _, _ | .data _, _ => none
  | .loadn _ _, _ | .addn _ _, _ | .store _ _, _ | .storei _ _, _ | .mov _ _, _ | .neg _ _, _ => none
  | .add _ _ _, _ | .sub _ _ _, _ | .mul _ _ _, _ | .div _ _ _, _ | .mod _ _ _, _ => none
  | .jeqz _ _, _ | .jnez _ _, _ | .jgtz _ _, _ | .jltz _ _, _ => none

end Sys2Proof.Machine
end

