-- ==== Sys2Proof/Machine/ArithUnits.lean ====
section
/-! DEFINITION. The multiplier and the divider (spec/40_execution_cycle.md R88, R89), and how the adder-based
instructions drive the ripple-carry adder (R87). -/

namespace Sys2Proof.Machine

/-- The multiplier: the exact product (R88). -/
def multiplier (a b : Int) : Int := a * b

/-- A quotient and a remainder (R89). -/
structure DivOut where
  q : Int
  r : Int
deriving DecidableEq, Repr

/-- The divider's quotient: the floor of `n / d`, or `n / d` rounded toward zero (R89). -/
def quotient (mode : DivMode) (n d : Int) : Int :=
  match mode with
  | .floor => n.fdiv d
  | .trunc => n.tdiv d

/-- The divider (R89): no result for a zero divisor, else the quotient and `r = n - d*q`. -/
def divider (mode : DivMode) (n d : Int) : Option DivOut :=
  if d = 0 then none else some ⟨quotient mode n d, n - d * quotient mode n d⟩

/-- How an adder-based instruction ends: the range check of the writeback is the test of `ovf`, and the value
written is `sum` (R86). `spec/40_execution_cycle.md` R87 drives it; `writeback` computes the same. -/
def adderWriteback (s : State) (rd : RegNo) (o : AdderOut) : Result :=
  if o.ovf && (rd ≠ 0 || s.params.checkOvfR0) then
    .next (s.raise .integerOverflow .none)
  else
    complete (s.setReg rd o.sum)

/-- How `add rX rY rZ` drives the adder (R87). -/
def adderForAdd (s : State) (rY rZ : RegNo) : AdderOut := adder16 (s.reg rY) (s.reg rZ) false

/-- How `sub rX rY rZ` drives the adder (R87). -/
def adderForSub (s : State) (rY rZ : RegNo) : AdderOut := adder16 (s.reg rY) (~~~(s.reg rZ)) true

/-- How `neg rX rY` drives the adder (R87). -/
def adderForNeg (s : State) (rY : RegNo) : AdderOut := adder16 0x0000 (~~~(s.reg rY)) true

/-- How `addn rX s` drives the adder (R87). -/
def adderForAddn (s : State) (rX : RegNo) (imm : Imm8) : AdderOut :=
  adder16 (s.reg rX) (imm.signExtend 16) false

end Sys2Proof.Machine
end

