-- ==== Sys2Proof/Machine/Arithmetic.lean ====
section
/-! DEFINITION. Register arithmetic: add, sub, mul, div, mod, neg, mov and nop
(spec/44_register_arithmetic.md R101 to R108). -/

namespace Sys2Proof.Machine

/-- `add rX rY rZ` sets rX to rY + rZ (R101). -/
def execAdd (rX rY rZ : RegNo) (s : State) : Result := writeback s rX (s.x rY + s.x rZ)

/-- `sub rX rY rZ` sets rX to rY - rZ (R102). -/
def execSub (rX rY rZ : RegNo) (s : State) : Result := writeback s rX (s.x rY - s.x rZ)

/-- `mul rX rY rZ` sets rX to the exact product rY × rZ (R103). -/
def execMul (rX rY rZ : RegNo) (s : State) : Result := writeback s rX (multiplier (s.x rY) (s.x rZ))

/-- `div rX rY rZ` sets rX to the quotient of rY by rZ (R104). -/
def execDiv (rX rY rZ : RegNo) (s : State) : Result :=
  match divider s.params.divMode (s.x rY) (s.x rZ) with
  | none => .next (s.raise .divisionByZero .none)
  | some o => writeback s rX o.q

/-- `mod rX rY rZ` sets rX to the remainder of rY by rZ (R105). -/
def execMod (rX rY rZ : RegNo) (s : State) : Result :=
  match divider s.params.divMode (s.x rY) (s.x rZ) with
  | none => .next (s.raise .divisionByZero .none)
  | some o => writeback s rX o.r

/-- `neg rX rY` sets rX to -rY (R106). -/
def execNeg (rX rY : RegNo) (s : State) : Result := writeback s rX (-s.x rY)

/-- `mov rX rY` copies rY to rX (R107). -/
def execMov (rX rY : RegNo) (s : State) : Result := writeback s rX (s.x rY)

/-- `nop` does nothing (R108). -/
def execNop (s : State) : Result := complete s

end Sys2Proof.Machine
end

