-- ==== Sys2Proof/Machine/Control.lean ====
section
/-! DEFINITION. Machine control and console I/O: halt, read, write, data
(spec/41_machine_control_io.md R91 to R94). -/

namespace Sys2Proof.Machine

/-- `halt` stops the machine normally (R91). -/
def execHalt (s : State) : Result := complete { s with status := .halted }

/-- `read rX` takes one integer from the console host into rX (R92). -/
def execRead (rX : RegNo) (s : State) : Result := readConsole s rX

/-- `write rX` emits rX's value to the console host (R93). -/
def execWrite (rX : RegNo) (s : State) : Result := complete (s.output (s.x rX))

/-- A `data` word is not executable: it raises INVALID_OPCODE (R94). The operand is for disassembly only. -/
def execData (_n : Word) (s : State) : Result := .next (s.raise .invalidOpcode .none)

end Sys2Proof.Machine
end

