-- ==== Sys2Proof/Machine/Immediate.lean ====
section
/-! DEFINITION. The immediate instructions loadn and addn (spec/42_immediate.md R95, R96). -/

namespace Sys2Proof.Machine

/-- `loadn rX s` sets rX to a signed 8-bit constant (R95). -/
def execLoadn (rX : RegNo) (imm : Imm8) (s : State) : Result := writeback s rX (signedImm imm)

/-- `addn rX s` adds a signed 8-bit constant to rX (R96). -/
def execAddn (rX : RegNo) (imm : Imm8) (s : State) : Result := writeback s rX (s.x rX + signedImm imm)

end Sys2Proof.Machine
end

