-- ==== Sys2Proof/Machine/LoadStore.lean ====
section
/-! DEFINITION. The loads and stores load, store, loadi and storei (spec/43_load_store.md R97 to R100). -/

namespace Sys2Proof.Machine

/-- `load rX u` loads rX from memory address u (R97). -/
def execLoad (rX : RegNo) (u : Imm8) (s : State) : Result := loadFrom s rX (directAddress u)

/-- `store rX u` stores rX to memory address u (R98). -/
def execStore (rX : RegNo) (u : Imm8) (s : State) : Result := storeTo s (directAddress u) (s.reg rX)

/-- `loadi rX rY` loads rX from the address held in rY (R99). -/
def execLoadi (rX rY : RegNo) (s : State) : Result := loadFrom s rX (indirectAddress s rY)

/-- `storei rX rY` stores rX to the address held in rY (R100). -/
def execStorei (rX rY : RegNo) (s : State) : Result := storeTo s (indirectAddress s rY) (s.reg rX)

end Sys2Proof.Machine
end

