-- ==== Sys2Proof/Machine/Transfer.lean ====
section
/-! DEFINITION. Control transfer: jump, call, jeqz, jnez, jgtz, jltz and jumpi
(spec/45_control_transfer.md R109 to R117). -/

namespace Sys2Proof.Machine

/-- `jump u` transfers to address u (R110). -/
def execJump (u : Imm8) (s : State) : Result := transfer s (directTarget u)

/-- `call rX u` stores the return address in rX and transfers to u; with a bad target rX is not written
(R111). -/
def execCall (rX : RegNo) (u : Imm8) (s : State) : Result :=
  transferThen s (directTarget u) (writebackFrom s rX (linkValue s))

/-- `jeqz rX u` transfers to u if rX = 0 (R112). -/
def execJeqz (rX : RegNo) (u : Imm8) (s : State) : Result := branchIf s (decide (s.x rX = 0)) (directTarget u)

/-- `jnez rX u` transfers to u if rX is not 0 (R113). -/
def execJnez (rX : RegNo) (u : Imm8) (s : State) : Result := branchIf s (decide (s.x rX ≠ 0)) (directTarget u)

/-- `jgtz rX u` transfers to u if rX > 0, comparing signed (R114). -/
def execJgtz (rX : RegNo) (u : Imm8) (s : State) : Result := branchIf s (decide (s.x rX > 0)) (directTarget u)

/-- `jltz rX u` transfers to u if rX < 0, comparing signed (R115). -/
def execJltz (rX : RegNo) (u : Imm8) (s : State) : Result := branchIf s (decide (s.x rX < 0)) (directTarget u)

/-- `jumpi rX` transfers to the address held in rX (R116). -/
def execJumpi (rX : RegNo) (s : State) : Result := transfer s (indirectTarget s rX)

end Sys2Proof.Machine
end

