-- ==== Sys2Proof/Machine/Dispatch.lean ====
section
/-! DEFINITION. The execute phase: one arm per table entry, with no default arm (spec/40_execution_cycle.md
R78). The state is the one after the fetch, with PC = a + 1 (R77). -/

namespace Sys2Proof.Machine

def exec (i : Instr) (s : State) : Host.Outcome State Fault Refusal :=
  match i with
  | .halt => Sys2Proof.Machine.execHalt s
  | .read rX => Sys2Proof.Machine.execRead rX s
  | .write rX => Sys2Proof.Machine.execWrite rX s
  | .jumpi rX => Sys2Proof.Machine.execJumpi rX s
  | .loadn rX imm => Sys2Proof.Machine.execLoadn rX imm s
  | .load rX u => Sys2Proof.Machine.execLoad rX u s
  | .store rX u => Sys2Proof.Machine.execStore rX u s
  | .loadi rX rY => Sys2Proof.Machine.execLoadi rX rY s
  | .storei rX rY => Sys2Proof.Machine.execStorei rX rY s
  | .addn rX imm => Sys2Proof.Machine.execAddn rX imm s
  | .nop => Sys2Proof.Machine.execNop s
  | .mov rX rY => Sys2Proof.Machine.execMov rX rY s
  | .add rX rY rZ => Sys2Proof.Machine.execAdd rX rY rZ s
  | .neg rX rY => Sys2Proof.Machine.execNeg rX rY s
  | .sub rX rY rZ => Sys2Proof.Machine.execSub rX rY rZ s
  | .mul rX rY rZ => Sys2Proof.Machine.execMul rX rY rZ s
  | .div rX rY rZ => Sys2Proof.Machine.execDiv rX rY rZ s
  | .mod rX rY rZ => Sys2Proof.Machine.execMod rX rY rZ s
  | .jump u => Sys2Proof.Machine.execJump u s
  | .call rX u => Sys2Proof.Machine.execCall rX u s
  | .jeqz rX u => Sys2Proof.Machine.execJeqz rX u s
  | .jnez rX u => Sys2Proof.Machine.execJnez rX u s
  | .jgtz rX u => Sys2Proof.Machine.execJgtz rX u s
  | .jltz rX u => Sys2Proof.Machine.execJltz rX u s
  | .data n => Sys2Proof.Machine.execData n s

end Sys2Proof.Machine
end

