-- ==== Sys2Proof/Machine/Cycle.lean ====
section
/-! DEFINITION. The fetch-decode-execute step (spec/40_execution_cycle.md R74 to R81), with the host's
cancellation (R75) and the debugger's pause (spec/60_exceptions.md R133, R134). -/

namespace Sys2Proof.Machine

/-- The fetch check: `PC` lies in [0, codeSize) (R76). -/
def State.fetchOk (s : State) : Bool := decide (s.pc.toNat < s.codeSize.val)

/-- `IFetch(a)` (R33). -/
def State.iFetch (s : State) (a : Word) : Word := s.mem.read a.toNat

/-- The state after the fetch: `PC` is the fetched address plus 1 (R77). -/
def State.afterFetch (s : State) : State := { s with pc := s.pc + 1 }

/-- The debugger pauses the core before an instruction when it is PAUSED or SINGLE_STEPPING (R133). -/
def DebuggerState.pauses : DebuggerState → Bool
  | .paused | .singleStepping => true
  | .runningToCompletion | .terminated => false

/-- The execute phase once a prompt is answered: the debugger is in a new state and no longer waits (R134). -/
def leavePrompt (i : Instr) (s : State) (d : DebuggerState) : Result :=
  exec i { s with dbg := d, prompting := false }

/-- One look of the paused core at the debugger's prompt, before instruction `i` (R134): with no command the
core stays paused, and it looks again at the next step. A cancellation here ends the run before the blocked
instruction has any effect (R75). -/
def debuggerPrompt (i : Instr) (s : State) : Result :=
  match s.host.prompt with
  | [] => .next s
  | none :: rest => .next { s with host := { s.host with prompt := rest } }
  | some answer :: rest =>
    let t := { s with host := { s.host with prompt := rest } }
    match answer with
    | .cont => leavePrompt i t .runningToCompletion
    | .run => leavePrompt i t .runningToCompletion
    | .other => leavePrompt i t .singleStepping
    | .quit => .next { t.raise .interrupted .none with dbg := .terminated }
    | .cancel => .next (t.raise .interrupted .none)
    | .dump => .next t
    | .print => .next t
    | .help => .next t

/-- `host_debug_pause`, then the execute phase (R74, R133). -/
def pauseOrExecute (i : Instr) (s : State) : Result :=
  if s.dbg.pauses then debuggerPrompt i { s with dbg := .paused, prompting := true } else exec i s

/-- What the step does with the decoder's answer: the UNTRANSLATABLE marker is BAD_INSTRUCTION (R59, R119), an
instruction goes on. -/
def afterDecode (d : Decoded) (s : State) (go : Instr → State → Result) : Result :=
  match d with
  | .untranslatable => .next (s.raise .badInstruction .none)
  | .instr i => go i s

/-- The decode of the word being executed, and what follows it (R74). -/
def withDecoded (s : State) (go : Instr → State → Result) : Result := afterDecode (decode s.iword) s go

/-- `host_abort_requested()` at an instruction boundary (R75): the host's choice here. -/
def State.cancelRequested (s : State) : Bool := s.host.boundary.headD false

/-- The state once the host's choice at this boundary has been seen. -/
def State.boundarySeen (s : State) : State :=
  { s with host := { s.host with boundary := s.host.boundary.tail } }

/-- A step from an instruction boundary (R74): cancellation, the fetch check, the fetch, decode, the debugger's
pause, execute. -/
def stepBoundary (s : State) : Result :=
  if s.cancelRequested then .next (s.boundarySeen.raiseUnfetched .interrupted)
  else if s.boundarySeen.fetchOk then withDecoded s.boundarySeen.afterFetch pauseOrExecute
  else .next (s.boundarySeen.raiseUnfetched .memoryOutOfBounds)

/-- A step of a running machine: a waiting `read` or a paused core looks at its host again (R29, R144), else an
instruction begins. -/
def stepRunning (s : State) : Result :=
  if s.waiting then withDecoded s exec
  else if s.prompting then withDecoded s debuggerPrompt
  else stepBoundary s

/-- One step: a machine whose status is HALTED or FAULT takes none (R81). -/
def stepMachine (s : State) : Result :=
  match s.status with
  | .running => stepRunning s
  | .halted => .fault .runEnded
  | .fault _ => .fault .runEnded

/-- A word placed where the next step fetches, in a machine ready to fetch it: `PC` inside the memory and inside
the code region, the machine running, and nothing of the host in the way (log entry 7). -/
def State.withInstruction (s : State) (w : Word) : State :=
  let a : Word := if s.pc.toNat < 256 then s.pc else 0
  { s with
    pc := a
    mem := s.mem.write a.toNat w
    codeSize := if a.toNat < s.codeSize.val then s.codeSize else Fin.ofNat 257 (a.toNat + 1)
    status := .running
    waiting := false
    dbg := .runningToCompletion
    prompting := false
    host := { s.host with boundary := [] } }

end Sys2Proof.Machine
end

