-- ==== Sys2Proof/Machine/Step.lean ====
section
/-! DEFINITION. One step of the machine, under the names the host reads. -/

namespace Sys2Proof.Machine

/-- One step (spec/40_execution_cycle.md R74, R81). -/
def step (s : State) : Host.Outcome State Fault Refusal := stepMachine s

/-- The state with the instruction whose bits are `w` stored where `step` fetches its next instruction, so that
the very next step runs it; it stands for the image load of a one-instruction image (log entry 7). -/
def State.withFetchWord (s : State) (nbits w : Nat) : State :=
  s.withInstruction (BitVec.ofNat 16 (w % 2 ^ nbits))

end Sys2Proof.Machine
end

