-- ==== Sys2Proof/Machine/Disassembler.lean ====
section
/-! DEFINITION. The disassembled text of an instruction (spec/30_encoding.md R62) and the console's output text
(spec/41_machine_control_io.md R93). Texts are lists of characters. No rule of the machine reads them. -/

namespace Sys2Proof.Machine

/-- The name of a mnemonic (R53). -/
def mnemonicText : Mnemonic → List Char
  | .halt => "halt".toList
  | .read => "read".toList
  | .write => "write".toList
  | .jumpi => "jumpi".toList
  | .loadn => "loadn".toList
  | .load => "load".toList
  | .store => "store".toList
  | .loadi => "loadi".toList
  | .storei => "storei".toList
  | .addn => "addn".toList
  | .nop => "nop".toList
  | .mov => "mov".toList
  | .add => "add".toList
  | .neg => "neg".toList
  | .sub => "sub".toList
  | .mul => "mul".toList
  | .div => "div".toList
  | .mod => "mod".toList
  | .jump => "jump".toList
  | .call => "call".toList
  | .jeqz => "jeqz".toList
  | .jnez => "jnez".toList
  | .jgtz => "jgtz".toList
  | .jltz => "jltz".toList
  | .data => "data".toList

/-- A natural number in decimal. -/
def decimalNat (n : Nat) : List Char := Nat.toDigits 10 n

/-- An integer in signed decimal (R62, R93). -/
def decimalInt (v : Int) : List Char :=
  if v < 0 then '-' :: decimalNat v.natAbs else decimalNat v.natAbs

/-- An argument's text (R62): `r<n>` for a register, signed decimal for the rest, `n` as `sval`. -/
def argText : Arg → List Char
  | .reg n => 'r' :: decimalNat n.toNat
  | .signed v => decimalInt v.toInt
  | .unsigned v => decimalNat v.toNat
  | .imm n => decimalInt (sval n)

/-- The mnemonic, then the arguments, separated by single spaces (R62). -/
def instrText (i : Instr) : List Char :=
  mnemonicText i.mnemonic ++ i.args.flatMap (fun a => ' ' :: argText a)

/-- The text form the decoder yields for a word (R62); the unreachable marker has an empty text. -/
def disassemble (w : Word) : List Char :=
  match decode w with
  | .instr i => instrText i
  | .untranslatable => []

/-- The disassembly a fault's reporter prints (R120). -/
def FaultRecord.disassembly (r : FaultRecord) : List Char := disassemble r.word

/-- What the console has shown of `OUT`: each value in signed decimal on a line of its own (R93). -/
def State.consoleText (s : State) : List Char := s.out.flatMap (fun v => decimalInt v ++ ['\n'])

end Sys2Proof.Machine
end

