-- ==== Sys2Proof/Machine/Loader.lean ====
section
/-! DEFINITION. The binary image text (spec/30_encoding.md R73), the image loader
(spec/70_reset_and_hazards.md R135 to R138) and the start of a run (R139). -/

namespace Sys2Proof.Machine

/-- A text cut at every character that satisfies a test, those characters left out. -/
def splitAtChars (cut : Char → Bool) : List Char → List (List Char)
  | [] => [[]]
  | c :: cs =>
    if cut c then [] :: splitAtChars cut cs
    else match splitAtChars cut cs with
      | [] => [[c]]
      | l :: ls => (c :: l) :: ls

/-- A bit character (R73). -/
def isBitChar (c : Char) : Bool := c = '0' || c = '1'

/-- A character an image may hold (R73, R135). -/
def isImageChar (c : Char) : Bool := isBitChar c || c = ' ' || c = '\n'

/-- The lines that are counted: those with at least one bit character (R136). -/
def countedLines (text : List Char) : List (List Char) :=
  (splitAtChars (fun c => c = '\n') text).filter (fun l => l.any isBitChar)

/-- The word whose bit 15 is the first of 16 bit characters (R137). -/
def wordOfBitChars (bits : List Char) : Word :=
  bits.foldl (fun w c => w <<< 1 ||| (if c = '1' then 1 else 0)) 0

/-- The word of a counted line: exactly 16 bit characters once its spaces are removed (R135, R138). -/
def lineWord (line : List Char) : Option Word :=
  let bits := line.filter (fun c => c ≠ ' ')
  if bits.length = 16 then some (wordOfBitChars bits) else none

/-- The words of counted lines, if every line has one. -/
def lineWords : List (List Char) → Option (List Word)
  | [] => some []
  | l :: ls =>
    match lineWord l, lineWords ls with
    | some w, some ws => some (w :: ws)
    | _, _ => none

/-- The loader's verdict on an image: its words, or LOAD_ERROR, which is no run-time fault (R135, D16). -/
inductive LoadVerdict where
  | loaded (image : List Word)
  | loadError
deriving DecidableEq, Repr

/-- Loading an image text (R135, R136, R138). -/
def loadImage (text : List Char) : LoadVerdict :=
  if !text.all isImageChar then .loadError
  else if (countedLines text).isEmpty then .loadError
  else if (countedLines text).length > 256 then .loadError
  else match lineWords (countedLines text) with
    | some ws => .loaded ws
    | none => .loadError

/-- Four bits of a word as characters, from bit `lo + 3` down to bit `lo`. -/
def nibbleChars (w : Word) (lo : Nat) : List Char :=
  [lo + 3, lo + 2, lo + 1, lo].map (fun i => if w.getLsbD i then '1' else '0')

/-- A word's image line: four groups of four, bit 15 first (R73, GK9). -/
def imageLine (w : Word) : List Char :=
  nibbleChars w 12 ++ ' ' :: (nibbleChars w 8 ++ ' ' :: (nibbleChars w 4 ++ ' ' :: nibbleChars w 0))

/-- The image text of a list of words, one line per word (R73). R73 does not say whether the last line ends with a
newline: here every line does (DESIGN CHOICE, log entry 19). -/
def imageText (words : List Word) : List Char := words.flatMap (fun w => imageLine w ++ ['\n'])

/-- What the spec leaves to a launch (R4, R30): the parameters, the draws `INIT_REGS` and `INIT_DATA`, the host's
debug choice with its answer when asked, and the host's choices to come. -/
structure Launch where
  params : Params
  initRegs : Vector Word 16
  initData : Memory
  debug : DebugOption
  debugAnswer : Bool
  host : HostScript
deriving DecidableEq, Repr

/-- The debugger state the host's debug choice selects before the first instruction (R132). -/
def startDebugger : DebugOption → Bool → DebuggerState
  | .on, _ => .paused
  | .off, _ => .runningToCompletion
  | .ask, true => .paused
  | .ask, false => .runningToCompletion

/-- The state at the start of a run of a loaded image (R30, R139). -/
def State.launch (l : Launch) (image : List Word) : State :=
  { regs := l.initRegs.set 0 0
    pc := 0
    mem := l.initData.place 0 image
    codeSize := Fin.ofNat 257 image.length
    status := .running
    faultRecord := none
    out := []
    waiting := false
    dbg := startDebugger l.debug l.debugAnswer
    prompting := false
    host := l.host
    params := l.params
    freeDraws := 0 }

/-- The start of a run from an image text; a refused image starts no run (R135). -/
def State.boot (l : Launch) (text : List Char) : Option State :=
  match loadImage text with
  | .loaded image => some (State.launch l image)
  | .loadError => none

end Sys2Proof.Machine
end

