-- ==== Sys2Proof/Machine/Assembler.lean ====
section
/-! DEFINITION. The assembler's syntax (spec/30_encoding.md R63 to R72), which the spec gives so that test
programs can be written and a model's encoder matches the source's. It is software around the core: no step
reads it. -/

namespace Sys2Proof.Machine

/-- The assembler's open parameters (R63, R65, D28): where a comment begins, whether a line with nothing but a
comment is passed over, and the aliases beyond the two the source names. -/
structure AsmParams where
  commentAt : List Char → Bool
  blankAllowed : Bool
  moreAliases : List (List Char × Mnemonic)

/-- The error kinds (R70). -/
inductive AsmError where
  | syntaxError
  | missingLineNumber
  | badLineNumber
  | operation
  | argument
  | register
deriving DecidableEq, Repr

/-- What a line assembles to: nothing, a word, or an error's placeholder (R70). -/
inductive LineOutcome where
  | blank
  | coded (w : Word)
  | failed (e : AsmError)
deriving DecidableEq, Repr

/-- White space inside a line. -/
def isSpaceChar (c : Char) : Bool := c = ' ' || c = '\t' || c = '\r'

/-- What separates argument tokens (R63). -/
def isArgSeparator (c : Char) : Bool := c = ',' || isSpaceChar c

/-- A decimal digit. -/
def isDigitChar (c : Char) : Bool := decide ('0'.toNat ≤ c.toNat) && decide (c.toNat ≤ '9'.toNat)

/-- A lowercase letter. -/
def isLowerChar (c : Char) : Bool := decide ('a'.toNat ≤ c.toNat) && decide (c.toNat ≤ 'z'.toNat)

/-- A line without its comment. -/
def stripComment (p : AsmParams) : List Char → List Char
  | [] => []
  | c :: cs => if p.commentAt (c :: cs) then [] else c :: stripComment p cs

/-- The tokens between characters that satisfy a test. Characters in a row separate once, so there is no empty token
(DESIGN CHOICE for commas in a row, log entry 12). -/
def tokensBetween (sep : Char → Bool) (cs : List Char) : List (List Char) :=
  (splitAtChars sep cs).filter (fun t => t ≠ [])

/-- The value of a hexadecimal digit. -/
def hexDigit (c : Char) : Option Nat :=
  if isDigitChar c then some (c.toNat - '0'.toNat)
  else if 'a'.toNat ≤ c.toNat ∧ c.toNat ≤ 'f'.toNat then some (c.toNat - 'a'.toNat + 10)
  else if 'A'.toNat ≤ c.toNat ∧ c.toNat ≤ 'F'.toNat then some (c.toNat - 'A'.toNat + 10)
  else none

/-- The value of digits in a base, the leading one first, onto what is already read. -/
def digitsValue (base : Nat) : Nat → List Char → Option Nat
  | acc, [] => some acc
  | acc, c :: cs =>
    match hexDigit c with
    | some d => if d < base then digitsValue base (base * acc + d) cs else none
    | none => none

/-- An unsigned number: decimal, or hexadecimal after `0x` (R67). -/
def unsignedNumber : List Char → Option Nat
  | [] => none
  | '0' :: 'x' :: ds => if ds = [] then none else digitsValue 16 0 ds
  | ds => digitsValue 10 0 ds

/-- A number with an optional sign (R67). -/
def signedNumber : List Char → Option Int
  | '-' :: ds => (unsignedNumber ds).map (fun n => -(n : Int))
  | '+' :: ds => (unsignedNumber ds).map (fun n => (n : Int))
  | ds => (unsignedNumber ds).map (fun n => (n : Int))

/-- A token that matches `[Rr]` and digits (R67). -/
def isRegisterToken : List Char → Bool
  | c :: d :: ds => (c = 'r' || c = 'R') && (d :: ds).all isDigitChar
  | _ => false

/-- The register a register token names: its digits are those of 0 to 15 (R67). -/
def registerNumber (tok : List Char) : Option RegNo :=
  ((List.range 16).find? (fun n => decimalNat n = tok.tail)).map (BitVec.ofNat 4)

/-- A number as an argument of a kind, if it is in the kind's range (R68). -/
def numberArg (k : Kind) (v : Int) : Option Arg :=
  match k with
  | .s => if -128 ≤ v ∧ v ≤ 127 then some (.signed (BitVec.ofInt 8 v)) else none
  | .u => if 0 ≤ v ∧ v ≤ 255 then some (.unsigned (BitVec.ofInt 8 v)) else none
  | .n => if -32768 ≤ v ∧ v ≤ 65535 then some (.imm (BitVec.ofInt 16 v)) else none
  | .r => none
  | .z => none

/-- One argument token against its slot's kind (R67, R68). -/
def parseArg (k : Kind) (tok : List Char) : Except AsmError Arg :=
  if isRegisterToken tok then
    match registerNumber tok with
    | none => .error .register
    | some n => if k = .r then .ok (.reg n) else .error .argument
  else
    match signedNumber tok with
    | none => .error .argument
    | some v =>
      match numberArg k v with
      | some a => .ok a
      | none => .error .argument

/-- The argument tokens against the kinds of their slots (R66 to R68). R70 puts REGISTER and ARGUMENT in one step and
does not say which of several bad arguments decides the line's error: here the leftmost (DESIGN CHOICE, log
entry 12). -/
def parseArgs : List Kind → List (List Char) → Except AsmError (List Arg)
  | [], [] => .ok []
  | k :: ks, t :: ts =>
    match parseArg k t with
    | .error e => .error e
    | .ok a =>
      match parseArgs ks ts with
      | .error e => .error e
      | .ok as => .ok (a :: as)
  | _, _ => .error .argument

/-- The kinds of a shape that take an argument (R66). -/
def argKinds (m : Mnemonic) : List Kind := m.shape.filter (fun k => k ≠ .z)

/-- Every mnemonic, in table order (R53). -/
def allMnemonics : List Mnemonic := opcodeTable.map (fun e => e.mnemonic)

/-- The alias table: the two aliases the source names and those of `ASM_ALIASES` (R65), in this order, which R65 does
not fix (DESIGN CHOICE, log entry 12). -/
def aliasTable (p : AsmParams) : List (List Char × Mnemonic) :=
  ("setn".toList, .loadn) :: ("copy".toList, .mov) :: p.moreAliases

/-- The mnemonic a name resolves to (R65). A mnemonic's own name is tried before the aliases, an order R65 does not fix
(DESIGN CHOICE, log entry 12). -/
def resolveMnemonic (p : AsmParams) (name : List Char) : Option Mnemonic :=
  match allMnemonics.find? (fun m => mnemonicText m = name) with
  | some m => some m
  | none => ((aliasTable p).find? (fun e => e.1 = name)).map (fun e => e.2)

/-- A line cut by its grammar (R63, R64): the line number if there is one, the mnemonic's letters, the argument
tokens. -/
structure ParsedLine where
  number : Option Nat
  name : List Char
  args : List (List Char)
deriving DecidableEq, Repr

/-- The first token of a text and what follows it, tokens being cut by white space. -/
def nextToken (cs : List Char) : List Char × List Char :=
  let body := cs.dropWhile isSpaceChar
  (body.takeWhile (fun c => !isSpaceChar c), body.dropWhile (fun c => !isSpaceChar c))

/-- The grammar of a line whose comment is gone; `none` is a mismatch (R63). The line number is optional (R64). -/
def parseLine (body : List Char) : Option ParsedLine :=
  let first := nextToken body
  let numbered := first.1 ≠ [] && first.1.all isDigitChar
  let second := if numbered then nextToken first.2 else first
  if second.1 ≠ [] && second.1.all isLowerChar then
    some ⟨if numbered then digitsValue 10 0 first.1 else none, second.1, tokensBetween isArgSeparator second.2⟩
  else none

/-- Steps (c) to (f) for a line whose number is right: the mnemonic, the argument count, each argument, the
encoding (R65 to R70). -/
def assembleParsed (p : AsmParams) (l : ParsedLine) : LineOutcome :=
  match resolveMnemonic p l.name with
  | none => .failed .operation
  | some m =>
    if l.args.length ≠ (argKinds m).length then .failed .argument
    else match parseArgs (argKinds m) l.args with
      | .error e => .failed e
      | .ok as =>
        match Instr.ofArgs m as with
        | some i => .coded (encode i)
        | none => .failed .argument

/-- One line, with the count of lines accepted before it: what it assembles to, and whether it is accepted,
which is whether its line number is right (R64, R70). -/
def assembleLine (p : AsmParams) (count : Nat) (line : List Char) : LineOutcome × Bool :=
  let body := stripComment p line
  if body.all isSpaceChar && p.blankAllowed then (.blank, false)
  else match parseLine body with
    | none => (.failed .syntaxError, false)
    | some l =>
      match l.number with
      | none => (.failed .missingLineNumber, false)
      | some n => if n = count then (assembleParsed p l, true) else (.failed .badLineNumber, false)

/-- Every line in order; the assembler never stops at the first error (R70). -/
def assembleLines (p : AsmParams) : Nat → List (List Char) → List LineOutcome
  | _, [] => []
  | count, l :: ls =>
    (assembleLine p count l).1 ::
      assembleLines p (if (assembleLine p count l).2 then count + 1 else count) ls

/-- The words of outcomes that hold no error's placeholder; blank lines give none (R70). -/
def codedWords : List LineOutcome → Option (List Word)
  | [] => some []
  | .blank :: os => codedWords os
  | .coded w :: os => (codedWords os).map (fun ws => w :: ws)
  | .failed _ :: _ => none

/-- Assembling source lines: the image's words, if it is non-empty and free of placeholders (R70). -/
def assemble (p : AsmParams) (source : List (List Char)) : Option (List Word) :=
  match codedWords (assembleLines p 0 source) with
  | some [] => none
  | some ws => some ws
  | none => none

/-- A line of the assembler's listing: a word's image line, or a placeholder that starts with `***` (R70). -/
def outcomeText : LineOutcome → List Char
  | .blank => []
  | .coded w => imageLine w
  | .failed .syntaxError => "*** SYNTAX".toList
  | .failed .missingLineNumber => "*** MISSING_LINE_NUMBER".toList
  | .failed .badLineNumber => "*** BAD_LINE_NUMBER".toList
  | .failed .operation => "*** OPERATION".toList
  | .failed .argument => "*** ARGUMENT".toList
  | .failed .register => "*** REGISTER".toList

/-- What the assembler writes: the image text, and nothing on failure (R70, R72). -/
def assembleText (p : AsmParams) (source : List (List Char)) : Option (List Char) :=
  (assemble p source).map imageText

end Sys2Proof.Machine
end

