-- ==== Sys2Proof/Machine/BitLibrary.lean ====
section
/-! DEFINITION. The bit-arithmetic library over bit strings, most significant bit first
(spec/40_execution_cycle.md R82 to R84). `true` is the character `1`. -/

namespace Sys2Proof.Machine

/-- `uval` of a bit string (R6). -/
def bitsValue (bits : List Bool) : Nat := bits.foldl (fun n b => 2 * n + b.toNat) 0

/-- `bin(n, width)`: the low `width` bits of `n` as a string, padded with leading zeros (R82). -/
def natBits : Nat → Nat → List Bool
  | 0, _ => []
  | w + 1, n => n.testBit w :: natBits w n

/-- `flip`: complements every character (R82). -/
def flipBits (bits : List Bool) : List Bool := bits.map (fun b => !b)

/-- The ripple of R84 over two strings of one length, least significant bit first: the sum bits and the final
carry. -/
def rippleBits : List Bool → List Bool → Bool → List Bool × Bool
  | a :: as, b :: bs, c =>
    let r := rippleBits as bs ((a && b) || (c && (a ^^ b)))
    ((a ^^ b ^^ c) :: r.1, r.2)
  | _, _, c => ([], c)

/-- A string padded with leading zeros to a length (R84). -/
def padBits (len : Nat) (bits : List Bool) : List Bool := List.replicate (len - bits.length) false ++ bits

/-- `addBits(a, b)` (R84): right-aligned ripple addition, grown by one bit only on a final carry. -/
def addBits (a b : List Bool) : List Bool :=
  let len := max a.length b.length
  let r := rippleBits (padBits len a).reverse (padBits len b).reverse false
  if r.2 then true :: r.1.reverse else r.1.reverse

/-- `toTwosComplement(v, width)` (R82); `none` is the range error. -/
def toTwosComplement (v : Int) (width : Nat) : Option (List Bool) :=
  if -(2 ^ (width - 1) : Int) ≤ v ∧ v ≤ 2 ^ (width - 1) - 1 then
    if 0 ≤ v then some (natBits width v.toNat)
    else some (addBits (flipBits (natBits width (-v).toNat)) [true])
  else none

/-- `fromTwosComplement(s)` (R83). -/
def fromTwosComplement (bits : List Bool) : Int :=
  if bits.head? = some true then (bitsValue bits : Int) - 2 ^ bits.length else bitsValue bits

/-- A word as its string of 16 bits, bit 15 first (R5). -/
def wordBits (w : Word) : List Bool := natBits 16 w.toNat

end Sys2Proof.Machine
end

