-- ==== Sys2Proof/Safety.lean ====
section
/-! DEFINITION. The terms the statements use: the invariant of every run, and what an instruction's next state
keeps, writes, or records. -/

namespace Sys2Proof.Machine

/-! ### The invariant -/

/-- What holds of a machine between two steps. -/
structure State.Inv (s : State) : Prop where
  /-- The memory is in canonical form, every cell below 256 (spec/20_memory.md R31). -/
  memWf : s.mem.wf = true
  /-- `PC` lies in [0, codeSize] (spec/10_state.md R20). -/
  pcInRange : s.pc.toNat ≤ s.codeSize.val
  /-- Register 0 holds 0 (R16). -/
  zeroR0 : s.regs[0] = 0
  /-- Every integer of `OUT` fits in 16 signed bits (R13, R28). -/
  outFits : ∀ v ∈ s.out, fits16 v = true
  /-- A suspended core is running, and has fetched an instruction of the code region (R29, R77). -/
  suspended : s.waiting = true ∨ s.prompting = true → s.status = .running ∧ 1 ≤ s.pc.toNat
  /-- The core waits at one point at a time (R144). -/
  oneWait : ¬(s.waiting = true ∧ s.prompting = true)
  /-- What waits for input is a `read` (R29). -/
  waitingReads : s.waiting = true → ∃ rX, decode s.iword = .instr (.read rX)
  /-- The debugger waits for a command at PAUSED (R133). -/
  promptPaused : s.prompting = true → s.dbg = .paused
  /-- A terminated debugger has ended the run (R134). -/
  terminatedEnded : s.dbg = .terminated → ∃ f, s.status = .fault f
  /-- A FAULT(code) status has its record (R25). -/
  faultRecorded : ∀ f, s.status = .fault f → ∃ r, s.faultRecord = some r ∧ r.code = f
  /-- Without a fault the record is empty (R25, R30). -/
  recordEmpty : (∀ f, s.status ≠ .fault f) → s.faultRecord = none

/-! ### Frames -/

/-- Every register reads as before. -/
def RegsKept (s t : State) : Prop := ∀ r, t.reg r = s.reg r

/-- Every register reads as before, but for `rd`, which reads as `v` unless it is r0, which reads 0. -/
def RegWritten (rd : RegNo) (v : Int) (s t : State) : Prop :=
  ∀ r, t.x r = if r = rd ∧ r ≠ 0 then v else s.x r

/-- Every word of memory reads as before. -/
def MemKept (s t : State) : Prop := ∀ a, t.mem.read a = s.mem.read a

/-- Every word of memory reads as before, but for address `ea`, which reads as `w`. -/
def MemWritten (ea : Nat) (w : Word) (s t : State) : Prop :=
  t.mem.read ea = w ∧ ∀ a, a ≠ ea → t.mem.read a = s.mem.read a

/-- What belongs to the run and no completed instruction changes: `codeSize`, the fault record, the waits, the
parameters and the draws; the debugger is as after an instruction (spec/60_exceptions.md R133). -/
def RunKept (s t : State) : Prop :=
  t.codeSize = s.codeSize ∧ t.faultRecord = s.faultRecord ∧ t.waiting = s.waiting ∧ t.prompting = s.prompting ∧
    t.params = s.params ∧ t.freeDraws = s.freeDraws ∧ t.dbg = s.dbg.afterInstruction

/-- The frame of an instruction that writes register `rd` with `v`, and nothing else. -/
def OnlyRegister (rd : RegNo) (v : Int) (s t : State) : Prop :=
  RegWritten rd v s t ∧ MemKept s t ∧ t.pc = s.pc ∧ t.status = s.status ∧ t.out = s.out ∧ t.host = s.host ∧
    RunKept s t

/-- The frame of an instruction that stores `w` to address `ea`, and nothing else. -/
def OnlyMemory (ea : Nat) (w : Word) (s t : State) : Prop :=
  MemWritten ea w s t ∧ RegsKept s t ∧ t.pc = s.pc ∧ t.status = s.status ∧ t.out = s.out ∧ t.host = s.host ∧
    RunKept s t

/-- The frame of an instruction that sets `PC` to `p`, and nothing else. -/
def OnlyPc (p : Word) (s t : State) : Prop :=
  t.pc = p ∧ RegsKept s t ∧ MemKept s t ∧ t.status = s.status ∧ t.out = s.out ∧ t.host = s.host ∧ RunKept s t

/-- A fault taken by the instruction being executed: the status, the record, and everything else as before the
instruction (spec/10_state.md R25, spec/60_exceptions.md R122). -/
def FaultTaken (f : RunFault) (info : FaultInfo) (s t : State) : Prop :=
  t.status = .fault f ∧ t.faultRecord = some ⟨f, s.pc - 1, s.mem.read (s.pc - 1).toNat, info⟩ ∧
    RegsKept s t ∧ MemKept s t ∧ t.pc = s.pc ∧ t.out = s.out ∧ t.codeSize = s.codeSize ∧ t.params = s.params ∧
    t.dbg = s.dbg ∧ t.freeDraws = s.freeDraws ∧ t.waiting = false ∧ t.prompting = false

/-- A fault taken before any fetch: `FAULT_PC` is `PC`, and nothing is said of `FAULT_WORD` (R25). -/
def FaultTakenUnfetched (f : RunFault) (s t : State) : Prop :=
  t.status = .fault f ∧ (∃ w, t.faultRecord = some ⟨f, s.pc, w, .none⟩) ∧
    RegsKept s t ∧ MemKept s t ∧ t.pc = s.pc ∧ t.out = s.out ∧ t.codeSize = s.codeSize ∧ t.params = s.params ∧
    t.dbg = s.dbg

/-- Two states that agree on everything but the debugger. -/
def SameButDebugger (s t : State) : Prop := t = { s with dbg := t.dbg }

/-- The effect of an instruction that writes register `rX` with the exact integer `v`
(spec/40_execution_cycle.md R79): a value that fits is written and nothing else changes; one that does not is
INTEGER_OVERFLOW, but for a write to r0 that is not checked, which is discarded. -/
def ExactResult (i : Instr) (s : State) (rX : RegNo) (v : Int) : Prop :=
  ((-32768 ≤ v ∧ v ≤ 32767) ∨ (rX = 0 ∧ s.params.checkOvfR0 = false) →
    ∃ t, exec i s = .next t ∧ OnlyRegister rX v s t) ∧
  (¬(-32768 ≤ v ∧ v ≤ 32767) ∧ (rX ≠ 0 ∨ s.params.checkOvfR0 = true) →
    ∃ t, exec i s = .next t ∧ FaultTaken .integerOverflow .none s t)

/-- The faults an instruction's own rule can raise (spec/60_exceptions.md R119, the column 'raised by'). -/
def faultCauses : Instr → List RunFault
  | .jump _ | .call _ _ | .jumpi _ | .jeqz _ _ | .jnez _ _ | .jgtz _ _ | .jltz _ _ => [.invalidJumpTarget]
  | .load _ _ | .store _ _ | .loadi _ _ | .storei _ _ => [.invalidMemoryTarget]
  | .div _ _ _ => [.divisionByZero, .integerOverflow]
  | .mod _ _ _ => [.divisionByZero]
  | .addn _ _ | .add _ _ _ | .sub _ _ _ | .neg _ _ | .mul _ _ _ => [.integerOverflow]
  | .data _ => [.invalidOpcode]
  | .read _ => [.endOfInput, .interrupted]
  | .halt | .write _ | .loadn _ _ | .nop | .mov _ _ => []

/-! ### The machine at an instruction boundary -/

/-- A running machine at an instruction boundary: no wait, and no cancellation requested there. -/
def State.AtBoundary (s : State) : Prop :=
  s.status = .running ∧ s.waiting = false ∧ s.prompting = false ∧ s.cancelRequested = false

/-- The paused core's next look at the prompt brings a command that executes the paused instruction
(spec/60_exceptions.md R134). -/
def State.promptExecutes (s : State) : Bool :=
  match s.host.prompt with
  | some .cont :: _ | some .run :: _ | some .other :: _ => true
  | some .quit :: _ | some .dump :: _ | some .print :: _ | some .help :: _ | some .cancel :: _ => false
  | none :: _ | [] => false

/-- The instruction of a word. -/
def instrOf (w : Word) : Option Instr :=
  match decode w with
  | .instr i => some i
  | .untranslatable => none

/-- The instruction whose execute phase the next step runs, if it runs one (spec/40_execution_cycle.md R74): none in
a finished machine, at a cancellation, outside the code region, or at a prompt with no command to execute. -/
def State.executes (s : State) : Option Instr :=
  if s.status ≠ .running then none
  else if s.waiting then instrOf s.iword
  else if s.prompting then if s.promptExecutes then instrOf s.iword else none
  else if s.cancelRequested || !s.fetchOk || (s.dbg.pauses && !s.promptExecutes) then none
  else instrOf (s.iFetch s.pc)

/-- The state in which the instruction at `PC` is executed: `PC = a + 1`, the host's choice at the boundary seen
(spec/40_execution_cycle.md R74, R77). -/
def State.fetched (s : State) : State := s.boundarySeen.afterFetch

/-! ### Stretches of a run -/

/-- An instruction stores to address `a` in state `s`. -/
def StoresTo (a : Int) (i : Instr) (s : State) : Prop := ∃ w, memWrites i s = some (a, w)

/-- A stretch of instructions and of steps, in any order and of any length, none of which stores to address `a`
(spec/20_memory.md R43). -/
inductive NoStoreTo (a : Int) : State → State → Prop
  | refl (s : State) : NoStoreTo a s s
  | instr (s t u : State) (i : Instr) (h : NoStoreTo a s t) (hi : ¬StoresTo a i t) (he : exec i t = .next u) :
      NoStoreTo a s u
  | step (s t u : State) (h : NoStoreTo a s t) (hi : ∀ i, t.executes = some i → ¬StoresTo a i t)
      (he : Machine.step t = .next u) : NoStoreTo a s u

end Sys2Proof.Machine
end

