-- ==== Sys2Proof/Certificates/Slice0/Obligations.lean ====
section
/-! DEFINITION. The statements for the provers. Each docstring names the rule of spec/ it formalises. -/

open Sys2Proof Sys2Proof.Machine

/-! ### The decoder and the encoder -/

/-- Words of spec/95_test_vectors.md section 2.1 decode to the instructions their rows name. The spec marks the
opcode table's bit values as general knowledge (GK2, log entry 8). -/
def Obligations.SampleWordsDecode : Prop :=
  decode 0x0000 = .instr .halt ∧ decode 0x0F03 = .instr (.jumpi 15) ∧ decode 0x0100 = .instr (.data 256) ∧
  decode 0x1FFF = .instr (.loadn 15 (-1)) ∧ decode 0x4211 = .instr (.storei 2 1) ∧
  decode 0x4212 = .instr (.data 16914) ∧ decode 0x6000 = .instr .nop ∧ decode 0x6120 = .instr (.mov 1 2) ∧
  decode 0x6003 = .instr (.add 0 0 3) ∧ decode 0x7102 = .instr (.neg 1 2) ∧ decode 0x7012 = .instr (.sub 0 1 2) ∧
  decode 0xB005 = .instr (.jump 5) ∧ decode 0xB105 = .instr (.call 1 5) ∧ decode 0xFFFF = .instr (.jltz 15 255)

/-- Decode and encode agree on every instruction in its canonical spelling, with every operand at every value
(spec/90_conflicts.md C2). The bit values are the spec's general knowledge (GK2, log entry 8). -/
def Obligations.DecodeEncodeWellFormed : Prop :=
  ∀ i : Instr, i.WellFormed = true → decode (encode i) = .instr i

/-- `encode(decode(w)) = w` for every word, and what is decoded is in its canonical spelling (spec/90_conflicts.md
C2). The bit values are the spec's general knowledge (GK2, log entry 8). -/
def Obligations.EncodeDecodeEveryWord : Prop :=
  ∀ w : Word, ∃ i : Instr, decode w = .instr i ∧ i.WellFormed = true ∧ encode i = w

/-- R50: for every entry the bits fixed by its mask and those of its non-filler fields are disjoint and together
cover all 16 bits; a filler slot lies inside the fixed bits, with match bits 0 there. The spec marks this reading of
the invariant as its decision D25. -/
def Obligations.TableMeetsWidthInvariant : Prop :=
  ∀ e ∈ opcodeTable,
    e.maskBits &&& argumentBits e.mnemonic = 0 ∧ e.maskBits ||| argumentBits e.mnemonic = 0xFFFF ∧
    popcount e.maskBits + argumentWidth e.mnemonic = 16 ∧
    e.maskBits &&& fillerBits e.mnemonic = fillerBits e.mnemonic ∧ e.matchBits &&& fillerBits e.mnemonic = 0

/-- R57: every output of the decoder block, and the tree on the top nibble, for the entry the decoder takes. The spec
marks the block as derived from R53 and R55. -/
def Obligations.DecoderBlockAgreesWithDecoder : Prop :=
  ∀ (w : Word) (i : Instr), decode w = .instr i →
    (decoderPorts w).op.toNat = i.mnemonic.index ∧
    (decoderPorts w).rX = w.extractLsb' 8 4 ∧
    (decoderPorts w).rY = (if i.mnemonic = .neg then w.extractLsb' 0 4 else w.extractLsb' 4 4) ∧
    (decoderPorts w).rZ = w.extractLsb' 0 4 ∧
    (decoderPorts w).simm = (w.extractLsb' 0 8).signExtend 16 ∧
    (decoderPorts w).uimm = (w.extractLsb' 0 8).zeroExtend 16 ∧
    ((decoderPorts w).illegal = true ↔ i.mnemonic = .data) ∧
    decodeTree w = i.mnemonic

/-- R58: in each of the four overlaps the first match is the more specific entry, and both readings have the same
effect. `PC` lies in [0, codeSize] (R20), the invariant's own clause. The spec marks it as derived. -/
def Obligations.SynonymsHaveSameEffect : Prop :=
  ∀ s : State, s.pc.toNat ≤ s.codeSize.val →
    (decode (encode (.add 0 0 0)) = .instr .nop ∧ decode (encode (.mov 0 0)) = .instr .nop ∧
      exec (.add 0 0 0) s = exec .nop s ∧ exec (.mov 0 0) s = exec .nop s) ∧
    (∀ rX rY : RegNo, ¬(rX = 0 ∧ rY = 0) →
      decode (encode (.add rX rY 0)) = .instr (.mov rX rY) ∧ exec (.add rX rY 0) s = exec (.mov rX rY) s) ∧
    (∀ rX rY : RegNo,
      decode (encode (.sub rX 0 rY)) = .instr (.neg rX rY) ∧ exec (.sub rX 0 rY) s = exec (.neg rX rY) s) ∧
    (∀ u : Imm8, decode (encode (.call 0 u)) = .instr (.jump u) ∧ exec (.call 0 u) s = exec (.jump u) s)

/-- R59: the decoder is total, so the UNTRANSLATABLE marker is never produced; kept here, it maps to BAD_INSTRUCTION,
which no step raises. The spec marks the marker's fault as its decision D11 (log entry 11). -/
def Obligations.DecoderIsTotal : Prop :=
  (∀ w : Word, decode w ≠ .untranslatable) ∧
  (∀ (s : State) (go : Instr → State → Result),
    withDecoded s go = afterDecode (decode s.iword) s go ∧
    ∃ t, afterDecode .untranslatable s go = .next t ∧ FaultTaken .badInstruction .none s t) ∧
  (∀ s t : State, step s = .next t → t.status ≠ .fault .badInstruction)

/-- The words that decode as `data` are exactly those R60 lists: top nibble 0000 but for halt, read, write and jumpi,
and top nibble 0100 with a low nibble of 2 to 15. They rest on the table's bit values (GK2, log entry 8). -/
def Obligations.DataWordsAreExactly : Prop :=
  ∀ w : Word, (decode w = .instr (.data w)) ↔
    ((w.toNat / 4096 = 0 ∧ w.toNat ≠ 0 ∧ w.toNat % 256 ≠ 1 ∧ w.toNat % 256 ≠ 2 ∧ w.toNat % 256 ≠ 3) ∨
      (w.toNat / 4096 = 4 ∧ 2 ≤ w.toNat % 16))

/-! ### The register file and the writeback -/

/-- R14: a read of register 0 through any read port yields 0, whatever its storage holds. -/
def Obligations.RegisterZeroReadsZero : Prop :=
  ∀ (s : State) (w : Word) (r : RegNo),
    let t : State := { s with regs := s.regs.set 0 w }
    t.reg 0 = 0 ∧ t.x 0 = 0 ∧ (t.readPorts 0 r).1 = 0 ∧ (t.readPorts r 0).2 = 0

/-- At the end of every instruction that completes register 0 is set back to 0 (R15). A faulting instruction leaves
the registers alone: that is R8 and R122, which the spec marks as its decision D14 (log entry 1). -/
def Obligations.RegisterZeroForcedAtEnd : Prop :=
  ∀ (i : Instr) (s t : State), s.status = .running → exec i s = .next t →
    ((∀ f, t.status ≠ .fault f) → t.waiting = false → t.regs[0] = 0) ∧
    (∀ f, t.status = .fault f → t.regs = s.regs)

/-- R18: an instruction writes no register but the table's, and depends on no register but the table's: with any
other register file that agrees on the registers it reads, everything but the registers comes out the same, and so
does the register it writes. The spec marks the operand order as general knowledge (GK3, GK5, log entry 8). -/
def Obligations.InstructionsReadAndWriteTheirRegisters : Prop :=
  (∀ (i : Instr) (s t : State), exec i s = .next t → ∀ r, regWrites i ≠ some r → t.reg r = s.reg r) ∧
  (∀ (i : Instr) (s t : State) (other : Vector Word 16), s.status = .running → exec i s = .next t →
    (∀ r ∈ regReads i, ({ s with regs := other } : State).reg r = s.reg r) →
    ∃ t', exec i { s with regs := other } = .next t' ∧ { t' with regs := t.regs } = t ∧
      ((∀ f, t.status ≠ .fault f) → t.waiting = false → ∀ r, regWrites i = some r → t'.reg r = t.reg r))

/-- The writeback's range check (R79): an integer outside [-32768, 32767] is INTEGER_OVERFLOW, unless it goes to r0
unchecked; any other is written to its register as its word. The check on r0 is the spec's decision D9, a parameter
here (log entry 3). -/
def Obligations.WritebackChecksRange : Prop :=
  ∀ (s : State) (rd : RegNo) (v : Int),
    ((v < -32768 ∨ v > 32767) ∧ (rd ≠ 0 ∨ s.params.checkOvfR0 = true) →
      ∃ t, writeback s rd v = .next t ∧ FaultTaken .integerOverflow .none s t) ∧
    (¬((v < -32768 ∨ v > 32767) ∧ (rd ≠ 0 ∨ s.params.checkOvfR0 = true)) →
      ∃ t, writeback s rd v = .next t ∧ OnlyRegister rd v s t ∧ (rd ≠ 0 → t.reg rd = word v))

/-! ### The bit library, the adder and the arithmetic units -/

/-- R82: `toTwosComplement` at widths 8 and 16: the range error, the binary of a non-negative integer, and for a
negative one the complement plus one, which has exactly `width` characters. -/
def Obligations.ToTwosComplementPatterns : Prop :=
  ∀ width, width = 8 ∨ width = 16 → ∀ v : Int,
    (v < -2 ^ (width - 1) ∨ 2 ^ (width - 1) - 1 < v → toTwosComplement v width = none) ∧
    (0 ≤ v → v ≤ 2 ^ (width - 1) - 1 → toTwosComplement v width = some (natBits width v.toNat)) ∧
    (-2 ^ (width - 1) ≤ v → v < 0 →
      toTwosComplement v width = some (addBits (flipBits (natBits width (-v).toNat)) [true]) ∧
      toTwosComplement v width = some (natBits width (2 ^ width + v).toNat)) ∧
    (∀ bits, toTwosComplement v width = some bits → bits.length = width)

/-- R83: the value of a bit string, and that `fromTwosComplement` undoes `toTwosComplement` at widths 8 and
16. -/
def Obligations.TwosComplementRoundTrip : Prop :=
  (∀ bits : List Bool, fromTwosComplement (true :: bits) = (bitsValue (true :: bits) : Int) - 2 ^ (bits.length + 1) ∧
    fromTwosComplement (false :: bits) = bitsValue (false :: bits)) ∧
  (∀ width, width = 8 ∨ width = 16 → ∀ v : Int, -2 ^ (width - 1) ≤ v → v ≤ 2 ^ (width - 1) - 1 →
    ∃ bits, toTwosComplement v width = some bits ∧ fromTwosComplement bits = v)

/-- The ripple of R84 adds the values of its strings, and the result is longer than the longer one by one bit only
on a final carry, a leading 1. -/
def Obligations.AddBitsAddsValues : Prop :=
  ∀ a b : List Bool,
    bitsValue (addBits a b) = bitsValue a + bitsValue b ∧
    ((addBits a b).length = max a.length b.length ∨
      ((addBits a b).length = max a.length b.length + 1 ∧ (addBits a b).head? = some true))

/-- With no carry in, `addBits` of two words is the adder's sum, grown by the carry-out when it is 1 (R85). -/
def Obligations.AdderIsAddBits : Prop :=
  ∀ a b : Word,
    addBits (wordBits a) (wordBits b) =
      if (adder16 a b false).cout then true :: wordBits (adder16 a b false).sum
      else wordBits (adder16 a b false).sum

/-- R86: `ovf` is 1 exactly when the exact integer is outside [-32768, 32767]; when it is 0 the sum is that integer;
so the writeback's range check on an adder result is the test of `ovf`, and the value written is `sum`; and the
source's addition law holds on the low 16 bits of `addBits`. The spec marks it as derived from R84. -/
def Obligations.AdderOverflowIsExact : Prop :=
  (∀ (a b : Word) (cin : Bool),
    let e : Int := sval a + sval b + (cin.toNat : Int)
    ((adder16 a b cin).ovf = true ↔ ¬(-32768 ≤ e ∧ e ≤ 32767)) ∧
    ((adder16 a b cin).ovf = false → sval (adder16 a b cin).sum = e) ∧
    ∀ (s : State) (rd : RegNo), writeback s rd e = adderWriteback s rd (adder16 a b cin)) ∧
  (∀ a b : Int, -32768 ≤ a → a ≤ 32767 → -32768 ≤ b → b ≤ 32767 → -32768 ≤ a + b → a + b ≤ 32767 →
    ∃ sa sb, toTwosComplement a 16 = some sa ∧ toTwosComplement b 16 = some sb ∧
      fromTwosComplement ((addBits sa sb).drop ((addBits sa sb).length - 16)) = a + b)

/-- Each adder-based instruction is what the adder block, driven as R87's table says, makes of it, and the table's exact
result is what the block computes. That the range check is the test of `ovf` and the value written is `sum` is R86,
which the spec marks as derived. -/
def Obligations.AdderDrivesArithmetic : Prop :=
  ∀ (s : State) (rX rY rZ : RegNo) (imm : Imm8),
    let exact (o : AdderOut) (e : Int) : Prop :=
      (o.ovf = true ↔ ¬(-32768 ≤ e ∧ e ≤ 32767)) ∧ (o.ovf = false → sval o.sum = e)
    exec (.add rX rY rZ) s = adderWriteback s rX (adder16 (s.reg rY) (s.reg rZ) false) ∧
    exec (.sub rX rY rZ) s = adderWriteback s rX (adder16 (s.reg rY) (~~~(s.reg rZ)) true) ∧
    exec (.neg rX rY) s = adderWriteback s rX (adder16 0x0000 (~~~(s.reg rY)) true) ∧
    exec (.addn rX imm) s = adderWriteback s rX (adder16 (s.reg rX) (imm.signExtend 16) false) ∧
    exact (adderForAdd s rY rZ) (s.x rY + s.x rZ) ∧ exact (adderForSub s rY rZ) (s.x rY - s.x rZ) ∧
    exact (adderForNeg s rY) (-s.x rY) ∧ exact (adderForAddn s rX imm) (s.x rX + imm.toInt) ∧
    s.reg 0 = 0x0000

/-- R89: the divider under both modes, where they agree, and its one out-of-range result. The spec marks the rounding
as its decision D8, a parameter here (log entry 3). -/
def Obligations.DividerLaw : Prop :=
  (∀ (mode : DivMode) (n : Int), divider mode n 0 = none) ∧
  (∀ n d : Int, -32768 ≤ n → n ≤ 32767 → -32768 ≤ d → d ≤ 32767 → d ≠ 0 →
    ∃ qf rf qt rt : Int, divider .floor n d = some ⟨qf, rf⟩ ∧ divider .trunc n d = some ⟨qt, rt⟩ ∧
      n = d * qf + rf ∧ (rf = 0 ∨ (0 < rf ↔ 0 < d)) ∧ |rf| < |d| ∧
      n = d * qt + rt ∧ (rt = 0 ∨ (0 < rt ↔ 0 < n)) ∧ |rt| < |d| ∧
      ((0 ≤ n ∧ 0 < d) ∨ d ∣ n → qf = qt ∧ rf = rt) ∧
      (¬(-32768 ≤ qf ∧ qf ≤ 32767) ↔ n = -32768 ∧ d = -1) ∧
      (¬(-32768 ≤ qt ∧ qt ≤ 32767) ↔ n = -32768 ∧ d = -1) ∧
      (n = -32768 ∧ d = -1 → qf = 32768 ∧ qt = 32768) ∧
      (-32768 ≤ rf ∧ rf ≤ 32767) ∧ (-32768 ≤ rt ∧ rt ≤ 32767))

/-! ### Machine control and console -/

/-- R91: `halt` stops the machine, leaves `PC` at its address plus 1, writes nothing, forces r0, and no further step
is taken. The encoding is the spec's general knowledge (GK2, log entry 8). -/
def Obligations.HaltStopsMachine : Prop :=
  encode .halt = 0x0000 ∧ decode 0x0000 = .instr .halt ∧
  ∀ s : State, ∃ t, exec .halt s = .next t ∧ t.status = .halted ∧ t.pc = s.pc ∧ t.regs[0] = 0 ∧ RegsKept s t ∧
    MemKept s t ∧ t.out = s.out ∧ t.host = s.host ∧ RunKept s t ∧ ∀ u, step t ≠ .next u

/-- R92: `read rX` with each answer of the host: a value is written to rX and consumed, an end of input is
END_OF_INPUT, an abort INTERRUPTED, and with no answer the core waits. Which answer is which fault is the spec's
decision D18, and the host's answers lie in the model's own script (log entries 2 and 13). The encoding is general
knowledge (GK2, log entry 8). -/
def Obligations.ReadTakesHostAnswer : Prop :=
  ∀ (s : State) (rX : RegNo),
    encode (.read rX) = 0x0#4 ++ rX ++ 0x01#8 ∧
    (∀ v rest, s.host.console = some (.value v) :: rest →
      ∃ t, exec (.read rX) s = .next t ∧ RegWritten rX (sval v) s t ∧ MemKept s t ∧ t.pc = s.pc ∧
        t.status = s.status ∧ t.out = s.out ∧ t.host = { s.host with console := rest } ∧ t.waiting = false ∧
        t.codeSize = s.codeSize ∧ t.faultRecord = s.faultRecord ∧ t.prompting = s.prompting ∧
        t.params = s.params ∧ t.freeDraws = s.freeDraws ∧ t.dbg = s.dbg.afterInstruction) ∧
    (∀ rest, s.host.console = some .eof :: rest →
      ∃ t, exec (.read rX) s = .next t ∧ FaultTaken .endOfInput .none s t) ∧
    (∀ rest, s.host.console = some .abort :: rest ∨ s.host.console = some .cancel :: rest →
      ∃ t, exec (.read rX) s = .next t ∧ FaultTaken .interrupted .none s t) ∧
    (∀ rest, s.host.console = none :: rest →
      exec (.read rX) s = .next { s with waiting := true, host := { s.host with console := rest } }) ∧
    (s.host.console = [] → exec (.read rX) s = .next { s with waiting := true })

/-- R93: `write rX` appends rX's value to `OUT`, and the console shows it in signed decimal on a line of its own. The
line's form is the spec's decision D24, and the encoding its general knowledge (GK2, log entry 8). -/
def Obligations.WriteEmitsValue : Prop :=
  ∀ (s : State) (rX : RegNo),
    encode (.write rX) = 0x0#4 ++ rX ++ 0x02#8 ∧
    ∃ t, exec (.write rX) s = .next t ∧ t.out = s.out ++ [s.x rX] ∧
      t.consoleText = s.consoleText ++ decimalInt (s.x rX) ++ ['\n'] ∧
      RegsKept s t ∧ MemKept s t ∧ t.pc = s.pc ∧ t.status = s.status ∧ t.host = s.host ∧ RunKept s t

/-- R94: a `data` word is not executable: it takes INVALID_OPCODE, whose record holds the instruction's address and
word, and writes nothing else. The assembler's `data N` is the word N, and `data 0` is halt's. The spec marks the
fault as its decision D11. -/
def Obligations.DataRaisesInvalidOpcode : Prop :=
  (∀ (n : Word) (s : State), ∃ t, exec (.data n) s = .next t ∧ FaultTaken .invalidOpcode .none s t) ∧
  (∀ n : Word, encode (.data n) = n) ∧ decode (encode (.data 0)) = .instr .halt ∧
  decode 0x0100 = .instr (.data 0x0100)

/-! ### Immediate instructions -/

/-- R95: `loadn rX s` sets rX to the signed constant, and nothing else; the assembler takes `setn` for it. That
no further alias of the same name comes before it is the model's choice (log entry 12). The encoding is the spec's
general knowledge (GK2, log entry 8). -/
def Obligations.LoadnSetsConstant : Prop :=
  (∀ (s : State) (rX : RegNo) (imm : Imm8),
    encode (.loadn rX imm) = 0x1#4 ++ rX ++ imm ∧
    ∃ t, exec (.loadn rX imm) s = .next t ∧ OnlyRegister rX imm.toInt s t) ∧
  ∀ p : AsmParams, resolveMnemonic p "setn".toList = some .loadn

/-- R96: `addn rX s` sets rX to the exact sum, and nothing else, or takes INTEGER_OVERFLOW; on r0 it never faults.
The encoding is the spec's general knowledge (GK2, log entry 8). -/
def Obligations.AddnAddsConstant : Prop :=
  ∀ (s : State) (rX : RegNo) (imm : Imm8),
    encode (.addn rX imm) = 0x5#4 ++ rX ++ imm ∧
    ExactResult (.addn rX imm) s rX (s.x rX + imm.toInt) ∧
    ∃ t, exec (.addn 0 imm) s = .next t ∧ OnlyRegister 0 imm.toInt s t

/-! ### Loads and stores -/

/-- `load` and `loadi` at an address of the data region set rX to the word there, and change nothing else
(R36, R97, R99). -/
def Obligations.LoadsReadMemory : Prop :=
  ∀ (s : State) (rX rY : RegNo) (u : Imm8),
    (s.codeSize.val ≤ u.toNat →
      ∃ t, exec (.load rX u) s = .next t ∧
        OnlyRegister rX (sval (s.mem.read (directAddress u).toNat)) s t ∧ (directAddress u).toNat = u.toNat) ∧
    ((s.codeSize.val : Int) ≤ s.x rY → s.x rY ≤ 255 →
      ∃ t, exec (.loadi rX rY) s = .next t ∧
        OnlyRegister rX (sval (s.mem.read (indirectAddress s rY).toNat)) s t ∧ indirectAddress s rY = s.x rY)

/-- `store` and `storei` to an address of the data region set its word to rX's, and change nothing else: every
other address reads as before (R37, R98, R100). The memory is canonical, the invariant's own clause. -/
def Obligations.StoresWriteMemory : Prop :=
  ∀ (s : State) (rX rY : RegNo) (u : Imm8), s.mem.wf = true →
    (s.codeSize.val ≤ u.toNat →
      ∃ t, exec (.store rX u) s = .next t ∧ OnlyMemory (directAddress u).toNat (s.reg rX) s t ∧
        (directAddress u).toNat = u.toNat) ∧
    ((s.codeSize.val : Int) ≤ s.x rY → s.x rY ≤ 255 →
      ∃ t, exec (.storei rX rY) s = .next t ∧ OnlyMemory (indirectAddress s rY).toNat (s.reg rX) s t ∧
        indirectAddress s rY = s.x rY)

/-- R35: every load and store checks its effective address, and outside [codeSize, 255] it takes
INVALID_MEMORY_TARGET with that address, no access made. -/
def Obligations.InvalidAddressFaults : Prop :=
  ∀ (s : State) (rX rY : RegNo) (u : Imm8),
    (∀ a : Int, validAddress s.codeSize a = true ↔ (s.codeSize.val : Int) ≤ a ∧ a ≤ 255) ∧
    (u.toNat < s.codeSize.val →
      (∃ t, exec (.load rX u) s = .next t ∧ FaultTaken .invalidMemoryTarget (.addr u.toNat) s t) ∧
      (∃ t, exec (.store rX u) s = .next t ∧ FaultTaken .invalidMemoryTarget (.addr u.toNat) s t)) ∧
    (s.x rY < s.codeSize.val ∨ 255 < s.x rY →
      (∃ t, exec (.loadi rX rY) s = .next t ∧ FaultTaken .invalidMemoryTarget (.addr (s.x rY)) s t) ∧
      (∃ t, exec (.storei rX rY) s = .next t ∧ FaultTaken .invalidMemoryTarget (.addr (s.x rY)) s t))

/-- A load returns the value of the most recent store to its address, or the value the address began with if there is
none (R36, R43): once `store` or `storei` has put a word at an address of the data region, any stretch of instructions
and steps that does not store there keeps it, and `load` and `loadi` of that address then complete and bring it back,
whatever registers they use. The memory is canonical, the invariant's own clause. -/
def Obligations.LoadReturnsLastStore : Prop :=
  ∀ (s v : State) (j : Instr) (rZ : RegNo) (a : Int), s.mem.wf = true → validAddress s.codeSize a = true →
    memReads j v = some (rZ, a) →
    (∀ (t : State) (i : Instr) (x : Word), memWrites i s = some (a, x) → exec i s = .next t → NoStoreTo a t v →
      ∃ w, exec j v = .next w ∧ OnlyRegister rZ (sval x) v w) ∧
    (NoStoreTo a s v → ∃ w, exec j v = .next w ∧ OnlyRegister rZ (sval (s.mem.read a.toNat)) v w)

/-! ### Register arithmetic -/

/-- `add`, `sub`, `mul` and `neg` compute their exact integer from the operands' signed values, write it to rX and
nothing else if it fits, and take INTEGER_OVERFLOW if it does not (R101, R102, R103, R106). -/
def Obligations.ArithmeticIsExact : Prop :=
  ∀ (s : State) (rX rY rZ : RegNo),
    ExactResult (.add rX rY rZ) s rX (s.x rY + s.x rZ) ∧
    ExactResult (.sub rX rY rZ) s rX (s.x rY - s.x rZ) ∧
    ExactResult (.mul rX rY rZ) s rX (s.x rY * s.x rZ) ∧
    ExactResult (.neg rX rY) s rX (-s.x rY)

/-- `div` writes the quotient that `DIV_MODE` selects and `mod` the remainder, and nothing else, for a divisor that
is not 0; only -32768 / -1 overflows, and `mod` never does (R104, R105). -/
def Obligations.DivAndModResults : Prop :=
  ∀ (s : State) (rX rY rZ : RegNo), s.x rZ ≠ 0 →
    let q : Int := if s.params.divMode = .floor then (s.x rY).fdiv (s.x rZ) else (s.x rY).tdiv (s.x rZ)
    ExactResult (.div rX rY rZ) s rX q ∧
    (¬(s.x rY = -32768 ∧ s.x rZ = -1) → ∃ t, exec (.div rX rY rZ) s = .next t ∧ OnlyRegister rX q s t) ∧
    ∃ t, exec (.mod rX rY rZ) s = .next t ∧ OnlyRegister rX (s.x rY - s.x rZ * q) s t

/-- A zero divisor is DIVISION_BY_ZERO, whatever the dividend and the destination; r0 is always one
(R104, R105). -/
def Obligations.DivisionByZeroFaults : Prop :=
  ∀ (s : State) (rX rY rZ : RegNo), (rZ = 0 ∨ s.x rZ = 0) →
    (∃ t, exec (.div rX rY rZ) s = .next t ∧ FaultTaken .divisionByZero .none s t) ∧
    (∃ t, exec (.mod rX rY rZ) s = .next t ∧ FaultTaken .divisionByZero .none s t)

/-- `mov rX rY` copies rY to rX and changes nothing else; `nop` changes nothing (R107, R108). -/
def Obligations.MovCopiesAndNopDoesNothing : Prop :=
  ∀ (s : State) (rX rY : RegNo),
    (∃ t, exec (.mov rX rY) s = .next t ∧ OnlyRegister rX (s.x rY) s t) ∧
    (∃ t, exec .nop s = .next t ∧ OnlyPc s.pc s t)

/-! ### Control transfer -/

/-- `jump u` and `jumpi rX` to a target in [0, codeSize) set `PC` to it, and change nothing else (R110, R116). -/
def Obligations.JumpsTransfer : Prop :=
  ∀ (s : State) (rX : RegNo) (u : Imm8),
    (u.toNat < s.codeSize.val → ∃ t, exec (.jump u) s = .next t ∧ OnlyPc (u.zeroExtend 16) s t) ∧
    (0 ≤ s.x rX → s.x rX < s.codeSize.val → ∃ t, exec (.jumpi rX) s = .next t ∧ OnlyPc (s.reg rX) s t)

/-- `call rX u` to a target in [0, codeSize) sets rX to the post-increment return address and `PC` to the target,
and changes nothing else (R111). `PC` lies in [0, codeSize] (R20), the invariant's own clause. -/
def Obligations.CallLinksAndTransfers : Prop :=
  ∀ (s : State) (rX : RegNo) (u : Imm8), s.pc.toNat ≤ s.codeSize.val → u.toNat < s.codeSize.val →
    ∃ t, exec (.call rX u) s = .next t ∧ RegWritten rX s.pc.toNat s t ∧ t.pc = u.zeroExtend 16 ∧ MemKept s t ∧
      t.status = s.status ∧ t.out = s.out ∧ t.host = s.host ∧ RunKept s t

/-- A conditional branch whose condition holds, to a target in [0, codeSize), sets `PC` to it and changes nothing
else (R112 to R115). -/
def Obligations.TakenBranchesTransfer : Prop :=
  ∀ (s : State) (rX : RegNo) (u : Imm8), u.toNat < s.codeSize.val →
    (s.x rX = 0 → ∃ t, exec (.jeqz rX u) s = .next t ∧ OnlyPc (u.zeroExtend 16) s t) ∧
    (s.x rX ≠ 0 → ∃ t, exec (.jnez rX u) s = .next t ∧ OnlyPc (u.zeroExtend 16) s t) ∧
    (s.x rX > 0 → ∃ t, exec (.jgtz rX u) s = .next t ∧ OnlyPc (u.zeroExtend 16) s t) ∧
    (s.x rX < 0 → ∃ t, exec (.jltz rX u) s = .next t ∧ OnlyPc (u.zeroExtend 16) s t)

/-- A conditional branch whose condition fails leaves `PC` at its address plus 1 and changes nothing, if its target
is valid or untaken targets are not checked (R109, R112 to R115). The check of an untaken target is the spec's
decision D10, a parameter here (log entry 3). -/
def Obligations.UntakenBranchesFallThrough : Prop :=
  ∀ (s : State) (rX : RegNo) (u : Imm8), (u.toNat < s.codeSize.val ∨ s.params.checkUntakenTarget = false) →
    (s.x rX ≠ 0 → ∃ t, exec (.jeqz rX u) s = .next t ∧ OnlyPc s.pc s t) ∧
    (s.x rX = 0 → ∃ t, exec (.jnez rX u) s = .next t ∧ OnlyPc s.pc s t) ∧
    (s.x rX ≤ 0 → ∃ t, exec (.jgtz rX u) s = .next t ∧ OnlyPc s.pc s t) ∧
    (0 ≤ s.x rX → ∃ t, exec (.jltz rX u) s = .next t ∧ OnlyPc s.pc s t)

/-- A transfer target outside [0, codeSize) takes INVALID_JUMP_TARGET with that target before anything is written:
for `jump`, `call` and `jumpi` always, for a conditional branch when it is taken, and when it is not only if
`CHECK_UNTAKEN_TARGET` is true (R109). The check of an untaken target is the spec's decision D10, a parameter here
(log entry 3). -/
def Obligations.InvalidTargetFaults : Prop :=
  ∀ (s : State) (rX : RegNo) (u : Imm8),
    let bad (i : Instr) (target : Int) : Prop :=
      ∃ t, exec i s = .next t ∧ FaultTaken .invalidJumpTarget (.target target) s t
    (s.x rX < 0 ∨ (s.codeSize.val : Int) ≤ s.x rX → bad (.jumpi rX) (s.x rX)) ∧
    (s.codeSize.val ≤ u.toNat →
      bad (.jump u) u.toNat ∧ bad (.call rX u) u.toNat ∧
      ((s.x rX = 0 ∨ s.params.checkUntakenTarget = true) → bad (.jeqz rX u) u.toNat) ∧
      ((s.x rX ≠ 0 ∨ s.params.checkUntakenTarget = true) → bad (.jnez rX u) u.toNat) ∧
      ((s.x rX > 0 ∨ s.params.checkUntakenTarget = true) → bad (.jgtz rX u) u.toNat) ∧
      ((s.x rX < 0 ∨ s.params.checkUntakenTarget = true) → bad (.jltz rX u) u.toNat))

/-! ### Faults and the run -/

/-- R122: there is no trap entry. A fault leaves the state as it was before the instruction's writes, with `PC = a +
1`, its record names the instruction, and the state is never resumed; a fault of any step, one taken before a fetch
included, leaves registers, memory and `OUT` as they were. The spec marks it as its decision D14; a fault is a next
state by log entry 1. -/
def Obligations.FaultsArePrecise : Prop :=
  (∀ (i : Instr) (s t : State) (f : RunFault), s.status = .running → exec i s = .next t → t.status = .fault f →
    (∃ info, FaultTaken f info s t) ∧ ∀ u, step t ≠ .next u) ∧
  (∀ (s t : State) (f : RunFault), step s = .next t → t.status = .fault f →
    RegsKept s t ∧ MemKept s t ∧ t.out = s.out ∧ (t.pc = s.pc ∨ t.pc = s.pc + 1) ∧ ∀ u, step t ≠ .next u)

/-- An instruction raises no fault but those R119 gives it in the column 'raised by'. `PC` lies in [0, codeSize]
(R20), the invariant's own clause. Some of the causes are the spec's decisions (D11, D13, D18). -/
def Obligations.FaultsHaveTheirCauses : Prop :=
  ∀ (i : Instr) (s t : State) (f : RunFault), s.status = .running → s.pc.toNat ≤ s.codeSize.val →
    exec i s = .next t → t.status = .fault f → f ∈ faultCauses i

/-- `FAULT_CODE` (R119): the numbers of the nine faults, and the record of every step that faults holds the number of
the status's fault (R25). The spec marks the numbers as its decision D12. -/
def Obligations.FaultCodesAreTheTable : Prop :=
  (RunFault.code .memoryOutOfBounds = 1 ∧ RunFault.code .badInstruction = 2 ∧ RunFault.code .invalidJumpTarget = 3 ∧
    RunFault.code .invalidMemoryTarget = 4 ∧ RunFault.code .divisionByZero = 5 ∧
    RunFault.code .integerOverflow = 6 ∧ RunFault.code .invalidOpcode = 7 ∧ RunFault.code .interrupted = 8 ∧
    RunFault.code .endOfInput = 9) ∧
  ∀ (s t : State) (f : RunFault), step s = .next t → t.status = .fault f →
    ∃ r, t.faultRecord = some r ∧ r.code.code = f.code

/-- R76: with `PC` outside [0, codeSize) at a fetch the run ends with MEMORY_OUT_OF_BOUNDS and `FAULT_PC = PC`; in a
run this is `PC = codeSize` alone. -/
def Obligations.FetchCheckFaults : Prop :=
  ∀ s : State, s.AtBoundary → s.codeSize.val ≤ s.pc.toNat →
    (∃ t, step s = .next t ∧ FaultTakenUnfetched .memoryOutOfBounds s t) ∧ (s.Inv → s.pc.toNat = s.codeSize.val)

/-- R75: a host cancellation ends the run with INTERRUPTED at an instruction boundary, before the fetch check; at a
waiting `read`; and at a debugger prompt, at its first look and at every later one: there before the blocked
instruction has any effect. The spec marks the draws as its decision D18; they lie in the model's own script (log
entry 2). -/
def Obligations.CancellationInterrupts : Prop :=
  (∀ s : State, s.status = .running → s.waiting = false → s.prompting = false → s.cancelRequested = true →
    ∃ t, step s = .next t ∧ FaultTakenUnfetched .interrupted s t) ∧
  (∀ (s : State) (rX : RegNo) (rest : List (Option ReadAnswer)), s.status = .running → s.waiting = true →
    decode s.iword = .instr (.read rX) → s.host.console = some .cancel :: rest →
    ∃ t, step s = .next t ∧ FaultTaken .interrupted .none s t) ∧
  (∀ (s : State) (rest : List (Option PromptAnswer)), s.status = .running → s.waiting = false →
    s.prompting = true → s.host.prompt = some .cancel :: rest →
    ∃ t, step s = .next t ∧ FaultTaken .interrupted .none s t) ∧
  (∀ (s : State) (rest : List (Option PromptAnswer)), s.AtBoundary → s.pc.toNat < s.codeSize.val →
    s.dbg.pauses = true → s.host.prompt = some .cancel :: rest →
    ∃ t, step s = .next t ∧ FaultTaken .interrupted .none { s.fetched with dbg := .paused } t)

/-- R81: a machine with `status` HALTED or FAULT takes no step. -/
def Obligations.FinishedMachineTakesNoStep : Prop :=
  ∀ s : State, s.status ≠ .running → step s = .fault .runEnded ∧ ∀ t, step s ≠ .next t

/-- `status` becomes HALTED when `halt` executes, and at no other instruction (R21, R145). -/
def Obligations.OnlyHaltHalts : Prop :=
  ∀ (i : Instr) (s t : State), s.status = .running → exec i s = .next t → (t.status = .halted ↔ i = .halt)

/-! ### The step, the waits and the debugger -/

/-- A step runs the decoded instruction: at a boundary, with `PC` in the code region and no debugger's pause, the
step is `exec` of the instruction at `PC` in the state after the fetch, whose `PC` is the address plus 1 (R74, R77).
That the boundary's entry of the host's script is consumed is the model's choice (log entry 2). At a waiting `read`
the step is `exec` of that `read` again: the core makes no step there (R29), and this second look at the host is the
model's own cut of the loop (log entry 16). -/
def Obligations.StepRunsDecodedInstruction : Prop :=
  (∀ (s : State) (i : Instr), s.AtBoundary → s.pc.toNat < s.codeSize.val → s.dbg.pauses = false →
    decode (s.mem.read s.pc.toNat) = .instr i →
    step s = exec i s.fetched ∧ s.fetched.pc.toNat = s.pc.toNat + 1 ∧
      s.fetched = { s with pc := s.pc + 1, host := { s.host with boundary := s.host.boundary.tail } }) ∧
  (∀ (s : State) (i : Instr), s.status = .running → s.waiting = true → decode s.iword = .instr i →
    step s = exec i s)

/-- A step runs the execute phase of at most one instruction (R74, R144): of the one `State.executes` names it is
`exec`, in a state with the same registers, memory and `OUT`; and where it names none, registers, memory and `OUT` are
as before. Which looks at the host run no instruction is the model's own cut of the loop (log entries 2 and 16). -/
def Obligations.StepExecutesAtMostOneInstruction : Prop :=
  ∀ s : State,
    (∀ i, s.executes = some i → ∃ p, step s = exec i p ∧ p.regs = s.regs ∧ p.mem = s.mem ∧ p.out = s.out ∧
      p.codeSize = s.codeSize ∧ p.params = s.params ∧ p.host.console = s.host.console ∧ p.status = .running) ∧
    (s.executes = none → ∀ t, step s = .next t → t.regs = s.regs ∧ t.mem = s.mem ∧ t.out = s.out ∧
      t.codeSize = s.codeSize ∧ t.params = s.params ∧ t.host.console = s.host.console)

/-- After decode and before execute the debugger enters PAUSED when it is PAUSED or SINGLE_STEPPING, and there waits
for a command (R133): with none, the instruction has had no effect and only `PC` is the address plus 1 (R74, R77). When
it is RUNNING_TO_COMPLETION it does not pause. After a single-stepped instruction completes it is PAUSED again. That
the wait is a state of the model, which a later step looks at again, and that an empty list is no command are the
model's choices (log entries 2 and 16). -/
def Obligations.DebuggerPausesBeforeExecute : Prop :=
  (∀ s : State, s.AtBoundary → s.pc.toNat < s.codeSize.val → s.dbg = .paused ∨ s.dbg = .singleStepping →
    let p : State := { s.fetched with dbg := .paused, prompting := true }
    step s = step p ∧ (s.host.prompt = [] → step s = .next p)) ∧
  (∀ (s : State) (i : Instr), s.AtBoundary → s.pc.toNat < s.codeSize.val → s.dbg = .runningToCompletion →
    decode (s.mem.read s.pc.toNat) = .instr i → step s = exec i s.fetched) ∧
  (∀ (i : Instr) (s t : State), s.status = .running → s.dbg = .singleStepping → exec i s = .next t →
    (∀ f, t.status ≠ .fault f) → t.waiting = false → t.dbg = .paused)

/-- The commands at PAUSED (R134). `continue` and `run` execute the paused instruction and pause no more; `quit` ends
the run as INTERRUPTED before it executes, which is the spec's decision D29; `dump`, `print` and `help` change nothing;
any other input executes exactly it and returns to PAUSED. That a look takes one entry of the host's script, and that
`dump`, `print` and `help` end a step, are the model's choices (log entries 2 and 16). -/
def Obligations.DebuggerCommands : Prop :=
  ∀ (s : State) (i : Instr) (a : PromptAnswer) (rest : List (Option PromptAnswer)), s.status = .running →
    s.waiting = false → s.prompting = true → s.dbg = .paused → decode s.iword = .instr i →
    s.host.prompt = some a :: rest →
    let p : State := { s with host := { s.host with prompt := rest } }
    (a = .cont ∨ a = .run → step s = exec i { p with dbg := .runningToCompletion, prompting := false }) ∧
    (a = .quit → ∃ t, step s = .next t ∧ FaultTaken .interrupted .none { s with dbg := .terminated } t) ∧
    (a = .dump ∨ a = .print ∨ a = .help → step s = .next p) ∧
    (a = .other → step s = exec i { p with dbg := .singleStepping, prompting := false } ∧
      ∀ t, step s = .next t → (∀ f, t.status ≠ .fault f) → t.waiting = false → t.dbg = .paused)

/-- A wait the host never ends is a run that never ends, not a fault (R144): a waiting `read` with no answer to come
and a paused core with no command to come stay as they are for every number of steps. The host's answers lie in the
model's own script (log entry 2). -/
def Obligations.UnansweredWaitNeverEnds : Prop :=
  ∀ (n : Nat) (s : State) (rX : RegNo), s.status = .running →
    (s.waiting = true → decode s.iword = .instr (.read rX) → s.host.console = [] →
      Host.Core.run Sys2Proof.core n s = .next s) ∧
    (s.waiting = false → s.prompting = true → s.host.prompt = [] → Host.Core.run Sys2Proof.core n s = .next s)

/-- The debugger never changes a register, memory, `PC` or `OUT` (R134): an instruction executed under another state
of the debugger leaves the same state but for the debugger. -/
def Obligations.DebuggerIsTransparent : Prop :=
  ∀ (i : Instr) (s t : State) (d : DebuggerState), exec i s = .next t →
    ∃ t', exec i { s with dbg := d } = .next t' ∧ SameButDebugger t t'

/-! ### Invariants -/

/-- Every step keeps the invariant, from every state that meets it: the memory is canonical, `PC` lies in
[0, codeSize], register 0 holds 0, `OUT` holds 16-bit integers, the waits are a fetched `read` or a PAUSED debugger,
and the fault record is there exactly after a fault (R13, R16, R20, R25, R29, R133). -/
def Obligations.StepKeepsInvariant : Prop := ∀ s t : State, s.Inv → step s = .next t → t.Inv

/-- The state after reset meets the invariant. That it holds zeros and codeSize 0 is the model's choice (log
entries 4 and 5). -/
def Obligations.ResetMeetsInvariant : Prop := State.reset.Inv

/-- The start of a run of any image of 1 to 256 words, with any draws, meets the invariant (R30, R139). -/
def Obligations.LaunchMeetsInvariant : Prop :=
  ∀ (l : Launch) (image : List Word), l.initData.wf = true → 1 ≤ image.length → image.length ≤ 256 →
    (State.launch l image).Inv

/-- The instruction words stay as loaded for the whole run, whatever it does; and a program cannot read its own code
words with `load` or `loadi` either (R46, which the spec marks as derived from R35 and R33). `codeSize` is fixed for the
run (R22). That the parameters of R4 lie in the state and no step changes them is the model's choice (log entry 3). -/
def Obligations.CodeNeverChanges : Prop :=
  (∀ (n : Nat) (s t : State), s.mem.wf = true → Host.Core.run Sys2Proof.core n s = .next t →
    t.codeSize = s.codeSize ∧ t.params = s.params ∧
      ∀ a, a < s.codeSize.val → t.mem.read a = s.mem.read a) ∧
  (∀ (s : State) (rX rY : RegNo) (u : Imm8),
    (u.toNat < s.codeSize.val →
      ∃ t, exec (.load rX u) s = .next t ∧ FaultTaken .invalidMemoryTarget (.addr u.toNat) s t) ∧
    (s.x rY < s.codeSize.val →
      ∃ t, exec (.loadi rX rY) s = .next t ∧ FaultTaken .invalidMemoryTarget (.addr (s.x rY)) s t))

/-- `OUT` only grows, by at most one integer a step, and only by `write` (R28, R93). -/
def Obligations.OutputOnlyGrows : Prop :=
  (∀ s t : State, step s = .next t → ∃ l : List Int, t.out = s.out ++ l ∧ l.length ≤ 1) ∧
  (∀ (i : Instr) (s t : State), exec i s = .next t → t.out ≠ s.out → ∃ rX, i = .write rX)

/-! ### The image, the launch and the assembler -/

/-- The loader reads back every image the writer writes, word for word and in order (R73, R135 to R137). That
the writer ends the last line too with a newline is the model's choice (log entry 19). -/
def Obligations.ImageTextRoundTrip : Prop :=
  ∀ words : List Word, 1 ≤ words.length → words.length ≤ 256 → loadImage (imageText words) = .loaded words

/-- The loader refuses with LOAD_ERROR an image with a character other than `0`, `1`, space and newline, one with no
counted line, one with more than 256 counted lines, and one with a counted line whose bit count is not 16, and accepts
every other, one word for each counted line (R135, R136, R138). An image of exactly 256 words is accepted, and its data
region is empty. The spec marks the line count, the line's width and the verdict's name as its decision D16. The
writer's last newline is the model's choice (log entry 19). -/
def Obligations.LoaderRefusesBadImages : Prop :=
  (∀ text, (∃ c ∈ text, c ∉ ['0', '1', ' ', '\n']) → loadImage text = .loadError) ∧
  (∀ text, (∀ c ∈ text, c ≠ '0' ∧ c ≠ '1') → countedLines text = [] ∧ loadImage text = .loadError) ∧
  (∀ text, 256 < (countedLines text).length → loadImage text = .loadError) ∧
  (∀ text, (∃ line ∈ countedLines text, (line.filter isBitChar).length ≠ 16) → loadImage text = .loadError) ∧
  (∀ text, (∀ c ∈ text, c ∈ ['0', '1', ' ', '\n']) → 1 ≤ (countedLines text).length →
    (countedLines text).length ≤ 256 → (∀ line ∈ countedLines text, (line.filter isBitChar).length = 16) →
    ∃ ws, loadImage text = .loaded ws ∧ ws.length = (countedLines text).length) ∧
  (∀ (words : List Word) (l : Launch), words.length = 256 →
    loadImage (imageText words) = .loaded words ∧
      ∀ a, validAddress (State.launch l words).codeSize a = false)

/-- Each run starts from this state, for every draw of the registers and the data region (R30). `DEBUG` true starts the
debugger PAUSED, false RUNNING_TO_COMPLETION, and `ask` the one the host's answer selects (R132). The spec marks most of
R30's rows as its decisions (D4, D5, D6, D13, D17); that the answer is an argument of the launch is log entry 14. -/
def Obligations.LaunchStartsRun : Prop :=
  ∀ (l : Launch) (image : List Word), l.initData.wf = true → 1 ≤ image.length → image.length ≤ 256 →
    let s := State.launch l image
    s.reg 0 = 0 ∧ (∀ r : RegNo, r ≠ 0 → s.reg r = l.initRegs[r.toNat]) ∧ s.pc = 0 ∧
    (∀ (k : Nat) (h : k < image.length), s.mem.read k = image[k]) ∧
    (∀ a, image.length ≤ a → s.mem.read a = l.initData.read a) ∧
    s.codeSize.val = image.length ∧ s.status = .running ∧ s.faultRecord = none ∧ s.out = [] ∧ s.waiting = false ∧
    (l.debug = .on → s.dbg = .paused) ∧ (l.debug = .off → s.dbg = .runningToCompletion) ∧
    (l.debug = .ask → l.debugAnswer = true → s.dbg = .paused) ∧
    (l.debug = .ask → l.debugAnswer = false → s.dbg = .runningToCompletion)

/-- Disassembly is the assembler's input syntax (spec/92_eei_decisions.md D23): an instruction's text, numbered,
assembles to the instruction's word, whatever the assembler's comments and aliases, if no comment begins at any place of
this line. That it holds for an alias table with a mnemonic's own name in it is the model's choice: a mnemonic's name is
tried before an alias, an order that R65 does not fix (log entry 12). -/
def Obligations.DisassemblyReassembles : Prop :=
  ∀ (p : AsmParams) (i : Instr),
    let line := '0' :: ' ' :: instrText i
    (∀ cs, cs ≠ [] → cs <:+ line → p.commentAt cs = false) → assembleLine p 0 line = (.coded (encode i), true)
end

