-- ==== Sys2Proof/Laws/Memory.lean ====
section
/-! SUPPORT. The laws of the memory: a read after a write, and the canonical form every operation keeps. -/

namespace Sys2Proof.Machine

theorem aboveBound_iff (lo : Option Nat) (b : Nat) : aboveBound lo b = true ↔ ∀ l, lo = some l → l < b := by
  cases lo <;> simp [aboveBound]

@[simp] theorem aboveBound_some (l b : Nat) : aboveBound (some l) b = decide (l < b) := rfl

theorem readCells_of_below {cs : List Cell} {b a : Nat} (h : cellsWf cs (some b) = true) (hab : a ≤ b) :
    readCells cs a = Memory.unlisted := by
  induction cs generalizing b with
  | nil => rfl
  | cons c cs ih =>
    obtain ⟨k, v⟩ := c
    simp only [cellsWf, aboveBound_some, Bool.and_eq_true, decide_eq_true_eq] at h
    obtain ⟨⟨⟨hbk, -⟩, -⟩, ht⟩ := h
    rw [readCells, if_neg (by omega)]
    exact ih ht (by omega)

/-- A lower bound of a canonical list may be lowered. -/
theorem cellsWf_weaken {cs : List Cell} {b : Nat} {lo : Option Nat} (h : cellsWf cs (some b) = true)
    (hlo : ∀ l, lo = some l → l ≤ b) : cellsWf cs lo = true := by
  cases cs with
  | nil => rfl
  | cons c cs =>
    obtain ⟨k, v⟩ := c
    simp only [cellsWf, Bool.and_eq_true, decide_eq_true_eq] at h ⊢
    obtain ⟨⟨⟨hbk, hk⟩, hv⟩, ht⟩ := h
    refine ⟨⟨⟨?_, hk⟩, hv⟩, ht⟩
    exact (aboveBound_iff _ _).2 (fun l hl => lt_of_le_of_lt (hlo l hl) (by simpa using hbk))

theorem readCells_writeCells {cs : List Cell} {lo : Option Nat} (h : cellsWf cs lo = true) (a b : Nat) (v : Word) :
    readCells (writeCells cs a v) b = if b = a then v else readCells cs b := by
  induction cs generalizing lo with
  | nil =>
    by_cases hv : v = Memory.unlisted <;> by_cases hb : b = a <;> simp [writeCells, readCells, hv, hb]
  | cons c cs ih =>
    obtain ⟨k, x⟩ := c
    simp only [cellsWf, Bool.and_eq_true, decide_eq_true_eq] at h
    obtain ⟨-, ht⟩ := h
    rcases lt_trichotomy a k with hak | rfl | hka
    · have habs : readCells ((k, x) :: cs) a = Memory.unlisted := by
        rw [readCells, if_neg (by omega)]
        exact readCells_of_below ht (by omega)
      by_cases hv : v = Memory.unlisted
      · rw [writeCells, if_pos hak, if_pos hv]
        split
        · next hb => rw [hb, habs, hv]
        · rfl
      · rw [writeCells, if_pos hak, if_neg hv, readCells]
    · have habs : readCells cs a = Memory.unlisted := readCells_of_below ht le_rfl
      by_cases hv : v = Memory.unlisted
      · rw [writeCells, if_neg (lt_irrefl _), if_pos rfl, if_pos hv, readCells]
        split
        · next hb => rw [hb, habs, hv]
        · rfl
      · rw [writeCells, if_neg (lt_irrefl _), if_pos rfl, if_neg hv, readCells, readCells]
        split <;> rfl
    · rw [writeCells, if_neg (by omega), if_neg (by omega), readCells, readCells, ih ht]
      by_cases hb : b = k
      · rw [if_pos hb, if_pos hb, if_neg (by omega)]
      · rw [if_neg hb, if_neg hb]

theorem cellsWf_writeCells {cs : List Cell} {lo : Option Nat} (h : cellsWf cs lo = true) {a : Nat} (v : Word)
    (ha : a < 256) (hlo : ∀ l, lo = some l → l < a) : cellsWf (writeCells cs a v) lo = true := by
  have hbound := (aboveBound_iff lo a).2 hlo
  induction cs generalizing lo with
  | nil =>
    by_cases hv : v = Memory.unlisted
    · simp [writeCells, hv, cellsWf]
    · simp [writeCells, hv, cellsWf, ha, hbound]
  | cons c cs ih =>
    obtain ⟨k, x⟩ := c
    have hall := h
    simp only [cellsWf, Bool.and_eq_true, decide_eq_true_eq] at h
    obtain ⟨⟨⟨hk0, hk⟩, hx⟩, ht⟩ := h
    rcases lt_trichotomy a k with hak | rfl | hka
    · by_cases hv : v = Memory.unlisted
      · rw [writeCells, if_pos hak, if_pos hv]; exact hall
      · rw [writeCells, if_pos hak, if_neg hv]
        simp [cellsWf, hbound, ha, hv, hak, hk, hx, ht]
    · by_cases hv : v = Memory.unlisted
      · rw [writeCells, if_neg (lt_irrefl _), if_pos rfl, if_pos hv]
        exact cellsWf_weaken ht (fun l hl => (hlo l hl).le)
      · rw [writeCells, if_neg (lt_irrefl _), if_pos rfl, if_neg hv]
        simp [cellsWf, hbound, ha, hv, ht]
    · rw [writeCells, if_neg (by omega), if_neg (by omega)]
      have := ih ht (lo := some k) (fun l hl => by cases hl; exact hka) (by simpa using hka)
      simp only [cellsWf, Bool.and_eq_true, decide_eq_true_eq]
      exact ⟨⟨⟨hk0, hk⟩, hx⟩, this⟩

/-! ### The laws of `Memory` -/

/-- The empty memory is canonical. -/
theorem Memory.wf_empty : Memory.wf ⟨[]⟩ = true := rfl

/-- A read after a write: the address written reads as the word written, every other reads as before. -/
theorem Memory.read_write {m : Memory} (h : m.wf = true) (a b : Nat) (v : Word) :
    (m.write a v).read b = if b = a then v else m.read b :=
  readCells_writeCells h a b v

/-- The address written reads as the word written. -/
theorem Memory.read_write_same {m : Memory} (h : m.wf = true) (a : Nat) (v : Word) : (m.write a v).read a = v := by
  rw [Memory.read_write h, if_pos rfl]

/-- A write leaves every other address alone. -/
theorem Memory.read_write_other {m : Memory} (h : m.wf = true) {a b : Nat} (v : Word) (hb : b ≠ a) :
    (m.write a v).read b = m.read b := by
  rw [Memory.read_write h, if_neg hb]

/-- A write to an address of the memory keeps the canonical form. -/
theorem Memory.wf_write {m : Memory} (h : m.wf = true) {a : Nat} (v : Word) (ha : a < 256) :
    (m.write a v).wf = true :=
  cellsWf_writeCells h v ha (fun _ hl => by cases hl)

/-- Placing words inside the memory keeps the canonical form. -/
theorem Memory.wf_place {m : Memory} (h : m.wf = true) (a : Nat) (ws : List Word) (hfit : a + ws.length ≤ 256) :
    (m.place a ws).wf = true := by
  induction ws generalizing m a with
  | nil => exact h
  | cons w ws ih =>
    simp only [List.length_cons] at hfit
    exact ih (Memory.wf_write h w (by omega)) (a + 1) (by omega)

/-- Placing words: a placed address reads as its word, every other as before. -/
theorem Memory.read_place {m : Memory} (h : m.wf = true) (a : Nat) (ws : List Word) (hfit : a + ws.length ≤ 256)
    (b : Nat) : (m.place a ws).read b = if a ≤ b then ws.getD (b - a) (m.read b) else m.read b := by
  induction ws generalizing m a with
  | nil => simp [Memory.place]
  | cons w ws ih =>
    simp only [List.length_cons] at hfit
    rw [Memory.place, ih (Memory.wf_write h w (by omega)) (a + 1) (by omega), Memory.read_write h]
    rcases lt_trichotomy b a with hb | rfl | hb
    · rw [if_neg (by omega), if_neg (by omega), if_neg (by omega)]
    · rw [if_neg (by omega), if_pos rfl, if_pos le_rfl, Nat.sub_self]; rfl
    · rw [if_pos (by omega), if_neg (by omega), if_pos (by omega), show b - a = (b - (a + 1)) + 1 by omega]; rfl

/-! ### The load/store controller -/

theorem validAddress_iff (c : Fin 257) (a : Int) :
    validAddress c a = true ↔ (c.val : Int) ≤ a ∧ a ≤ 255 := by
  simp [validAddress]

/-- A load of a valid address reads it. -/
theorem lsu_load {c : Fin 257} {a : Int} (h : validAddress c a = true) (w : Word) (m : Memory) :
    lsu true false a c w m = ⟨some (m.read a.toNat), false, m⟩ := by
  simp [lsu, h]

/-- A store to a valid address writes it. -/
theorem lsu_store {c : Fin 257} {a : Int} (h : validAddress c a = true) (w : Word) (m : Memory) :
    lsu true true a c w m = ⟨none, false, m.write a.toNat w⟩ := by
  simp [lsu, h]

/-- An access of an invalid address is not made. -/
theorem lsu_invalid {c : Fin 257} {a : Int} (h : validAddress c a = false) (wr : Bool) (w : Word) (m : Memory) :
    lsu true wr a c w m = ⟨none, true, m⟩ := by
  simp [lsu, h]

/-- The controller keeps the canonical form. -/
theorem lsu_wf {c : Fin 257} {m : Memory} (h : m.wf = true) (req wr : Bool) (a : Int) (w : Word) :
    (lsu req wr a c w m).mem.wf = true := by
  unfold lsu
  split
  · exact h
  · split
    · exact h
    · next hv =>
      have hv : validAddress c a = true := by simpa using hv
      have hb := (validAddress_iff c a).1 hv
      split
      · exact Memory.wf_write h w (by omega)
      · exact h

end Sys2Proof.Machine
end

