-- ==== Sys2Proof/Laws/State.lean ====
section
/-! SUPPORT. One lemma for each field of each update of the state, so that no proof unfolds a record update. -/

namespace Sys2Proof.Machine

/-! ### `State.raise` -/

@[simp] theorem State.raise_regs (s : State) (f : RunFault) (info : FaultInfo) : (s.raise f info).regs = s.regs := rfl
@[simp] theorem State.raise_pc (s : State) (f : RunFault) (info : FaultInfo) : (s.raise f info).pc = s.pc := rfl
@[simp] theorem State.raise_mem (s : State) (f : RunFault) (info : FaultInfo) : (s.raise f info).mem = s.mem := rfl
@[simp] theorem State.raise_codeSize (s : State) (f : RunFault) (info : FaultInfo) : (s.raise f info).codeSize = s.codeSize := rfl
@[simp] theorem State.raise_status (s : State) (f : RunFault) (info : FaultInfo) : (s.raise f info).status = .fault f := rfl
@[simp] theorem State.raise_faultRecord (s : State) (f : RunFault) (info : FaultInfo) : (s.raise f info).faultRecord = some ⟨f, s.iaddr, s.iword, info⟩ := rfl
@[simp] theorem State.raise_out (s : State) (f : RunFault) (info : FaultInfo) : (s.raise f info).out = s.out := rfl
@[simp] theorem State.raise_waiting (s : State) (f : RunFault) (info : FaultInfo) : (s.raise f info).waiting = false := rfl
@[simp] theorem State.raise_dbg (s : State) (f : RunFault) (info : FaultInfo) : (s.raise f info).dbg = s.dbg := rfl
@[simp] theorem State.raise_prompting (s : State) (f : RunFault) (info : FaultInfo) : (s.raise f info).prompting = false := rfl
@[simp] theorem State.raise_host (s : State) (f : RunFault) (info : FaultInfo) : (s.raise f info).host = s.host := rfl
@[simp] theorem State.raise_params (s : State) (f : RunFault) (info : FaultInfo) : (s.raise f info).params = s.params := rfl
@[simp] theorem State.raise_freeDraws (s : State) (f : RunFault) (info : FaultInfo) : (s.raise f info).freeDraws = s.freeDraws := rfl

/-! ### `State.raiseUnfetched` -/

@[simp] theorem State.raiseUnfetched_regs (s : State) (f : RunFault) : (s.raiseUnfetched f).regs = s.regs := rfl
@[simp] theorem State.raiseUnfetched_pc (s : State) (f : RunFault) : (s.raiseUnfetched f).pc = s.pc := rfl
@[simp] theorem State.raiseUnfetched_mem (s : State) (f : RunFault) : (s.raiseUnfetched f).mem = s.mem := rfl
@[simp] theorem State.raiseUnfetched_codeSize (s : State) (f : RunFault) : (s.raiseUnfetched f).codeSize = s.codeSize := rfl
@[simp] theorem State.raiseUnfetched_status (s : State) (f : RunFault) : (s.raiseUnfetched f).status = .fault f := rfl
@[simp] theorem State.raiseUnfetched_faultRecord (s : State) (f : RunFault) : (s.raiseUnfetched f).faultRecord = some ⟨f, s.pc, Config.unfetchedWord s.freeDraws, .none⟩ := rfl
@[simp] theorem State.raiseUnfetched_out (s : State) (f : RunFault) : (s.raiseUnfetched f).out = s.out := rfl
@[simp] theorem State.raiseUnfetched_waiting (s : State) (f : RunFault) : (s.raiseUnfetched f).waiting = s.waiting := rfl
@[simp] theorem State.raiseUnfetched_dbg (s : State) (f : RunFault) : (s.raiseUnfetched f).dbg = s.dbg := rfl
@[simp] theorem State.raiseUnfetched_prompting (s : State) (f : RunFault) : (s.raiseUnfetched f).prompting = s.prompting := rfl
@[simp] theorem State.raiseUnfetched_host (s : State) (f : RunFault) : (s.raiseUnfetched f).host = s.host := rfl
@[simp] theorem State.raiseUnfetched_params (s : State) (f : RunFault) : (s.raiseUnfetched f).params = s.params := rfl
@[simp] theorem State.raiseUnfetched_freeDraws (s : State) (f : RunFault) : (s.raiseUnfetched f).freeDraws = s.freeDraws + 1 := rfl

/-! ### `State.forceR0` -/

@[simp] theorem State.forceR0_regs (s : State) : (s.forceR0).regs = s.regs.set 0 0 := rfl
@[simp] theorem State.forceR0_pc (s : State) : (s.forceR0).pc = s.pc := rfl
@[simp] theorem State.forceR0_mem (s : State) : (s.forceR0).mem = s.mem := rfl
@[simp] theorem State.forceR0_codeSize (s : State) : (s.forceR0).codeSize = s.codeSize := rfl
@[simp] theorem State.forceR0_status (s : State) : (s.forceR0).status = s.status := rfl
@[simp] theorem State.forceR0_faultRecord (s : State) : (s.forceR0).faultRecord = s.faultRecord := rfl
@[simp] theorem State.forceR0_out (s : State) : (s.forceR0).out = s.out := rfl
@[simp] theorem State.forceR0_waiting (s : State) : (s.forceR0).waiting = s.waiting := rfl
@[simp] theorem State.forceR0_dbg (s : State) : (s.forceR0).dbg = s.dbg := rfl
@[simp] theorem State.forceR0_prompting (s : State) : (s.forceR0).prompting = s.prompting := rfl
@[simp] theorem State.forceR0_host (s : State) : (s.forceR0).host = s.host := rfl
@[simp] theorem State.forceR0_params (s : State) : (s.forceR0).params = s.params := rfl
@[simp] theorem State.forceR0_freeDraws (s : State) : (s.forceR0).freeDraws = s.freeDraws := rfl

/-! ### `State.retire` -/

@[simp] theorem State.retire_regs (s : State) : (s.retire).regs = s.regs.set 0 0 := rfl
@[simp] theorem State.retire_pc (s : State) : (s.retire).pc = s.pc := rfl
@[simp] theorem State.retire_mem (s : State) : (s.retire).mem = s.mem := rfl
@[simp] theorem State.retire_codeSize (s : State) : (s.retire).codeSize = s.codeSize := rfl
@[simp] theorem State.retire_status (s : State) : (s.retire).status = s.status := rfl
@[simp] theorem State.retire_faultRecord (s : State) : (s.retire).faultRecord = s.faultRecord := rfl
@[simp] theorem State.retire_out (s : State) : (s.retire).out = s.out := rfl
@[simp] theorem State.retire_waiting (s : State) : (s.retire).waiting = s.waiting := rfl
@[simp] theorem State.retire_dbg (s : State) : (s.retire).dbg = s.dbg.afterInstruction := rfl
@[simp] theorem State.retire_prompting (s : State) : (s.retire).prompting = s.prompting := rfl
@[simp] theorem State.retire_host (s : State) : (s.retire).host = s.host := rfl
@[simp] theorem State.retire_params (s : State) : (s.retire).params = s.params := rfl
@[simp] theorem State.retire_freeDraws (s : State) : (s.retire).freeDraws = s.freeDraws := rfl

/-! ### `State.output` -/

@[simp] theorem State.output_regs (s : State) (v : Int) : (s.output v).regs = s.regs := rfl
@[simp] theorem State.output_pc (s : State) (v : Int) : (s.output v).pc = s.pc := rfl
@[simp] theorem State.output_mem (s : State) (v : Int) : (s.output v).mem = s.mem := rfl
@[simp] theorem State.output_codeSize (s : State) (v : Int) : (s.output v).codeSize = s.codeSize := rfl
@[simp] theorem State.output_status (s : State) (v : Int) : (s.output v).status = s.status := rfl
@[simp] theorem State.output_faultRecord (s : State) (v : Int) : (s.output v).faultRecord = s.faultRecord := rfl
@[simp] theorem State.output_out (s : State) (v : Int) : (s.output v).out = s.out ++ [v] := rfl
@[simp] theorem State.output_waiting (s : State) (v : Int) : (s.output v).waiting = s.waiting := rfl
@[simp] theorem State.output_dbg (s : State) (v : Int) : (s.output v).dbg = s.dbg := rfl
@[simp] theorem State.output_prompting (s : State) (v : Int) : (s.output v).prompting = s.prompting := rfl
@[simp] theorem State.output_host (s : State) (v : Int) : (s.output v).host = s.host := rfl
@[simp] theorem State.output_params (s : State) (v : Int) : (s.output v).params = s.params := rfl
@[simp] theorem State.output_freeDraws (s : State) (v : Int) : (s.output v).freeDraws = s.freeDraws := rfl

/-! ### `State.afterFetch` -/

@[simp] theorem State.afterFetch_regs (s : State) : (s.afterFetch).regs = s.regs := rfl
@[simp] theorem State.afterFetch_pc (s : State) : (s.afterFetch).pc = s.pc + 1 := rfl
@[simp] theorem State.afterFetch_mem (s : State) : (s.afterFetch).mem = s.mem := rfl
@[simp] theorem State.afterFetch_codeSize (s : State) : (s.afterFetch).codeSize = s.codeSize := rfl
@[simp] theorem State.afterFetch_status (s : State) : (s.afterFetch).status = s.status := rfl
@[simp] theorem State.afterFetch_faultRecord (s : State) : (s.afterFetch).faultRecord = s.faultRecord := rfl
@[simp] theorem State.afterFetch_out (s : State) : (s.afterFetch).out = s.out := rfl
@[simp] theorem State.afterFetch_waiting (s : State) : (s.afterFetch).waiting = s.waiting := rfl
@[simp] theorem State.afterFetch_dbg (s : State) : (s.afterFetch).dbg = s.dbg := rfl
@[simp] theorem State.afterFetch_prompting (s : State) : (s.afterFetch).prompting = s.prompting := rfl
@[simp] theorem State.afterFetch_host (s : State) : (s.afterFetch).host = s.host := rfl
@[simp] theorem State.afterFetch_params (s : State) : (s.afterFetch).params = s.params := rfl
@[simp] theorem State.afterFetch_freeDraws (s : State) : (s.afterFetch).freeDraws = s.freeDraws := rfl

/-! ### `State.boundarySeen` -/

@[simp] theorem State.boundarySeen_regs (s : State) : (s.boundarySeen).regs = s.regs := rfl
@[simp] theorem State.boundarySeen_pc (s : State) : (s.boundarySeen).pc = s.pc := rfl
@[simp] theorem State.boundarySeen_mem (s : State) : (s.boundarySeen).mem = s.mem := rfl
@[simp] theorem State.boundarySeen_codeSize (s : State) : (s.boundarySeen).codeSize = s.codeSize := rfl
@[simp] theorem State.boundarySeen_status (s : State) : (s.boundarySeen).status = s.status := rfl
@[simp] theorem State.boundarySeen_faultRecord (s : State) : (s.boundarySeen).faultRecord = s.faultRecord := rfl
@[simp] theorem State.boundarySeen_out (s : State) : (s.boundarySeen).out = s.out := rfl
@[simp] theorem State.boundarySeen_waiting (s : State) : (s.boundarySeen).waiting = s.waiting := rfl
@[simp] theorem State.boundarySeen_dbg (s : State) : (s.boundarySeen).dbg = s.dbg := rfl
@[simp] theorem State.boundarySeen_prompting (s : State) : (s.boundarySeen).prompting = s.prompting := rfl
@[simp] theorem State.boundarySeen_host (s : State) : (s.boundarySeen).host = { s.host with boundary := s.host.boundary.tail } := rfl
@[simp] theorem State.boundarySeen_params (s : State) : (s.boundarySeen).params = s.params := rfl
@[simp] theorem State.boundarySeen_freeDraws (s : State) : (s.boundarySeen).freeDraws = s.freeDraws := rfl

/-! ### `State.setReg`, which changes the registers alone -/

@[simp] theorem State.setReg_pc (s : State) (i : RegNo) (w : Word) : (s.setReg i w).pc = s.pc := by
  unfold State.setReg; split <;> rfl
@[simp] theorem State.setReg_mem (s : State) (i : RegNo) (w : Word) : (s.setReg i w).mem = s.mem := by
  unfold State.setReg; split <;> rfl
@[simp] theorem State.setReg_codeSize (s : State) (i : RegNo) (w : Word) : (s.setReg i w).codeSize = s.codeSize := by
  unfold State.setReg; split <;> rfl
@[simp] theorem State.setReg_status (s : State) (i : RegNo) (w : Word) : (s.setReg i w).status = s.status := by
  unfold State.setReg; split <;> rfl
@[simp] theorem State.setReg_faultRecord (s : State) (i : RegNo) (w : Word) : (s.setReg i w).faultRecord = s.faultRecord := by
  unfold State.setReg; split <;> rfl
@[simp] theorem State.setReg_out (s : State) (i : RegNo) (w : Word) : (s.setReg i w).out = s.out := by
  unfold State.setReg; split <;> rfl
@[simp] theorem State.setReg_waiting (s : State) (i : RegNo) (w : Word) : (s.setReg i w).waiting = s.waiting := by
  unfold State.setReg; split <;> rfl
@[simp] theorem State.setReg_dbg (s : State) (i : RegNo) (w : Word) : (s.setReg i w).dbg = s.dbg := by
  unfold State.setReg; split <;> rfl
@[simp] theorem State.setReg_prompting (s : State) (i : RegNo) (w : Word) : (s.setReg i w).prompting = s.prompting := by
  unfold State.setReg; split <;> rfl
@[simp] theorem State.setReg_host (s : State) (i : RegNo) (w : Word) : (s.setReg i w).host = s.host := by
  unfold State.setReg; split <;> rfl
@[simp] theorem State.setReg_params (s : State) (i : RegNo) (w : Word) : (s.setReg i w).params = s.params := by
  unfold State.setReg; split <;> rfl
@[simp] theorem State.setReg_freeDraws (s : State) (i : RegNo) (w : Word) : (s.setReg i w).freeDraws = s.freeDraws := by
  unfold State.setReg; split <;> rfl

end Sys2Proof.Machine
end

