-- ==== Sys2Proof/Laws/Ops.lean ====
section
/-! SUPPORT. What each shared operation can do, said once. -/

namespace Sys2Proof.Machine

/-! ### Words and integers -/

theorem fits16_iff (v : Int) : fits16 v = true ↔ -32768 ≤ v ∧ v ≤ 32767 := by
  simp [fits16]

theorem fits16_false_iff (v : Int) : fits16 v = false ↔ ¬(-32768 ≤ v ∧ v ≤ 32767) := by
  rw [← fits16_iff]; simp

/-- Every word's signed reading fits. -/
theorem fits16_sval (w : Word) : fits16 (sval w) = true := by
  rw [fits16_iff]
  unfold sval
  have h1 := BitVec.le_two_mul_toInt (x := w)
  have h2 := BitVec.two_mul_toInt_lt (x := w)
  omega

/-- An integer that fits is the signed reading of its word (spec/00_scope.md R6). -/
theorem sval_word {v : Int} (h : fits16 v = true) : sval (word v) = v := by
  rw [fits16_iff] at h
  rw [sval, word, BitVec.toInt_ofInt]
  exact Int.bmod_eq_of_le (by omega) (by omega)

/-- A word is that of its signed reading. -/
@[simp] theorem word_sval (w : Word) : word (sval w) = w := BitVec.ofInt_toInt

/-! ### The register file -/

@[simp] theorem State.reg_zero (s : State) : s.reg 0 = 0 := rfl

@[simp] theorem State.x_zero (s : State) : s.x 0 = 0 := rfl

/-- The register file's read after a write (spec/10_state.md R14, R17). -/
theorem State.reg_setReg (s : State) (i r : RegNo) (w : Word) :
    (s.setReg i w).reg r = if r = i ∧ r ≠ 0 then w else s.reg r := by
  unfold State.setReg State.reg
  by_cases hr : r = 0#4
  · simp [hr]
  · by_cases hi : i = 0#4
    · subst hi; simp [hr]
    · by_cases h : r = i
      · subst h; simp [hr]
      · have hn : i.toNat ≠ r.toNat := fun he => h (BitVec.eq_of_toNat_eq he.symm)
        simp [hr, hi, h, Vector.getElem_set_ne _ _ hn]

/-- A read port depends on the registers above r0 alone. -/
theorem State.reg_congr {s t : State} (h : ∀ i : Fin 16, i ≠ 0 → t.regs[i] = s.regs[i]) (r : RegNo) :
    t.reg r = s.reg r := by
  unfold State.reg
  split
  · rfl
  · next hr =>
    have hlt : r.toNat < 16 := r.isLt
    refine h ⟨r.toNat, hlt⟩ (fun he => hr (BitVec.eq_of_toNat_eq ?_))
    simpa using congrArg Fin.val he

theorem set_zero_getElem (v : Vector Word 16) (w : Word) (i : Nat) (hi : i < 16) (h0 : i ≠ 0) :
    (v.set 0 w)[i] = v[i] := Vector.getElem_set_ne _ _ (by omega)

/-- Forcing r0 is invisible to the read ports. -/
@[simp] theorem State.reg_retire (s : State) (r : RegNo) : s.retire.reg r = s.reg r :=
  State.reg_congr (fun i hi => by
    simp only [State.retire_regs, Fin.getElem_fin]
    exact set_zero_getElem _ _ _ i.isLt (fun h => hi (Fin.ext h))) r

@[simp] theorem State.reg_raise (s : State) (f : RunFault) (info : FaultInfo) (r : RegNo) :
    (s.raise f info).reg r = s.reg r := rfl

@[simp] theorem State.reg_raiseUnfetched (s : State) (f : RunFault) (r : RegNo) :
    (s.raiseUnfetched f).reg r = s.reg r := rfl

@[simp] theorem State.reg_output (s : State) (v : Int) (r : RegNo) : (s.output v).reg r = s.reg r := rfl

/-- After the end of an instruction register 0 holds 0 (spec/10_state.md R15). -/
@[simp] theorem State.retire_regs_zero (s : State) : s.retire.regs[0] = 0 := by
  simp [State.retire_regs]

/-! ### The writeback -/

/-- Everything the writeback can do (spec/40_execution_cycle.md R79). -/
theorem writebackFrom_cases (s : State) (rd : RegNo) (v : Int) (t : State) :
    (fits16 v = false ∧ (rd ≠ 0 ∨ s.params.checkOvfR0 = true) ∧
      writebackFrom s rd v t = .next (s.raise .integerOverflow .none)) ∨
    ((fits16 v = true ∨ (rd = 0 ∧ s.params.checkOvfR0 = false)) ∧
      writebackFrom s rd v t = .next (t.setReg rd (word v)).retire) := by
  unfold writebackFrom complete
  by_cases h : fits16 v = true
  · simp [h]
  · by_cases hrd : rd = 0
    · by_cases hc : s.params.checkOvfR0 = true <;> simp_all
    · simp_all

/-- A value that fits is written. -/
theorem writebackFrom_fits (s : State) (rd : RegNo) {v : Int} (t : State) (h : fits16 v = true) :
    writebackFrom s rd v t = .next (t.setReg rd (word v)).retire := by
  simp [writebackFrom, complete, h]

theorem writeback_fits (s : State) (rd : RegNo) {v : Int} (h : fits16 v = true) :
    writeback s rd v = .next (s.setReg rd (word v)).retire := writebackFrom_fits s rd s h

/-! ### Loads, stores and transfers -/

/-- Everything a load can do (spec/43_load_store.md R97, R99). -/
theorem loadFrom_cases (s : State) (rd : RegNo) (ea : Int) :
    (validAddress s.codeSize ea = true ∧
      loadFrom s rd ea = .next (s.setReg rd (s.mem.read ea.toNat)).retire) ∨
    (validAddress s.codeSize ea = false ∧
      loadFrom s rd ea = .next (s.raise .invalidMemoryTarget (.addr ea))) := by
  cases h : validAddress s.codeSize ea with
  | true =>
    left
    refine ⟨rfl, ?_⟩
    simp only [loadFrom, lsu_load h]
    rw [writeback_fits s rd (fits16_sval _), word_sval]
  | false =>
    right
    refine ⟨rfl, ?_⟩
    simp only [loadFrom, lsu_invalid h]

/-- Everything a store can do (spec/43_load_store.md R98, R100). -/
theorem storeTo_cases (s : State) (ea : Int) (w : Word) :
    (validAddress s.codeSize ea = true ∧
      storeTo s ea w = .next ({ s with mem := s.mem.write ea.toNat w } : State).retire) ∨
    (validAddress s.codeSize ea = false ∧
      storeTo s ea w = .next (s.raise .invalidMemoryTarget (.addr ea))) := by
  cases h : validAddress s.codeSize ea with
  | true => left; simp [storeTo, lsu_store h, complete]
  | false => right; simp [storeTo, lsu_invalid h]

theorem validTarget_iff (c : Fin 257) (t : Int) : validTarget c t = true ↔ 0 ≤ t ∧ t < c.val := by
  simp [validTarget]

/-- Everything an unconditional transfer can do (spec/45_control_transfer.md R109). -/
theorem transfer_cases (s : State) (t : Int) :
    (validTarget s.codeSize t = true ∧ transfer s t = .next ({ s with pc := word t } : State).retire) ∨
    (validTarget s.codeSize t = false ∧ transfer s t = .next (s.raise .invalidJumpTarget (.target t))) := by
  cases h : validTarget s.codeSize t <;> simp [transfer, transferThen, badTarget, complete, h]

/-- Everything a conditional branch can do (spec/45_control_transfer.md R109). -/
theorem branchIf_cases (s : State) (taken : Bool) (t : Int) :
    (taken = true ∧ validTarget s.codeSize t = true ∧
      branchIf s taken t = .next ({ s with pc := word t } : State).retire) ∨
    ((taken = true ∨ s.params.checkUntakenTarget = true) ∧ validTarget s.codeSize t = false ∧
      branchIf s taken t = .next (s.raise .invalidJumpTarget (.target t))) ∨
    (taken = false ∧ (validTarget s.codeSize t = true ∨ s.params.checkUntakenTarget = false) ∧
      branchIf s taken t = .next s.retire) := by
  cases taken <;> cases h : validTarget s.codeSize t <;> cases hc : s.params.checkUntakenTarget <;>
    simp [branchIf, transfer, transferThen, badTarget, complete, h, hc]

/-- A valid target is the number of its word. -/
theorem word_target_toNat {c : Fin 257} {t : Int} (h : validTarget c t = true) : (word t).toNat = t.toNat := by
  rw [validTarget_iff] at h
  have := c.isLt
  rw [word, BitVec.toNat_ofInt]
  omega

/-! ### The console -/

/-- The state once the console has been looked at. -/
def State.consoleSeen (s : State) (wait : Bool) : State :=
  { s with waiting := wait, host := { s.host with console := s.host.console.tail } }

/-- Everything a `read` can do (spec/41_machine_control_io.md R92). -/
theorem readConsole_cases (s : State) (rd : RegNo) :
    ((∀ e, s.host.console.head? ≠ some (some e)) ∧ readConsole s rd = .next (s.consoleSeen true)) ∨
    (∃ v, s.host.console.head? = some (some (.value v)) ∧
      readConsole s rd = .next ((s.consoleSeen false).setReg rd v).retire) ∨
    (s.host.console.head? = some (some .eof) ∧
      readConsole s rd = .next ((s.consoleSeen false).raise .endOfInput .none)) ∨
    ((s.host.console.head? = some (some .abort) ∨ s.host.console.head? = some (some .cancel)) ∧
      readConsole s rd = .next ((s.consoleSeen false).raise .interrupted .none)) := by
  unfold readConsole State.consoleSeen
  match hc : s.host.console with
  | [] =>
    left
    have hh : ({ s.host with console := [] } : HostScript) = s.host := by rw [← hc]
    exact ⟨by simp, by rw [List.tail_nil, hh]⟩
  | none :: rest => left; exact ⟨by simp, rfl⟩
  | some (.value v) :: rest =>
    right; left
    refine ⟨v, rfl, ?_⟩
    simp only [List.tail_cons]
    rw [writeback_fits _ rd (fits16_sval v), word_sval]
  | some .eof :: rest => right; right; left; exact ⟨rfl, rfl⟩
  | some .abort :: rest => right; right; right; exact ⟨.inl rfl, rfl⟩
  | some .cancel :: rest => right; right; right; exact ⟨.inr rfl, rfl⟩

end Sys2Proof.Machine
end

