-- ==== Sys2Proof/Laws/Exec.lean ====
section
/-! SUPPORT. What an instruction can do, said once for all of them (spec/40_execution_cycle.md R78). -/

namespace Sys2Proof.Machine

/-- The one instruction that can wait for the console. -/
def isRead : Instr → Bool
  | .read _ => true
  | .halt | .nop | .jump _ | .write _ | .jumpi _ | .store _ _ | .storei _ _ | .data _ => false
  | .loadn _ _ | .addn _ _ | .load _ _ | .call _ _ | .loadi _ _ | .mov _ _ | .neg _ _ => false
  | .add _ _ _ | .sub _ _ _ | .mul _ _ _ | .div _ _ _ | .mod _ _ _ => false
  | .jeqz _ _ | .jnez _ _ | .jgtz _ _ | .jltz _ _ => false

/-- The one change an instruction makes before its end, if it completes: the state it is complete in. -/
inductive Commits : Instr → State → State → Prop
  | nothing (i : Instr) (s : State) (hi : isRead i = false) : Commits i s s
  | register (i : Instr) (s : State) (rd : RegNo) (w : Word) (hi : isRead i = false) (hw : regWrites i = some rd) :
      Commits i s (s.setReg rd w)
  | memory (i : Instr) (s : State) (ea : Int) (w : Word) (hi : isRead i = false)
      (hm : memWrites i s = some (ea, w)) (h : validAddress s.codeSize ea = true) : Commits i s { s with mem := s.mem.write ea.toNat w }
  | pc (i : Instr) (s : State) (t : Int) (hi : isRead i = false) (h : validTarget s.codeSize t = true) :
      Commits i s { s with pc := word t }
  | link (s : State) (rd : RegNo) (u : Imm8) (w : Word) (h : validTarget s.codeSize (directTarget u) = true) :
      Commits (.call rd u) s (State.setReg { s with pc := word (directTarget u) } rd w)
  | output (rX : RegNo) (s : State) : Commits (.write rX) s (s.output (s.x rX))
  | halt (s : State) : Commits .halt s { s with status := .halted }
  | input (rX : RegNo) (s : State) (w : Word) : Commits (.read rX) s ((s.consoleSeen false).setReg rX w)

/-- Which faults an instruction may raise, and with which arguments (spec/60_exceptions.md R119). -/
inductive MayRaise : Instr → RunFault → FaultInfo → Prop
  | overflow (i : Instr) : MayRaise i .integerOverflow .none
  | target (i : Instr) (t : Int) : MayRaise i .invalidJumpTarget (.target t)
  | address (i : Instr) (a : Int) : MayRaise i .invalidMemoryTarget (.addr a)
  | zeroDiv (rX rY rZ : RegNo) : MayRaise (.div rX rY rZ) .divisionByZero .none
  | zeroMod (rX rY rZ : RegNo) : MayRaise (.mod rX rY rZ) .divisionByZero .none
  | opcode (n : Word) : MayRaise (.data n) .invalidOpcode .none

/-- Everything an instruction can do: it completes with one change, it raises a fault from the state it began in,
a `read` waits, or a `read` is answered with an end of input or an abort. -/
inductive Ends : Instr → State → State → Prop
  | completes (i : Instr) (s u : State) (h : Commits i s u) : Ends i s u.retire
  | raises (i : Instr) (s : State) (f : RunFault) (info : FaultInfo) (h : MayRaise i f info) :
      Ends i s (s.raise f info)
  | waits (rX : RegNo) (s : State) : Ends (.read rX) s (s.consoleSeen true)
  | inputEnds (rX : RegNo) (s : State) : Ends (.read rX) s ((s.consoleSeen false).raise .endOfInput .none)
  | inputAborts (rX : RegNo) (s : State) : Ends (.read rX) s ((s.consoleSeen false).raise .interrupted .none)

theorem writeback_ends {i : Instr} (s : State) (rd : RegNo) (v : Int) (hi : isRead i = false)
    (hw : regWrites i = some rd) : ∃ t, writeback s rd v = .next t ∧ Ends i s t := by
  rcases writebackFrom_cases s rd v s with ⟨-, -, h⟩ | ⟨-, h⟩
  · exact ⟨_, h, .raises _ _ _ _ (.overflow i)⟩
  · exact ⟨_, h, .completes _ _ _ (.register _ _ _ _ hi hw)⟩

theorem loadFrom_ends {i : Instr} (s : State) (rd : RegNo) (ea : Int) (hi : isRead i = false)
    (hw : regWrites i = some rd) : ∃ t, loadFrom s rd ea = .next t ∧ Ends i s t := by
  rcases loadFrom_cases s rd ea with ⟨-, h⟩ | ⟨-, h⟩
  · exact ⟨_, h, .completes _ _ _ (.register _ _ _ _ hi hw)⟩
  · exact ⟨_, h, .raises _ _ _ _ (.address i ea)⟩

theorem storeTo_ends {i : Instr} (s : State) (ea : Int) (w : Word) (hi : isRead i = false)
    (hm : memWrites i s = some (ea, w)) :
    ∃ t, storeTo s ea w = .next t ∧ Ends i s t := by
  rcases storeTo_cases s ea w with ⟨hv, h⟩ | ⟨-, h⟩
  · exact ⟨_, h, .completes _ _ _ (.memory _ _ _ _ hi hm hv)⟩
  · exact ⟨_, h, .raises _ _ _ _ (.address i ea)⟩

theorem transfer_ends {i : Instr} (s : State) (t : Int) (hi : isRead i = false) :
    ∃ t', transfer s t = .next t' ∧ Ends i s t' := by
  rcases transfer_cases s t with ⟨hv, h⟩ | ⟨-, h⟩
  · exact ⟨_, h, .completes _ _ _ (.pc _ _ _ hi hv)⟩
  · exact ⟨_, h, .raises _ _ _ _ (.target i t)⟩

theorem branchIf_ends {i : Instr} (s : State) (taken : Bool) (t : Int) (hi : isRead i = false) :
    ∃ t', branchIf s taken t = .next t' ∧ Ends i s t' := by
  rcases branchIf_cases s taken t with ⟨-, hv, h⟩ | ⟨-, -, h⟩ | ⟨-, -, h⟩
  · exact ⟨_, h, .completes _ _ _ (.pc _ _ _ hi hv)⟩
  · exact ⟨_, h, .raises _ _ _ _ (.target i t)⟩
  · exact ⟨_, h, .completes _ _ _ (.nothing _ _ hi)⟩

theorem execRead_ends (rX : RegNo) (s : State) : ∃ t, execRead rX s = .next t ∧ Ends (.read rX) s t := by
  rcases readConsole_cases s rX with ⟨-, h⟩ | ⟨v, -, h⟩ | ⟨-, h⟩ | ⟨-, h⟩
  · exact ⟨_, h, .waits _ _⟩
  · exact ⟨_, h, .completes _ _ _ (.input _ _ _)⟩
  · exact ⟨_, h, .inputEnds _ _⟩
  · exact ⟨_, h, .inputAborts _ _⟩

theorem execCall_ends (rX : RegNo) (u : Imm8) (s : State) : ∃ t, execCall rX u s = .next t ∧ Ends (.call rX u) s t := by
  unfold execCall transferThen
  split
  · next hv =>
    rcases writebackFrom_cases s rX (linkValue s) { s with pc := word (directTarget u) } with ⟨-, -, h⟩ | ⟨-, h⟩
    · exact ⟨_, h, .raises _ _ _ _ (.overflow _)⟩
    · exact ⟨_, h, .completes _ _ _ (.link _ _ _ _ hv)⟩
  · exact ⟨_, rfl, .raises _ _ _ _ (.target _ _)⟩

/-- The divider's answer. -/
theorem divider_eq (mode : DivMode) (n d : Int) :
    divider mode n d = if d = 0 then none else some ⟨quotient mode n d, n - d * quotient mode n d⟩ := rfl

/-- Every instruction answers a next state, and it is one of the ends above. -/
theorem exec_ends (i : Instr) (s : State) : ∃ t, exec i s = .next t ∧ Ends i s t := by
  cases i with
  | halt => exact ⟨_, rfl, .completes _ _ _ (.halt _)⟩
  | read rX => exact execRead_ends rX s
  | write rX => exact ⟨_, rfl, .completes _ _ _ (.output _ _)⟩
  | jumpi rX => exact transfer_ends _ _ rfl
  | loadn rX imm => exact writeback_ends _ _ _ rfl rfl
  | load rX u => exact loadFrom_ends _ _ _ rfl rfl
  | store rX u => exact storeTo_ends _ _ _ rfl rfl
  | loadi rX rY => exact loadFrom_ends _ _ _ rfl rfl
  | storei rX rY => exact storeTo_ends _ _ _ rfl rfl
  | addn rX imm => exact writeback_ends _ _ _ rfl rfl
  | nop => exact ⟨_, rfl, .completes _ _ _ (.nothing _ _ rfl)⟩
  | mov rX rY => exact writeback_ends _ _ _ rfl rfl
  | add rX rY rZ => exact writeback_ends _ _ _ rfl rfl
  | neg rX rY => exact writeback_ends _ _ _ rfl rfl
  | sub rX rY rZ => exact writeback_ends _ _ _ rfl rfl
  | mul rX rY rZ => exact writeback_ends _ _ _ rfl rfl
  | div rX rY rZ =>
    simp only [exec, execDiv, divider_eq]
    by_cases hd : s.x rZ = 0
    · rw [if_pos hd]; exact ⟨_, rfl, .raises _ _ _ _ (.zeroDiv _ _ _)⟩
    · rw [if_neg hd]; exact writeback_ends _ _ _ rfl rfl
  | mod rX rY rZ =>
    simp only [exec, execMod, divider_eq]
    by_cases hd : s.x rZ = 0
    · rw [if_pos hd]; exact ⟨_, rfl, .raises _ _ _ _ (.zeroMod _ _ _)⟩
    · rw [if_neg hd]; exact writeback_ends _ _ _ rfl rfl
  | jump u => exact transfer_ends _ _ rfl
  | call rX u => exact execCall_ends rX u s
  | jeqz rX u => exact branchIf_ends _ _ _ rfl
  | jnez rX u => exact branchIf_ends _ _ _ rfl
  | jgtz rX u => exact branchIf_ends _ _ _ rfl
  | jltz rX u => exact branchIf_ends _ _ _ rfl
  | data n => exact ⟨_, rfl, .raises _ _ _ _ (.opcode n)⟩

/-- The ends of an instruction that answered a next state. -/
theorem ends_of_exec {i : Instr} {s t : State} (h : exec i s = .next t) : Ends i s t := by
  obtain ⟨t', ht, he⟩ := exec_ends i s
  rw [h] at ht
  cases ht
  exact he

/-- Distinct valid addresses name distinct words. -/
theorem toNat_ne_of_validAddress {c : Fin 257} {a b : Int} (ha : validAddress c a = true)
    (hb : validAddress c b = true) (h : a ≠ b) : a.toNat ≠ b.toNat := by
  rw [validAddress_iff] at ha hb
  omega

/-- The memory frame of every instruction: the form, `codeSize` and every word of the data region it does not store
to are kept. -/
theorem exec_keeps_word {i : Instr} {s t : State} {a : Int} (hw : s.mem.wf = true)
    (ha : validAddress s.codeSize a = true) (hi : ∀ w, memWrites i s ≠ some (a, w)) (he : exec i s = .next t) :
    t.mem.wf = true ∧ t.codeSize = s.codeSize ∧ t.mem.read a.toNat = s.mem.read a.toNat := by
  cases ends_of_exec he with
  | completes _ _ u h =>
    cases h with
    | memory _ _ ea w _ hm hv =>
      have hne : a ≠ ea := fun h => hi w (by rw [hm, h])
      have hlt : ea.toNat < 256 := by rw [validAddress_iff] at hv; omega
      exact ⟨Memory.wf_write hw w hlt, rfl, Memory.read_write_other hw w (toNat_ne_of_validAddress ha hv hne)⟩
    | register | link | input =>
      simp only [State.setReg, State.retire, State.forceR0, State.consoleSeen]
      split <;> exact ⟨hw, rfl, rfl⟩
    | nothing | pc | output | halt => exact ⟨hw, rfl, rfl⟩
  | raises | waits | inputEnds | inputAborts => exact ⟨hw, rfl, rfl⟩

/-- A load of an address of the data region completes with the word there. -/
theorem exec_of_memReads {j : Instr} {s : State} {rd : RegNo} {a : Int} (h : memReads j s = some (rd, a))
    (hv : validAddress s.codeSize a = true) : exec j s = .next (s.setReg rd (s.mem.read a.toNat)).retire := by
  have hl : loadFrom s rd a = .next (s.setReg rd (s.mem.read a.toNat)).retire := by
    rcases loadFrom_cases s rd a with ⟨-, h⟩ | ⟨h, -⟩
    · exact h
    · rw [hv] at h; cases h
  cases j <;> simp only [memReads, reduceCtorEq, Option.some.injEq, Prod.mk.injEq] at h
  all_goals obtain ⟨rfl, rfl⟩ := h; exact hl

end Sys2Proof.Machine
end

