-- ==== Sys2Proof/Laws/Cycle.lean ====
section
/-! SUPPORT. What a step can do, said once (spec/40_execution_cycle.md R74, spec/60_exceptions.md R134). -/

namespace Sys2Proof.Machine

/-- The state once the debugger's prompt has been looked at. -/
def State.promptSeen (s : State) : State := { s with host := { s.host with prompt := s.host.prompt.tail } }

theorem State.promptSeen_of_nil {s : State} (h : s.host.prompt = []) : s.promptSeen = s := by
  have hh : ({ s.host with prompt := [] } : HostScript) = s.host := by rw [← h]
  rw [State.promptSeen, h, List.tail_nil, hh]

theorem withDecoded_instr {s : State} {i : Instr} (h : decode s.iword = .instr i) (go : Instr → State → Result) :
    withDecoded s go = go i s := by
  simp only [withDecoded, afterDecode, h]

/-- Everything one look at the debugger's prompt can do. -/
theorem debuggerPrompt_cases (i : Instr) (s : State) :
    ((∀ a, s.host.prompt.head? ≠ some (some a)) ∧ debuggerPrompt i s = .next s.promptSeen) ∨
    ((s.host.prompt.head? = some (some .dump) ∨ s.host.prompt.head? = some (some .print) ∨
        s.host.prompt.head? = some (some .help)) ∧ debuggerPrompt i s = .next s.promptSeen) ∨
    ((s.host.prompt.head? = some (some .cont) ∨ s.host.prompt.head? = some (some .run)) ∧
      debuggerPrompt i s = leavePrompt i s.promptSeen .runningToCompletion) ∨
    (s.host.prompt.head? = some (some .other) ∧
      debuggerPrompt i s = leavePrompt i s.promptSeen .singleStepping) ∨
    (s.host.prompt.head? = some (some .quit) ∧
      debuggerPrompt i s = .next { s.promptSeen.raise .interrupted .none with dbg := .terminated }) ∨
    (s.host.prompt.head? = some (some .cancel) ∧
      debuggerPrompt i s = .next (s.promptSeen.raise .interrupted .none)) := by
  match hc : s.host.prompt with
  | [] =>
    left
    refine ⟨by simp, ?_⟩
    rw [State.promptSeen_of_nil hc]
    simp only [debuggerPrompt, hc]
  | none :: rest =>
    left
    refine ⟨by simp, ?_⟩
    simp only [debuggerPrompt, State.promptSeen, hc, List.tail_cons]
  | some a :: rest => cases a <;> simp [debuggerPrompt, State.promptSeen, hc]

/-- Everything a running step can do, by where the core stands. -/
theorem stepRunning_cases (s : State) :
    (s.waiting = true ∧ stepRunning s = withDecoded s exec) ∨
    (s.waiting = false ∧ s.prompting = true ∧ stepRunning s = withDecoded s debuggerPrompt) ∨
    (s.waiting = false ∧ s.prompting = false ∧ s.cancelRequested = true ∧
      stepRunning s = .next (s.boundarySeen.raiseUnfetched .interrupted)) ∨
    (s.waiting = false ∧ s.prompting = false ∧ s.cancelRequested = false ∧ s.fetchOk = false ∧
      stepRunning s = .next (s.boundarySeen.raiseUnfetched .memoryOutOfBounds)) ∨
    (s.waiting = false ∧ s.prompting = false ∧ s.cancelRequested = false ∧ s.fetchOk = true ∧
      stepRunning s = withDecoded s.boundarySeen.afterFetch pauseOrExecute) := by
  have hf : s.boundarySeen.fetchOk = s.fetchOk := rfl
  cases hw : s.waiting <;> cases hp : s.prompting <;> cases hc : s.cancelRequested <;> cases ho : s.fetchOk <;>
    simp [stepRunning, stepBoundary, hw, hp, hc, ho, hf]

/-- A running machine's step. -/
theorem step_of_running {s : State} (h : s.status = .running) : step s = stepRunning s := by
  simp only [step, stepMachine, h]

/-- After a fetch, the executing instruction's address and word are those `PC` named. -/
theorem iaddr_afterFetch (s : State) : s.boundarySeen.afterFetch.iaddr = s.pc := by
  simp [State.iaddr]

theorem iword_afterFetch (s : State) : s.boundarySeen.afterFetch.iword = s.iFetch s.pc := by
  simp [State.iword, State.iFetch, iaddr_afterFetch]

end Sys2Proof.Machine
end

