-- ==== Sys2Proof/Laws/Decode.lean ====
section
/-! SUPPORT. Words as four nibbles, and what the table decoder gives each: the lemmas by which a statement about
decoding is proved without running the decoder on every word. -/

namespace Sys2Proof

/-- The word whose nibbles, from the top, are `a`, `b`, `c` and `d`. -/
def wordOfNibbles (a b c d : BitVec 4) : Word := a ++ b ++ c ++ d

/-- The bits of a word given by its nibbles. -/
theorem wordOfNibbles_getLsbD (a b c d : BitVec 4) (i : Nat) :
    (wordOfNibbles a b c d).getLsbD i =
      if i < 4 then d.getLsbD i else if i < 8 then c.getLsbD (i - 4) else if i < 12 then b.getLsbD (i - 8)
      else a.getLsbD (i - 12) := by
  show (((a ++ b : BitVec (4 + 4)) ++ c : BitVec (4 + 4 + 4)) ++ d : BitVec (4 + 4 + 4 + 4)).getLsbD i = _
  simp only [BitVec.getLsbD_append]
  by_cases h1 : i < 4
  · simp [h1]
  · by_cases h2 : i < 8
    · rw [if_neg h1, if_pos (by omega), if_neg h1, if_pos h2]
    · by_cases h3 : i < 12
      · rw [if_neg h1, if_neg (by omega), if_pos (by omega), if_neg h1, if_neg h2, if_pos h3,
          show i - 4 - 4 = i - 8 by omega]
      · rw [if_neg h1, if_neg (by omega), if_neg (by omega), if_neg h1, if_neg h2, if_neg h3,
          show i - 4 - 4 - 4 = i - 12 by omega]

theorem wordOfNibbles_nib3 (a b c d : BitVec 4) : (wordOfNibbles a b c d).extractLsb' 12 4 = a := by
  refine BitVec.eq_of_getLsbD_eq fun i hi => ?_
  rw [BitVec.getLsbD_extractLsb', wordOfNibbles_getLsbD, if_neg (by omega), if_neg (by omega), if_neg (by omega)]
  simp [hi]

theorem wordOfNibbles_nib2 (a b c d : BitVec 4) : (wordOfNibbles a b c d).extractLsb' 8 4 = b := by
  refine BitVec.eq_of_getLsbD_eq fun i hi => ?_
  rw [BitVec.getLsbD_extractLsb', wordOfNibbles_getLsbD, if_neg (by omega), if_neg (by omega), if_pos (by omega)]
  simp [hi]

theorem wordOfNibbles_nib1 (a b c d : BitVec 4) : (wordOfNibbles a b c d).extractLsb' 4 4 = c := by
  refine BitVec.eq_of_getLsbD_eq fun i hi => ?_
  rw [BitVec.getLsbD_extractLsb', wordOfNibbles_getLsbD, if_neg (by omega), if_pos (by omega)]
  simp [hi]

theorem wordOfNibbles_nib0 (a b c d : BitVec 4) : (wordOfNibbles a b c d).extractLsb' 0 4 = d := by
  refine BitVec.eq_of_getLsbD_eq fun i hi => ?_
  rw [BitVec.getLsbD_extractLsb', wordOfNibbles_getLsbD, if_pos (by omega)]
  simp [hi]

theorem wordOfNibbles_byte (a b c d : BitVec 4) : (wordOfNibbles a b c d).extractLsb' 0 8 = c ++ d := by
  refine BitVec.eq_of_getLsbD_eq fun i hi => ?_
  show _ = (c ++ d : BitVec (4 + 4)).getLsbD i
  rw [BitVec.getLsbD_extractLsb', wordOfNibbles_getLsbD, BitVec.getLsbD_append, Nat.zero_add]
  by_cases h : i < 4
  · simp [h, hi]
  · simp [h, hi]

/-- Every word is that of its nibbles. -/
theorem wordOfNibbles_of (w : Word) :
    wordOfNibbles (w.extractLsb' 12 4) (w.extractLsb' 8 4) (w.extractLsb' 4 4) (w.extractLsb' 0 4) = w := by
  refine BitVec.eq_of_getLsbD_eq fun i hi => ?_
  rw [wordOfNibbles_getLsbD]
  simp only [BitVec.getLsbD_extractLsb']
  by_cases h1 : i < 4
  · simp [h1]
  · by_cases h2 : i < 8
    · simp [h1, h2, show i - 4 < 4 by omega, show 4 + (i - 4) = i by omega]
    · by_cases h3 : i < 12
      · simp [h1, h2, h3, show i - 8 < 4 by omega, show 8 + (i - 8) = i by omega]
      · simp [h1, h2, h3, show i - 12 < 4 by omega, show 12 + (i - 12) = i by omega]

theorem wordOfNibbles_inj {a b c d a' b' c' d' : BitVec 4} :
    wordOfNibbles a b c d = wordOfNibbles a' b' c' d' ↔ a = a' ∧ b = b' ∧ c = c' ∧ d = d' := by
  constructor
  · intro h
    refine ⟨?_, ?_, ?_, ?_⟩
    · simpa only [wordOfNibbles_nib3] using congrArg (BitVec.extractLsb' 12 4) h
    · simpa only [wordOfNibbles_nib2] using congrArg (BitVec.extractLsb' 8 4) h
    · simpa only [wordOfNibbles_nib1] using congrArg (BitVec.extractLsb' 4 4) h
    · simpa only [wordOfNibbles_nib0] using congrArg (BitVec.extractLsb' 0 4) h
  · rintro ⟨rfl, rfl, rfl, rfl⟩; rfl

/-- A table entry matches a word nibble by nibble. -/
theorem isMatch_nibbles (k m : Word) (mn : Mnemonic) (a b c d : BitVec 4) :
    OpcodeEntry.isMatch ⟨k, m, mn⟩ (wordOfNibbles a b c d) =
      (decide (a &&& m.extractLsb' 12 4 = k.extractLsb' 12 4) && decide (b &&& m.extractLsb' 8 4 = k.extractLsb' 8 4)
        && decide (c &&& m.extractLsb' 4 4 = k.extractLsb' 4 4)
        && decide (d &&& m.extractLsb' 0 4 = k.extractLsb' 0 4)) := by
  have hand : ∀ a' b' c' d' : BitVec 4, wordOfNibbles a b c d &&& wordOfNibbles a' b' c' d' =
      wordOfNibbles (a &&& a') (b &&& b') (c &&& c') (d &&& d') := by
    intro a' b' c' d'
    refine BitVec.eq_of_getLsbD_eq fun i _ => ?_
    simp only [BitVec.getLsbD_and, wordOfNibbles_getLsbD]
    split
    · rfl
    · split
      · rfl
      · split <;> rfl
  have h : (wordOfNibbles a b c d &&& m = k) ↔ (a &&& m.extractLsb' 12 4 = k.extractLsb' 12 4) ∧
      (b &&& m.extractLsb' 8 4 = k.extractLsb' 8 4) ∧ (c &&& m.extractLsb' 4 4 = k.extractLsb' 4 4) ∧
      (d &&& m.extractLsb' 0 4 = k.extractLsb' 0 4) := by
    rw [← wordOfNibbles_inj, ← hand, wordOfNibbles_of, wordOfNibbles_of]
  unfold OpcodeEntry.isMatch
  rw [Bool.eq_iff_iff]
  simp only [beq_iff_eq, Bool.and_eq_true, decide_eq_true_eq]
  rw [h]
  tauto

/-- The instruction of a word given by its nibbles. -/
def instrOfNibbles (a b c d : BitVec 4) : Instr :=
  match a.toNat with
  | 0 =>
    if b = 0 ∧ c = 0 ∧ d = 0 then .halt
    else if c = 0 ∧ d = 1 then .read b
    else if c = 0 ∧ d = 2 then .write b
    else if c = 0 ∧ d = 3 then .jumpi b
    else .data (wordOfNibbles a b c d)
  | 1 => .loadn b (c ++ d)
  | 2 => .load b (c ++ d)
  | 3 => .store b (c ++ d)
  | 4 => if d = 0 then .loadi b c else if d = 1 then .storei b c else .data (wordOfNibbles a b c d)
  | 5 => .addn b (c ++ d)
  | 6 => if b = 0 ∧ c = 0 ∧ d = 0 then .nop else if d = 0 then .mov b c else .add b c d
  | 7 => if c = 0 then .neg b d else .sub b c d
  | 8 => .mul b c d
  | 9 => .div b c d
  | 10 => .mod b c d
  | 11 => if b = 0 then .jump (c ++ d) else .call b (c ++ d)
  | 12 => .jeqz b (c ++ d)
  | 13 => .jnez b (c ++ d)
  | 14 => .jgtz b (c ++ d)
  | _ => .jltz b (c ++ d)

/-- The sixteen nibbles. -/
theorem nibble_cases (a : BitVec 4) :
    a = 0 ∨ a = 1 ∨ a = 2 ∨ a = 3 ∨ a = 4 ∨ a = 5 ∨ a = 6 ∨ a = 7 ∨ a = 8 ∨ a = 9 ∨ a = 10 ∨ a = 11 ∨ a = 12 ∨
      a = 13 ∨ a = 14 ∨ a = 15 := by
  revert a; decide

theorem and_ones (x : BitVec 4) : x &&& 15#4 = x := by revert x; decide

/-- The decoder's answer, given the first match. -/
theorem decode_of_firstMatch {w : Word} {e : OpcodeEntry} {i : Instr} (h : firstMatch w = some e)
    (hi : Instr.ofArgs e.mnemonic (walkShape w e.mnemonic.shape e.mnemonic.fieldTop) = some i) :
    decode w = .instr i := by
  simp only [decode, h, hi]

/-- The first match of a word, nibble by nibble. -/
theorem firstMatch_wordOfNibbles (a b c d : BitVec 4) :
    (firstMatch (wordOfNibbles a b c d)).map (fun e => e.mnemonic) = some (instrOfNibbles a b c d).mnemonic := by
  unfold firstMatch opcodeTable
  rcases nibble_cases a with h | h | h | h | h | h | h | h | h | h | h | h | h | h | h | h <;> subst h <;>
    simp [List.find?, isMatch_nibbles, and_ones, instrOfNibbles, Instr.mnemonic]
  · by_cases hc : c = 0#4
    · by_cases h0 : d = 0#4
      · by_cases hb : b = 0#4 <;> simp [hb, hc, h0]
      · by_cases h1 : d = 1#4
        · simp [hc, h1]
        · by_cases h2 : d = 2#4
          · simp [hc, h2]
          · by_cases h3 : d = 3#4 <;> simp [hc, h0, h1, h2, h3]
    · simp [hc]
  · by_cases h0 : d = 0#4
    · simp [h0]
    · by_cases h1 : d = 1#4 <;> simp [h0, h1]
  · by_cases h0 : d = 0#4
    · by_cases hb : b = 0#4 <;> by_cases hc : c = 0#4 <;> simp [h0, hb, hc]
    · simp [h0]
  · by_cases hc : c = 0#4 <;> simp [hc]
  · by_cases hb : b = 0#4 <;> simp [hb]

/-- The walk of the matched shape reads the instruction's own operands. -/
theorem ofArgs_wordOfNibbles (a b c d : BitVec 4) :
    let m := (instrOfNibbles a b c d).mnemonic
    Instr.ofArgs m (walkShape (wordOfNibbles a b c d) m.shape m.fieldTop) = some (instrOfNibbles a b c d) := by
  have hw : BitVec.extractLsb' 0 16 (wordOfNibbles a b c d) = wordOfNibbles a b c d := BitVec.extractLsb'_eq_self
  simp only [instrOfNibbles]
  split
  all_goals (repeat' split)
  all_goals
    simp only [Instr.mnemonic, Mnemonic.shape, Mnemonic.fieldTop, walkShape, Instr.ofArgs, Nat.reduceSub,
      wordOfNibbles_nib2, wordOfNibbles_nib1, wordOfNibbles_nib0, wordOfNibbles_byte, hw]

/-- What the table decoder gives a word, nibble by nibble. -/
theorem decode_wordOfNibbles (a b c d : BitVec 4) :
    decode (wordOfNibbles a b c d) = .instr (instrOfNibbles a b c d) := by
  obtain ⟨e, he, hm⟩ := Option.map_eq_some_iff.1 (firstMatch_wordOfNibbles a b c d)
  exact decode_of_firstMatch he (by rw [hm]; exact ofArgs_wordOfNibbles a b c d)

/-- A byte is that of its nibbles. -/
theorem byte_of_nibbles (s : Imm8) : (s.extractLsb' 4 4 ++ s.extractLsb' 0 4 : BitVec (4 + 4)) = s := by
  refine BitVec.eq_of_getLsbD_eq fun i hi => ?_
  rw [BitVec.getLsbD_append, BitVec.getLsbD_extractLsb', BitVec.getLsbD_extractLsb']
  by_cases h : i < 4
  · simp [h]
  · simp [h, show i - 4 < 4 by omega, show 4 + (i - 4) = i by omega]

/-- A format whose last field is a byte, as four nibbles. -/
theorem nibbles_of_byte (a b : BitVec 4) (s : Imm8) :
    (a ++ b ++ s : BitVec (4 + 4 + 8)) = wordOfNibbles a b (s.extractLsb' 4 4) (s.extractLsb' 0 4) := by
  refine BitVec.eq_of_getLsbD_eq fun i hi => ?_
  rw [wordOfNibbles_getLsbD, BitVec.getLsbD_append, BitVec.getLsbD_append, BitVec.getLsbD_extractLsb',
    BitVec.getLsbD_extractLsb']
  by_cases h1 : i < 4
  · simp [h1, show i < 8 by omega]
  · by_cases h2 : i < 8
    · simp [h1, h2, show i - 4 < 4 by omega, show 4 + (i - 4) = i by omega]
    · by_cases h3 : i < 12
      · simp [h1, h2, h3, show i - 8 < 4 by omega]
      · simp [h1, h2, h3, show ¬ i - 8 < 4 by omega, show i - 8 - 4 = i - 12 by omega]

end Sys2Proof
end

