-- ==== Sys2Proof/Laws/PerInstr.lean ====
section
/-! SUPPORT. Facts of every instruction as syntax, one lemma per constructor. -/

namespace Sys2Proof.Laws.TemplateBits

/-- The word of an instruction keeps the template's bits: it matches the table entry of the instruction's own
mnemonic, filler slots and fixed bits included (spec/30_encoding.md R69). -/
def Statement (i : Instr) : Prop := (tableEntry i.mnemonic).isMatch (encode i) = true

/-- A word given by nibbles matches an entry whose masked nibbles are the match's. -/
theorem of_nibbles {i : Instr} (k m : Word) {a b c d : BitVec 4}
    (he : tableEntry i.mnemonic = ⟨k, m, i.mnemonic⟩) (hw : encode i = wordOfNibbles a b c d)
    (h3 : a &&& m.extractLsb' 12 4 = k.extractLsb' 12 4) (h2 : b &&& m.extractLsb' 8 4 = k.extractLsb' 8 4)
    (h1 : c &&& m.extractLsb' 4 4 = k.extractLsb' 4 4) (h0 : d &&& m.extractLsb' 0 4 = k.extractLsb' 0 4) :
    Statement i := by
  unfold Statement
  rw [he, hw, isMatch_nibbles]
  simp [h3, h2, h1, h0]

theorem halt : Statement .halt := by unfold Statement; decide
theorem nop : Statement .nop := by unfold Statement; decide
theorem read (rX : RegNo) : Statement (.read rX) :=
  of_nibbles (a := 0) (b := rX) (c := 0) (d := 1) 0x0001 0xF0FF rfl
    ((nibbles_of_byte 0 rX 0x01#8).trans rfl) rfl (BitVec.and_zero) rfl rfl
theorem write (rX : RegNo) : Statement (.write rX) :=
  of_nibbles (a := 0) (b := rX) (c := 0) (d := 2) 0x0002 0xF0FF rfl
    ((nibbles_of_byte 0 rX 0x02#8).trans rfl) rfl (BitVec.and_zero) rfl rfl
theorem jumpi (rX : RegNo) : Statement (.jumpi rX) :=
  of_nibbles (a := 0) (b := rX) (c := 0) (d := 3) 0x0003 0xF0FF rfl
    ((nibbles_of_byte 0 rX 0x03#8).trans rfl) rfl (BitVec.and_zero) rfl rfl
theorem loadn (rX : RegNo) (s : Imm8) : Statement (.loadn rX s) :=
  of_nibbles 0x1000 0xF000 rfl (nibbles_of_byte 1 rX s) rfl BitVec.and_zero BitVec.and_zero BitVec.and_zero
theorem load (rX : RegNo) (u : Imm8) : Statement (.load rX u) :=
  of_nibbles 0x2000 0xF000 rfl (nibbles_of_byte 2 rX u) rfl BitVec.and_zero BitVec.and_zero BitVec.and_zero
theorem store (rX : RegNo) (u : Imm8) : Statement (.store rX u) :=
  of_nibbles 0x3000 0xF000 rfl (nibbles_of_byte 3 rX u) rfl BitVec.and_zero BitVec.and_zero BitVec.and_zero
theorem loadi (rX rY : RegNo) : Statement (.loadi rX rY) :=
  of_nibbles (a := 4) (b := rX) (c := rY) (d := 0) 0x4000 0xF00F rfl rfl rfl BitVec.and_zero BitVec.and_zero rfl
theorem storei (rX rY : RegNo) : Statement (.storei rX rY) :=
  of_nibbles (a := 4) (b := rX) (c := rY) (d := 1) 0x4001 0xF00F rfl rfl rfl BitVec.and_zero BitVec.and_zero rfl
theorem addn (rX : RegNo) (s : Imm8) : Statement (.addn rX s) :=
  of_nibbles 0x5000 0xF000 rfl (nibbles_of_byte 5 rX s) rfl BitVec.and_zero BitVec.and_zero BitVec.and_zero
theorem mov (rX rY : RegNo) : Statement (.mov rX rY) :=
  of_nibbles (a := 6) (b := rX) (c := rY) (d := 0) 0x6000 0xF00F rfl rfl rfl BitVec.and_zero BitVec.and_zero rfl
theorem add (rX rY rZ : RegNo) : Statement (.add rX rY rZ) :=
  of_nibbles (a := 6) (b := rX) (c := rY) (d := rZ) 0x6000 0xF000 rfl rfl rfl BitVec.and_zero BitVec.and_zero
    BitVec.and_zero
theorem neg (rX rY : RegNo) : Statement (.neg rX rY) :=
  of_nibbles (a := 7) (b := rX) (c := 0) (d := rY) 0x7000 0xF0F0 rfl rfl rfl BitVec.and_zero rfl BitVec.and_zero
theorem sub (rX rY rZ : RegNo) : Statement (.sub rX rY rZ) :=
  of_nibbles (a := 7) (b := rX) (c := rY) (d := rZ) 0x7000 0xF000 rfl rfl rfl BitVec.and_zero BitVec.and_zero
    BitVec.and_zero
theorem mul (rX rY rZ : RegNo) : Statement (.mul rX rY rZ) :=
  of_nibbles (a := 8) (b := rX) (c := rY) (d := rZ) 0x8000 0xF000 rfl rfl rfl BitVec.and_zero BitVec.and_zero
    BitVec.and_zero
theorem div (rX rY rZ : RegNo) : Statement (.div rX rY rZ) :=
  of_nibbles (a := 9) (b := rX) (c := rY) (d := rZ) 0x9000 0xF000 rfl rfl rfl BitVec.and_zero BitVec.and_zero
    BitVec.and_zero
theorem mod (rX rY rZ : RegNo) : Statement (.mod rX rY rZ) :=
  of_nibbles (a := 10) (b := rX) (c := rY) (d := rZ) 0xA000 0xF000 rfl rfl rfl BitVec.and_zero BitVec.and_zero
    BitVec.and_zero
theorem jump (u : Imm8) : Statement (.jump u) :=
  of_nibbles 0xB000 0xFF00 rfl (nibbles_of_byte 11 0 u) rfl rfl BitVec.and_zero BitVec.and_zero
theorem call (rX : RegNo) (u : Imm8) : Statement (.call rX u) :=
  of_nibbles 0xB000 0xF000 rfl (nibbles_of_byte 11 rX u) rfl BitVec.and_zero BitVec.and_zero BitVec.and_zero
theorem jeqz (rX : RegNo) (u : Imm8) : Statement (.jeqz rX u) :=
  of_nibbles 0xC000 0xF000 rfl (nibbles_of_byte 12 rX u) rfl BitVec.and_zero BitVec.and_zero BitVec.and_zero
theorem jnez (rX : RegNo) (u : Imm8) : Statement (.jnez rX u) :=
  of_nibbles 0xD000 0xF000 rfl (nibbles_of_byte 13 rX u) rfl BitVec.and_zero BitVec.and_zero BitVec.and_zero
theorem jgtz (rX : RegNo) (u : Imm8) : Statement (.jgtz rX u) :=
  of_nibbles 0xE000 0xF000 rfl (nibbles_of_byte 14 rX u) rfl BitVec.and_zero BitVec.and_zero BitVec.and_zero
theorem jltz (rX : RegNo) (u : Imm8) : Statement (.jltz rX u) :=
  of_nibbles 0xF000 0xF000 rfl (nibbles_of_byte 15 rX u) rfl BitVec.and_zero BitVec.and_zero BitVec.and_zero
theorem data (n : Word) : Statement (.data n) := by
  unfold Statement OpcodeEntry.isMatch
  rw [show tableEntry (Instr.mnemonic (.data n)) = ⟨0x0000, 0x0000, .data⟩ from rfl]
  simp

end Sys2Proof.Laws.TemplateBits
end

