-- ==== Sys2Proof/Tests/Slice0.lean ====
section
/-! SUPPORT. Tests of the model. Expected results are the vectors of spec/95_test_vectors.md or are worked by hand
from its rules, and each `witness_` theorem gives a concrete case that meets the premises of the statement it
names. -/

namespace Sys2Proof.Tests

open Sys2Proof Sys2Proof.Machine

/-! ### Small states -/

/-- A register file with some registers set. -/
def regFile : List (RegNo × Int) → Vector Word 16
  | [] => Vector.replicate 16 0
  | (r, v) :: rest => (regFile rest).set r.toNat (word v)

/-- A running machine: its code words from address 0, its `PC`, its `codeSize`, some registers and data cells. -/
def machine (code : List Word) (pc : Word) (size : Fin 257) (regs : List (RegNo × Int)) (data : List Cell) : State :=
  { State.reset with
    regs := regFile regs
    pc := pc
    mem := Memory.place ⟨data⟩ 0 code
    codeSize := size }

/-- The next state of an outcome, and the reset state where there is none. -/
def nextOf (o : Result) : State :=
  match o with
  | .next t => t
  | .fault _ => State.reset
  | .refused _ => State.reset

/-- The code and arguments of a recorded fault. -/
def faultOf (s : State) : Option (RunFault × FaultInfo) := s.faultRecord.map (fun r => (r.code, r.info))

/-- Ten words of code, `PC` as in the execute phase of the word at 0. -/
def ten (regs : List (RegNo × Int)) (data : List Cell) : State := machine [] 1 10 regs data

/-- The same with no check of a write to r0 and none of an untaken target. -/
def unchecked (regs : List (RegNo × Int)) : State :=
  { ten regs [] with params := { checkOvfR0 := false, checkUntakenTarget := false } }

/-! ### Well-formed instructions: one ill-formed term for each check -/

theorem test_wellFormed_refuses_mov : Instr.WellFormed (.mov 0 0) = false ∧ Instr.WellFormed (.mov 1 0) = true := by
  decide

theorem test_wellFormed_refuses_add : Instr.WellFormed (.add 1 2 0) = false ∧ Instr.WellFormed (.add 0 0 3) = true := by
  decide

theorem test_wellFormed_refuses_sub : Instr.WellFormed (.sub 4 0 3) = false ∧ Instr.WellFormed (.sub 0 1 0) = true := by
  decide

theorem test_wellFormed_refuses_call : Instr.WellFormed (.call 0 9) = false ∧ Instr.WellFormed (.call 1 9) = true := by
  decide

theorem test_wellFormed_refuses_data :
    Instr.WellFormed (.data 0x0000) = false ∧ Instr.WellFormed (.data 0x0403) = false ∧
      Instr.WellFormed (.data 0x4210) = false ∧ Instr.WellFormed (.data 0x6000) = false ∧
      Instr.WellFormed (.data 0x0100) = true ∧ Instr.WellFormed (.data 0x421F) = true := by decide

/-! ### Decoding: a word written out from the encoding of every table entry (spec/30_encoding.md R52, R53) -/

theorem test_decode_control :
    decode 0b0000000000000000#16 = .instr .halt ∧ decode 0b0000010000000001#16 = .instr (.read 4) ∧
      decode 0b0000001100000010#16 = .instr (.write 3) ∧ decode 0b0000111000000011#16 = .instr (.jumpi 14) ∧
      decode 0b0000000100000000#16 = .instr (.data 256) := by decide

theorem test_decode_immediate :
    decode 0b0001000100000101#16 = .instr (.loadn 1 5) ∧ decode 0b0001000110000000#16 = .instr (.loadn 1 (-128)) ∧
      decode 0b0101000111111111#16 = .instr (.addn 1 (-1)) := by decide

theorem test_decode_memory :
    decode 0b0010001100001010#16 = .instr (.load 3 10) ∧ decode 0b0011001011111111#16 = .instr (.store 2 255) ∧
      decode 0b0100001000010000#16 = .instr (.loadi 2 1) ∧ decode 0b0100001000010001#16 = .instr (.storei 2 1) ∧
      decode 0b0100001000010010#16 = .instr (.data 16914) := by decide

theorem test_decode_arithmetic :
    decode 0b0110000000000000#16 = .instr .nop ∧ decode 0b0110000100100000#16 = .instr (.mov 1 2) ∧
      decode 0b0110001100010010#16 = .instr (.add 3 1 2) ∧ decode 0b0111000100000010#16 = .instr (.neg 1 2) ∧
      decode 0b0111010000010010#16 = .instr (.sub 4 1 2) ∧ decode 0b1000001100010010#16 = .instr (.mul 3 1 2) ∧
      decode 0b1001011000110111#16 = .instr (.div 6 3 7) ∧ decode 0b1010100000110111#16 = .instr (.mod 8 3 7) := by
  decide

theorem test_decode_transfer :
    decode 0b1011000000000101#16 = .instr (.jump 5) ∧ decode 0b1011111000000100#16 = .instr (.call 14 4) ∧
      decode 0b1100000100000110#16 = .instr (.jeqz 1 6) ∧ decode 0b1101000100000000#16 = .instr (.jnez 1 0) ∧
      decode 0b1110001000000011#16 = .instr (.jgtz 2 3) ∧ decode 0b1111111111111111#16 = .instr (.jltz 15 255) := by
  decide

/-- The ports for the words of section 2.1's last paragraph. -/
theorem test_decoder_ports :
    ((decoderPorts 0x7102).op = 13 ∧ (decoderPorts 0x7102).rX = 1 ∧ (decoderPorts 0x7102).rY = 2) ∧
      ((decoderPorts 0x7312).op = 14 ∧ (decoderPorts 0x7312).rX = 3 ∧ (decoderPorts 0x7312).rY = 1) ∧
      (decoderPorts 0x4213).illegal = true := by decide

theorem test_decodeTableWord : decodeTableWord 16 0x6312 = some (.add 3 1 2) := by decide

/-! ### Section 2.5: machine control and the console -/

theorem test_halt_last_word :
    (nextOf (step (machine [0x0000] 0 1 [] []))).status = .halted ∧
      (nextOf (step (machine [0x0000] 0 1 [] []))).pc = 1 := by decide

theorem test_read_takes_value :
    (nextOf (exec (.read 4) { ten [] [] with host := ⟨[], [some (.value 300)], []⟩ })).x 4 = 300 ∧
      (nextOf (exec (.read 0) { ten [] [] with host := ⟨[], [some (.value 7)], []⟩ })).host.console = [] := by decide

theorem test_read_end_of_input :
    faultOf (nextOf (exec (.read 4) { ten [(4, 9)] [] with host := ⟨[], [some .eof], []⟩ })) =
      some (.endOfInput, .none) ∧
    (nextOf (exec (.read 4) { ten [(4, 9)] [] with host := ⟨[], [some .eof], []⟩ })).x 4 = 9 := by decide

theorem test_write_appends :
    (nextOf (exec (.write 3) { ten [(3, -5)] [] with out := [8] })).out = [8, -5] ∧
      (nextOf (exec (.write 3) { ten [(3, -5)] [] with out := [8] })).consoleText = "8\n-5\n".toList := by decide

theorem test_write_r0 : (nextOf (exec (.write 0) { ten [] [] with regs := regFile [(0, 9)] })).out = [0] := by decide

theorem test_data_faults :
    (nextOf (step (machine [0x4213] 0 1 [] []))).faultRecord = some ⟨.invalidOpcode, 0, 0x4213, .none⟩ := by decide

theorem test_data_code : RunFault.code .invalidOpcode = 7 ∧ RunFault.code .endOfInput = 9 := by decide

/-! ### Section 2.6: immediates -/

theorem test_loadn_signed : (nextOf (exec (.loadn 1 0x80) (ten [] []))).reg 1 = 0xFF80 := by decide

theorem test_loadn_r0 : (nextOf (exec (.loadn 0 9) (ten [] []))).regs[0] = 0 := by decide

theorem test_addn_sum :
    (nextOf (exec (.addn 1 0xFF) (ten [(1, 4)] []))).x 1 = 3 ∧
      (nextOf (exec (.addn 1 127) (ten [(1, 32640)] []))).x 1 = 32767 := by decide

theorem test_addn_overflow :
    faultOf (nextOf (exec (.addn 1 0x80) (ten [(1, -32700)] []))) = some (.integerOverflow, .none) ∧
      (nextOf (exec (.addn 1 1) (ten [(1, 32767)] []))).x 1 = 32767 := by decide

/-! ### Section 2.7: loads and stores -/

theorem test_load_data : (nextOf (exec (.load 3 10) (ten [] [(10, 0xFFD6)]))).x 3 = -42 := by decide

theorem test_load_code_address :
    faultOf (nextOf (exec (.load 0 9) (ten [] []))) = some (.invalidMemoryTarget, .addr 9) := by decide

theorem test_store_word :
    (nextOf (exec (.store 2 255) (ten [(2, -1)] []))).mem = ⟨[(255, 0xFFFF)]⟩ ∧
      (nextOf (exec (.store 0 20) (ten [] [(20, 7)]))).mem = ⟨[]⟩ := by decide

theorem test_store_code_address :
    faultOf (nextOf (exec (.store 1 10) (machine [] 1 256 [] []))) = some (.invalidMemoryTarget, .addr 10) := by decide

theorem test_loadi_same_register : (nextOf (exec (.loadi 1 1) (ten [(1, 30)] [(30, 7)]))).x 1 = 7 := by decide

theorem test_loadi_bounds :
    faultOf (nextOf (exec (.loadi 3 1) (ten [(1, -1)] []))) = some (.invalidMemoryTarget, .addr (-1)) ∧
      faultOf (nextOf (exec (.loadi 3 1) (ten [(1, 256)] []))) = some (.invalidMemoryTarget, .addr 256) := by decide

theorem test_storei_word :
    (nextOf (exec (.storei 2 1) (ten [(1, 20), (2, -5)] []))).mem.read 20 = 0xFFFB ∧
      (nextOf (exec (.storei 5 5) (ten [(5, 100)] []))).mem.read 100 = 0x0064 := by decide

/-! ### Section 2.8: register arithmetic -/

theorem test_add_overflow :
    faultOf (nextOf (exec (.add 3 1 2) (ten [(1, 32767), (2, 1)] []))) = some (.integerOverflow, .none) ∧
      (nextOf (exec (.add 1 1 1) (ten [(1, 7)] []))).x 1 = 14 := by decide

theorem test_add_to_r0 :
    (nextOf (exec (.add 0 2 2) (ten [(2, 16384)] []))).status = .fault .integerOverflow ∧
      (nextOf (exec (.add 0 2 2) { ten [(2, 16384)] [] with params := { checkOvfR0 := false } })).status = .running := by
  decide

theorem test_sub :
    (nextOf (exec (.sub 4 1 2) (ten [(1, 3), (2, 10)] []))).x 4 = -7 ∧
      (nextOf (exec (.sub 4 1 2) (ten [(2, -32768)] []))).status = .fault .integerOverflow := by decide

theorem test_mul :
    (nextOf (exec (.mul 3 1 2) (ten [(1, -256), (2, 128)] []))).x 3 = -32768 ∧
      (nextOf (exec (.mul 3 1 2) (ten [(1, 256), (2, 128)] []))).status = .fault .integerOverflow := by decide

theorem test_div_modes :
    (nextOf (exec (.div 6 3 7) (ten [(3, -5), (7, 2)] []))).x 6 = -3 ∧
      (nextOf (exec (.div 6 3 7) { ten [(3, -5), (7, 2)] [] with params := { divMode := .trunc } })).x 6 = -2 := by
  decide

theorem test_div_corners :
    (nextOf (exec (.div 6 3 7) (ten [(3, -32768), (7, -1)] []))).status = .fault .integerOverflow ∧
      (nextOf (exec (.div 0 3 0) (ten [(3, 5)] []))).status = .fault .divisionByZero := by decide

theorem test_mod_modes :
    (nextOf (exec (.mod 8 3 7) (ten [(3, -5), (7, 2)] []))).x 8 = 1 ∧
      (nextOf (exec (.mod 8 3 7) { ten [(3, -5), (7, 2)] [] with params := { divMode := .trunc } })).x 8 = -1 := by
  decide

/-- Section 1.2: the source's scenario. -/
theorem test_mod_by_r0 :
    (nextOf (step (machine [0x1205, 0xA120, 0x0000] 1 3 [(2, 5)] []))).faultRecord =
      some ⟨.divisionByZero, 1, 0xA120, .none⟩ := by decide

theorem test_neg :
    (nextOf (exec (.neg 4 3) (ten [(3, 32767)] []))).x 4 = -32767 ∧
      (nextOf (exec (.neg 4 3) (ten [(3, -32768)] []))).status = .fault .integerOverflow := by decide

theorem test_mov : (nextOf (exec (.mov 1 2) (ten [(2, 9)] []))).x 1 = 9 := by decide

theorem test_nop : exec .nop (ten [(3, 7)] []) = .next (ten [(3, 7)] []) := rfl

/-! ### Section 2.9: control transfer -/

theorem test_jump :
    (nextOf (exec (.jump 9) (ten [] []))).pc = 9 ∧
      faultOf (nextOf (exec (.jump 10) (ten [] []))) = some (.invalidJumpTarget, .target 10) := by decide

theorem test_call :
    (nextOf (exec (.call 1 0) (machine [] 10 10 [] []))).x 1 = 10 ∧
      (nextOf (exec (.call 1 0) (machine [] 10 10 [] []))).pc = 0 := by decide

theorem test_call_bad_target : (nextOf (exec (.call 14 12) (ten [(14, 77)] []))).x 14 = 77 := by decide

theorem test_jeqz :
    (nextOf (exec (.jeqz 1 6) (ten [] []))).pc = 6 ∧ (nextOf (exec (.jeqz 1 6) (ten [(1, 1)] []))).pc = 1 := by decide

theorem test_jeqz_untaken_target :
    (nextOf (exec (.jeqz 1 80) (ten [(1, 1)] []))).status = .fault .invalidJumpTarget ∧
      (nextOf (exec (.jeqz 1 80) { ten [(1, 1)] [] with params := { checkUntakenTarget := false } })).status =
        .running := by decide

theorem test_jnez :
    (nextOf (exec (.jnez 1 0) (ten [(1, -3)] []))).pc = 0 ∧ (nextOf (exec (.jnez 0 3) (ten [] []))).pc = 1 := by decide

theorem test_jgtz :
    (nextOf (exec (.jgtz 2 3) (ten [(2, 1)] []))).pc = 3 ∧ (nextOf (exec (.jgtz 2 3) (ten [] []))).pc = 1 ∧
      (nextOf (exec (.jgtz 2 3) (ten [(2, -32768)] []))).pc = 1 := by decide

theorem test_jltz :
    (nextOf (exec (.jltz 2 0) (ten [(2, -1)] []))).pc = 0 ∧ (nextOf (exec (.jltz 2 0) (ten [] []))).pc = 1 := by decide

theorem test_jumpi :
    (nextOf (exec (.jumpi 14) (ten [(14, 2)] []))).pc = 2 ∧
      faultOf (nextOf (exec (.jumpi 14) (ten [(14, -1)] []))) = some (.invalidJumpTarget, .target (-1)) := by decide

/-! ### The step, the loader, the assembler and the arithmetic blocks (sections 2.2 to 2.4, 2.10 to 2.12) -/

/-- The first step after reset runs the word placed where it fetches. -/
theorem test_withFetchWord :
    step (State.reset.withFetchWord 16 0x1105) = exec (.loadn 1 5) (State.reset.withFetchWord 16 0x1105).fetched ∧
      (nextOf (step (State.reset.withFetchWord 16 0x1105))).x 1 = 5 := ⟨rfl, by decide⟩

/-- Falling off the end of the code (P6b). -/
theorem test_fall_off_end :
    (nextOf (step (machine [0x1105, 0x6000] 2 2 [] []))).status = .fault .memoryOutOfBounds ∧
      (nextOf (step (machine [0x1105, 0x6000] 2 2 [] []))).pc = 2 := by decide

/-- Cancellation before the first step. -/
theorem test_cancel_first :
    (nextOf (step { machine [0x1105] 0 1 [] [] with host := ⟨[true], [], []⟩ })).status = .fault .interrupted ∧
      (nextOf (step { machine [0x1105] 0 1 [] [] with host := ⟨[true], [], []⟩ })).x 1 = 0 := by decide

/-- An unrecognised command executes one instruction and pauses again; `quit` executes none. -/
theorem test_debugger :
    (nextOf (step { machine [0x1105] 0 1 [] [] with dbg := .paused, host := ⟨[], [], [some .other]⟩ })).x 1 = 5 ∧
      (nextOf (step { machine [0x1105] 0 1 [] [] with dbg := .paused, host := ⟨[], [], [some .other]⟩ })).dbg =
        .paused ∧
      (nextOf (step { machine [0x1105] 0 1 [] [] with dbg := .paused, host := ⟨[], [], [some .quit]⟩ })).faultRecord =
        some ⟨.interrupted, 0, 0x1105, .none⟩ := by decide

theorem test_load_image_refuses :
    loadImage [] = .loadError ∧ loadImage "0000 0000 0000 0002\n".toList = .loadError ∧
      loadImage "0000 0000 0000 000\n".toList = .loadError ∧
      loadImage "0000 0000 0000 0000 0\n".toList = .loadError ∧ loadImage "\n  \n".toList = .loadError := by decide

theorem test_load_image_accepts :
    loadImage "0000000000000000".toList = .loaded [0] ∧
      loadImage "1000 0000 0000 0001\n\n   \n".toList = .loaded [0x8001] := by decide

/-- The assembler with `#` comments. -/
def asm (line : String) : LineOutcome :=
  (assembleLine ⟨fun cs => cs.head? == some '#', true, []⟩ 0 line.toList).1

theorem test_assemble_words :
    asm "0 loadn r1 -128" = .coded 0x1180 ∧ asm "0 loadn r1 0x10" = .coded 0x1110 ∧
      asm "0 add R1, r2, r3" = .coded 0x6123 ∧ asm "0 neg r1 r2" = .coded 0x7102 ∧
      asm "0 setn r1 5" = .coded 0x1105 ∧ asm "0 copy r1 r2" = .coded 0x6120 ∧ asm "0 data -1" = .coded 0xFFFF := by
  decide

theorem test_assemble_errors :
    asm "0 add r3 r1 r16" = .failed .register ∧ asm "0 add r3 r1" = .failed .argument ∧
      asm "2 halt" = .failed .badLineNumber ∧ asm "0 frobnicate r1" = .failed .operation ∧
      asm "0 loadn r1 128" = .failed .argument ∧ asm "0 jump -1" = .failed .argument ∧
      asm "0 ADD r1 r2 r3" = .failed .syntaxError ∧ asm "add r1 r2 r3" = .failed .missingLineNumber := by decide

theorem test_disassemble :
    disassemble 0x4212 = "data 16914".toList ∧ disassemble 0x1FFF = "loadn r15 -1".toList ∧
      disassemble 0x7102 = "neg r1 r2".toList := by decide

theorem test_adder :
    adder16 0xFFFF 0x0001 false = ⟨0x0000, true, false⟩ ∧ adder16 0x7FFF 0x0001 false = ⟨0x8000, false, true⟩ ∧
      adder16 0x0003 0xFFF5 true = ⟨0xFFF9, false, false⟩ ∧ adder16 0x8000 0xFFFF false = ⟨0x7FFF, true, true⟩ := by
  decide

theorem test_bit_library :
    toTwosComplement (-128) 8 = some [true, false, false, false, false, false, false, false] ∧
      toTwosComplement 128 8 = none ∧ fromTwosComplement [true] = -1 ∧
      addBits [true, true, true, true] [true] = [true, false, false, false, false] := by decide

/-! ### Witnesses: states and operands that meet the premises of the statements -/

/-- A run at an instruction boundary, paused by nothing. -/
def atTwo (word : Word) : State := machine [0, 0, word] 2 10 [(1, 20), (2, -5)] []

/-- A core waiting at `read r4`, address 0. -/
def reading (console : List (Option ReadAnswer)) : State :=
  { machine [0x0401] 1 1 [(4, 7)] [] with waiting := true, host := ⟨[], console, []⟩ }

/-- A core paused before `loadn r1 5`, address 0. -/
def paused (prompt : List (Option PromptAnswer)) : State :=
  { machine [0x1105] 1 1 [] [] with dbg := .paused, prompting := true, host := ⟨[], [], prompt⟩ }

theorem atTwo_boundary (w : Word) : (atTwo w).AtBoundary := ⟨rfl, rfl, rfl, rfl⟩

theorem witness_DecodeEncodeWellFormed :
    Instr.WellFormed (.add 1 2 15) = true ∧ Instr.WellFormed (.jltz 15 255) = true ∧
      Instr.WellFormed (.data 0x0FFF) = true := by decide

theorem witness_TableMeetsWidthInvariant : opcodeTable ≠ [] ∧ (⟨0x7000, 0xF0F0, .neg⟩ : OpcodeEntry) ∈ opcodeTable := by
  decide

theorem witness_DecoderBlockAgreesWithDecoder :
    decode 0x7102 = .instr (.neg 1 2) ∧ decode 0xFFFF = .instr (.jltz 15 255) := by decide

theorem witness_SynonymsHaveSameEffect :
    (machine [] 0 1 [] []).pc.toNat ≤ (machine [] 0 1 [] []).codeSize.val ∧
      (machine [] 256 256 [] []).pc.toNat ≤ (machine [] 256 256 [] []).codeSize.val ∧
      ¬((0 : RegNo) = 0 ∧ (3 : RegNo) = 0) ∧ ¬((15 : RegNo) = 0 ∧ (0 : RegNo) = 0) := by decide

theorem witness_DecoderIsTotal : ∃ t, step (atTwo 0x4212) = .next t ∧ t.status = .fault .invalidOpcode :=
  ⟨_, rfl, rfl⟩

theorem witness_RegisterZeroForcedAtEnd :
    (∃ t, exec (.loadn 0 9) (ten [(0, 5)] []) = .next t ∧ t.status = .running ∧ t.waiting = false) ∧
      ∃ t, exec (.data 256) (ten [(0, 5)] []) = .next t ∧ t.status = .fault .invalidOpcode :=
  ⟨⟨_, rfl, rfl, rfl⟩, _, rfl, rfl⟩

theorem witness_InstructionsReadAndWriteTheirRegisters :
    (ten [(1, 5), (2, 3)] []).status = .running ∧
      (∃ t, exec (.add 3 1 2) (ten [(1, 5), (2, 3)] []) = .next t ∧ t.status = .running ∧ t.waiting = false) ∧
      (∀ r ∈ regReads (.add 3 1 2),
        ({ ten [(1, 5), (2, 3)] [] with regs := regFile [(1, 5), (2, 3), (3, 9), (7, -1)] } : State).reg r =
          (ten [(1, 5), (2, 3)] []).reg r) ∧
      regWrites (.add 3 1 2) ≠ some 7 ∧ regWrites (.add 3 1 2) = some 3 :=
  ⟨rfl, ⟨_, rfl, rfl, rfl⟩, by decide, by decide, rfl⟩

theorem witness_WritebackChecksRange :
    ((32768 : Int) < -32768 ∨ (32768 : Int) > 32767) ∧ ((-32769 : Int) < -32768 ∨ (-32769 : Int) > 32767) ∧
      (State.reset.params.checkOvfR0 = true) ∧
      ¬(((32767 : Int) < -32768 ∨ (32767 : Int) > 32767) ∧ ((3 : RegNo) ≠ 0 ∨ State.reset.params.checkOvfR0 = true)) ∧
      ¬(((40000 : Int) < -32768 ∨ (40000 : Int) > 32767) ∧
        ((0 : RegNo) ≠ 0 ∨ (unchecked []).params.checkOvfR0 = true)) := by decide

theorem witness_ToTwosComplementPatterns :
    (128 : Int) > 2 ^ (8 - 1) - 1 ∧ (-129 : Int) < -2 ^ (8 - 1) ∧ (127 : Int) ≤ 2 ^ (8 - 1) - 1 ∧
      -2 ^ (16 - 1) ≤ (-32768 : Int) ∧ toTwosComplement (-1) 8 = some (List.replicate 8 true) := by decide

theorem witness_TwosComplementRoundTrip :
    -2 ^ (16 - 1) ≤ (-32768 : Int) ∧ (32767 : Int) ≤ 2 ^ (16 - 1) - 1 ∧ (-128 : Int) ≤ 2 ^ (8 - 1) - 1 := by decide

theorem witness_AdderOverflowIsExact :
    (adder16 0x7FFF 0x0001 false).ovf = true ∧ (adder16 0x8000 0x7FFF true).ovf = false ∧
      (-32768 : Int) ≤ -32768 + 32767 ∧ (-1 : Int) + 1 ≤ 32767 := by decide

theorem witness_DividerLaw :
    (-32768 : Int) ≤ -32768 ∧ (-1 : Int) ≠ 0 ∧ divider .floor (-7) 2 = some ⟨-4, 1⟩ ∧
      divider .trunc (-7) 2 = some ⟨-3, -1⟩ ∧ divider .floor (-32768) (-1) = some ⟨32768, 0⟩ := by decide

theorem witness_ReadTakesHostAnswer :
    (reading [some (.value 0x8000)]).host.console = some (.value 0x8000) :: [] ∧
      (reading [some .eof, none]).host.console = some .eof :: [none] ∧
      (reading [some .abort]).host.console = some .abort :: [] ∧ (reading [some .cancel]).host.console = some .cancel :: [] ∧
      (reading [none, some .eof]).host.console = none :: [some .eof] ∧ (reading []).host.console = [] :=
  ⟨rfl, rfl, rfl, rfl, rfl, rfl⟩

/-- The premises of LoadsReadMemory and StoresWriteMemory at both ends of the data region. -/
theorem witness_LoadsReadMemory :
    (ten [] []).codeSize.val ≤ (10 : Imm8).toNat ∧ (ten [] []).codeSize.val ≤ (255 : Imm8).toNat ∧
      ((ten [(1, 10)] []).codeSize.val : Int) ≤ (ten [(1, 10)] []).x 1 ∧ (ten [(1, 10)] []).x 1 ≤ 255 ∧
      ((ten [(1, 255)] []).codeSize.val : Int) ≤ (ten [(1, 255)] []).x 1 ∧ (ten [(1, 255)] []).x 1 ≤ 255 := by decide

theorem witness_StoresWriteMemory :
    (ten [(1, 10)] [(10, 5), (255, 1)]).mem.wf = true ∧
      ((ten [(1, 10)] [(10, 5), (255, 1)]).codeSize.val : Int) ≤ (ten [(1, 10)] [(10, 5), (255, 1)]).x 1 ∧
      (ten [(1, 10)] [(10, 5), (255, 1)]).x 1 ≤ 255 ∧
      (ten [(1, 10)] [(10, 5), (255, 1)]).codeSize.val ≤ (255 : Imm8).toNat := by decide

theorem witness_InvalidAddressFaults :
    (0 : Imm8).toNat < (ten [] []).codeSize.val ∧ (9 : Imm8).toNat < (ten [] []).codeSize.val ∧
      (ten [(1, 9)] []).x 1 < (ten [(1, 9)] []).codeSize.val ∧
      (ten [(1, -32768)] []).x 1 < (ten [(1, -32768)] []).codeSize.val ∧ 255 < (ten [(1, 256)] []).x 1 := by decide

/-- A machine about to run `storei r2 r1` with r1 = 255, whose code is `store r2 10`. -/
def beforeStore : State := machine [0x320A] 0 10 [(1, 255), (2, -5)] []

/-- After the `storei`, after the step that runs the code's `store`, and after `loadn r4 7`. -/
def afterStore : State := nextOf (exec (.storei 2 1) beforeStore)
def afterStep : State := nextOf (step afterStore)
def afterStretch : State := nextOf (exec (.loadn 4 7) afterStep)

/-- The stretch that LoadReturnsLastStore's witness runs: it stores, but not to 255. -/
theorem stretch_noStoreTo : NoStoreTo 255 afterStore afterStretch := by
  have hx : afterStore.executes = some (.store 2 10) := by decide
  refine .instr _ afterStep _ (.loadn 4 7) (.step _ _ _ (.refl _) ?_ rfl) ?_ rfl
  · rintro i hi ⟨w, hw⟩
    cases hx.symm.trans hi
    exact absurd (congrArg Prod.fst (Option.some.inj hw)) (show ¬directAddress 10 = 255 by decide)
  · rintro ⟨w, hw⟩
    cases hw

/-- The premises of LoadReturnsLastStore at both ends of the data region. -/
theorem witness_LoadReturnsLastStore :
    beforeStore.mem.wf = true ∧ validAddress beforeStore.codeSize 255 = true ∧
      validAddress beforeStore.codeSize 10 = true ∧ memWrites (.storei 2 1) beforeStore = some (255, 0xFFFB) ∧
      exec (.storei 2 1) beforeStore = .next afterStore ∧ NoStoreTo 255 afterStore afterStretch ∧
      memReads (.load 3 255) afterStretch = some (3, 255) ∧ memReads (.loadi 3 1) afterStretch = some (3, 255) ∧
      NoStoreTo 10 beforeStore beforeStore ∧ memReads (.load 3 10) beforeStore = some (3, 10) :=
  ⟨by decide, by decide, by decide, by decide, rfl, stretch_noStoreTo, rfl, by decide, .refl _, rfl⟩

theorem test_load_after_store :
    (nextOf (exec (.loadi 3 1) (nextOf (exec (.store 2 10) (ten [(1, 10), (2, -5)] []))))).x 3 = -5 ∧
      (nextOf (exec (.load 3 10) (nextOf (exec (.storei 2 1) (ten [(1, 10), (2, -5)] []))))).x 3 = -5 := by decide

/-- Each arm of `ExactResult`, as ArithmeticIsExact, AddnAddsConstant and DivAndModResults use it. -/
theorem witness_ArithmeticIsExact :
    (-32768 ≤ (ten [(1, 5), (2, 3)] []).x 1 + (ten [(1, 5), (2, 3)] []).x 2 ∧
      (ten [(1, 5), (2, 3)] []).x 1 + (ten [(1, 5), (2, 3)] []).x 2 ≤ 32767) ∧
      ¬(-32768 ≤ -(ten [(2, -32768)] []).x 2 ∧ -(ten [(2, -32768)] []).x 2 ≤ 32767) ∧
      (ten [] []).params.checkOvfR0 = true ∧ ((0 : RegNo) = 0 ∧ (unchecked []).params.checkOvfR0 = false) := by decide

theorem witness_AddnAddsConstant :
    ¬(-32768 ≤ (ten [(1, 32767)] []).x 1 + (1 : Imm8).toInt ∧ (ten [(1, 32767)] []).x 1 + (1 : Imm8).toInt ≤ 32767) ∧
      (-32768 ≤ (ten [(1, -32768)] []).x 1 + (0 : Imm8).toInt ∧
        (ten [(1, -32768)] []).x 1 + (0 : Imm8).toInt ≤ 32767) := by decide

theorem witness_DivAndModResults :
    (ten [(3, -32768), (7, -1)] []).x 7 ≠ 0 ∧ (ten [(3, -7), (7, 2)] []).x 7 ≠ 0 ∧
      ¬((ten [(3, -7), (7, 2)] []).x 3 = -32768 ∧ (ten [(3, -7), (7, 2)] []).x 7 = -1) ∧
      (-7 : Int).fdiv 2 = -4 ∧ (-7 : Int).tdiv 2 = -3 := by decide

theorem witness_DivisionByZeroFaults :
    ((0 : RegNo) = 0 ∨ (ten [] []).x 0 = 0) ∧ ((7 : RegNo) = 0 ∨ (ten [(3, 5)] []).x 7 = 0) := by decide

theorem witness_JumpsTransfer :
    (9 : Imm8).toNat < (ten [] []).codeSize.val ∧ 0 ≤ (ten [] []).x 14 ∧
      (ten [(14, 9)] []).x 14 < (ten [(14, 9)] []).codeSize.val := by decide

theorem witness_CallLinksAndTransfers :
    (machine [] 10 10 [] []).pc.toNat ≤ (machine [] 10 10 [] []).codeSize.val ∧
      (9 : Imm8).toNat < (machine [] 10 10 [] []).codeSize.val := by decide

/-- Both arms of every branch, TakenBranchesTransfer and UntakenBranchesFallThrough. -/
theorem witness_TakenBranchesTransfer :
    (9 : Imm8).toNat < (ten [] []).codeSize.val ∧ (ten [] []).x 1 = 0 ∧ (ten [(1, 1)] []).x 1 > 0 ∧
      (ten [(1, 1)] []).x 1 ≠ 0 ∧ (ten [(1, -1)] []).x 1 < 0 := by decide

theorem witness_UntakenBranchesFallThrough :
    ((80 : Imm8).toNat < (unchecked [(1, -32768)]).codeSize.val ∨
        (unchecked [(1, -32768)]).params.checkUntakenTarget = false) ∧
      (unchecked [(1, -32768)]).x 1 ≠ 0 ∧ (unchecked [(1, -32768)]).x 1 ≤ 0 ∧
      ((9 : Imm8).toNat < (ten [] []).codeSize.val ∨ (ten [] []).params.checkUntakenTarget = false) ∧
      (ten [] []).x 1 = 0 ∧ 0 ≤ (ten [] []).x 1 := by decide

theorem witness_InvalidTargetFaults :
    (ten [(1, -1)] []).x 1 < 0 ∧ ((ten [(1, 10)] []).codeSize.val : Int) ≤ (ten [(1, 10)] []).x 1 ∧
      (ten [] []).codeSize.val ≤ (10 : Imm8).toNat ∧ (ten [] []).params.checkUntakenTarget = true ∧
      (ten [] []).x 1 = 0 ∧ (ten [(1, 1)] []).x 1 > 0 ∧ (ten [(1, -1)] []).x 1 < 0 := by decide

theorem witness_FaultsArePrecise :
    (∃ t, exec (.div 1 2 0) (ten [] []) = .next t ∧ t.status = .fault .divisionByZero) ∧
      ∃ t, step (machine [] 1 1 [] []) = .next t ∧ t.status = .fault .memoryOutOfBounds :=
  ⟨⟨_, rfl, rfl⟩, _, rfl, rfl⟩

theorem witness_FaultsHaveTheirCauses :
    (ten [] []).pc.toNat ≤ (ten [] []).codeSize.val ∧
      ∃ t, exec (.call 1 10) (ten [] []) = .next t ∧ t.status = .fault .invalidJumpTarget := ⟨by decide, _, rfl, rfl⟩

theorem witness_FetchCheckFaults :
    (machine [0x6000] 1 1 [] []).AtBoundary ∧
      (machine [0x6000] 1 1 [] []).codeSize.val ≤ (machine [0x6000] 1 1 [] []).pc.toNat :=
  ⟨⟨rfl, rfl, rfl, rfl⟩, by decide⟩

theorem witness_CancellationInterrupts :
    ({ atTwo 0x6000 with host := ⟨[true], [], []⟩ } : State).cancelRequested = true ∧
      decode (reading [some .cancel]).iword = .instr (.read 4) ∧ (reading [some .cancel]).status = .running ∧
      (paused [some .cancel]).host.prompt = some .cancel :: [] ∧ (paused [some .cancel]).waiting = false ∧
      ({ atTwo 0x6000 with dbg := .paused, host := ⟨[], [], [some .cancel]⟩ } : State).AtBoundary ∧
      DebuggerState.pauses .paused = true ∧ (atTwo 0x6000).pc.toNat < (atTwo 0x6000).codeSize.val :=
  ⟨rfl, by decide, rfl, rfl, rfl, ⟨rfl, rfl, rfl, rfl⟩, rfl, by decide⟩

theorem witness_FinishedMachineTakesNoStep :
    ({ State.reset with status := .halted } : State).status ≠ .running ∧
      ({ State.reset with status := .fault .divisionByZero } : State).status ≠ .running := by decide

theorem witness_OnlyHaltHalts : ∃ t, exec .halt (ten [] []) = .next t ∧ t.status = .halted := ⟨_, rfl, rfl⟩

theorem witness_StepRunsDecodedInstruction :
    (atTwo 0x6312).AtBoundary ∧ (atTwo 0x6312).pc.toNat < (atTwo 0x6312).codeSize.val ∧
      (atTwo 0x6312).dbg.pauses = false ∧ decode ((atTwo 0x6312).mem.read (atTwo 0x6312).pc.toNat) = .instr (.add 3 1 2) ∧
      (reading []).status = .running ∧ (reading []).waiting = true ∧ decode (reading []).iword = .instr (.read 4) :=
  ⟨atTwo_boundary _, by decide, rfl, by decide, rfl, rfl, by decide⟩

theorem witness_DebuggerPausesBeforeExecute :
    ({ atTwo 0x6312 with dbg := .singleStepping } : State).AtBoundary ∧
      (atTwo 0x6312).pc.toNat < (atTwo 0x6312).codeSize.val ∧ (atTwo 0x6312).host.prompt = [] ∧
      (atTwo 0x6312).dbg = .runningToCompletion ∧
      decode ((atTwo 0x6312).mem.read (atTwo 0x6312).pc.toNat) = .instr (.add 3 1 2) ∧
      ∃ t, exec (.add 3 1 2) { atTwo 0x6312 with dbg := .singleStepping } = .next t ∧ t.status = .running ∧
        t.waiting = false ∧ t.dbg = .paused :=
  ⟨⟨rfl, rfl, rfl, rfl⟩, by decide, rfl, rfl, by decide, _, rfl, rfl, rfl, rfl⟩

theorem witness_DebuggerCommands (a : PromptAnswer) :
    (paused [some a]).status = .running ∧ (paused [some a]).waiting = false ∧ (paused [some a]).prompting = true ∧
      (paused [some a]).dbg = .paused ∧ decode (paused [some a]).iword = .instr (.loadn 1 5) ∧
      (paused [some a]).host.prompt = some a :: [] :=
  ⟨rfl, rfl, rfl, rfl, by cases a <;> decide, rfl⟩

theorem witness_UnansweredWaitNeverEnds :
    (reading []).status = .running ∧ (reading []).waiting = true ∧ decode (reading []).iword = .instr (.read 4) ∧
      (reading []).host.console = [] ∧ (paused []).waiting = false ∧ (paused []).prompting = true ∧
      (paused []).host.prompt = [] :=
  ⟨rfl, rfl, by decide, rfl, rfl, rfl, rfl⟩

theorem witness_DebuggerIsTransparent : ∃ t, exec (.mul 3 1 2) (atTwo 0x8312) = .next t ∧ t.x 3 = -100 :=
  ⟨_, rfl, by decide⟩

/-- A state in the middle of a run meets the invariant, and its step answers a next state. -/
theorem witness_StepKeepsInvariant :
    (machine [0x1105, 0x6312] 1 2 [(1, 5)] [(20, 3)]).Inv ∧
      ∃ t, step (machine [0x1105, 0x6312] 1 2 [(1, 5)] [(20, 3)]) = .next t :=
  ⟨{ memWf := by decide
     pcInRange := by decide
     zeroR0 := by decide
     outFits := by decide
     suspended := by decide
     oneWait := by decide
     waitingReads := by intro h; cases h
     promptPaused := by decide
     terminatedEnded := by intro h; cases h
     faultRecorded := by intro f h; cases h
     recordEmpty := fun _ => rfl }, _, rfl⟩

/-- A launch with draws everywhere, asked to debug. -/
def launch : Launch :=
  ⟨{}, Vector.replicate 16 0x1234, ⟨[(0, 7), (255, 9)]⟩, .ask, true, ⟨[], [], []⟩⟩

theorem witness_LaunchMeetsInvariant :
    launch.initData.wf = true ∧ 1 ≤ ([0x0000] : List Word).length ∧ (List.replicate 256 (0 : Word)).length ≤ 256 :=
  ⟨by decide, by decide, by rw [List.length_replicate]⟩

/-- The premises of LaunchStartsRun, and what it says, at an image of one word. -/
theorem witness_LaunchStartsRun :
    launch.initData.wf = true ∧ (State.launch launch [0x1105]).mem.read 0 = 0x1105 ∧
      (State.launch launch [0x1105]).mem.read 255 = 9 ∧ (State.launch launch [0x1105]).reg 0 = 0 ∧
      (State.launch launch [0x1105]).reg 15 = 0x1234 ∧ (State.launch launch [0x1105]).dbg = .paused ∧
      (State.launch { launch with debugAnswer := false } [0x1105]).dbg = .runningToCompletion ∧
      (State.launch { launch with debug := .off } [0x1105]).dbg = .runningToCompletion := by decide

theorem witness_CodeNeverChanges :
    (machine [0x1105, 0x320A] 0 2 [] []).mem.wf = true ∧
      (∃ t, Host.Core.run Sys2Proof.core 2 (machine [0x1105, 0x320A] 0 2 [] []) = .next t) ∧
      (1 : Imm8).toNat < (machine [] 1 2 [] []).codeSize.val ∧
      (machine [] 1 2 [(1, 1)] []).x 1 < (machine [] 1 2 [(1, 1)] []).codeSize.val :=
  ⟨by decide, ⟨_, rfl⟩, by decide, by decide⟩

theorem witness_OutputOnlyGrows :
    ∃ t, exec (.write 1) (ten [(1, 4)] []) = .next t ∧ t.out ≠ (ten [(1, 4)] []).out :=
  ⟨_, rfl, by decide⟩

theorem witness_ImageTextRoundTrip :
    1 ≤ ([0x8001, 0x1105] : List Word).length ∧ loadImage (imageText [0x8001, 0x1105]) = .loaded [0x8001, 0x1105] := by
  decide

/-- An image of one line, with one space. -/
def oneLine : List Char := List.replicate 8 '0' ++ ' ' :: (List.replicate 8 '1' ++ ['\n'])

theorem witness_LoaderRefusesBadImages_characters :
    (∃ c ∈ ['0', '2'], c ∉ ['0', '1', ' ', '\n']) ∧ (∀ c ∈ [' ', '\n'], c ≠ '0' ∧ c ≠ '1') ∧
      (∀ c ∈ oneLine, c ∈ ['0', '1', ' ', '\n']) ∧ 1 ≤ (countedLines oneLine).length ∧
      (countedLines oneLine).length ≤ 256 ∧ ∀ line ∈ countedLines oneLine, (line.filter isBitChar).length = 16 := by
  refine ⟨by simp, by simp, ?_, ?_, ?_, ?_⟩
  · intro c h
    simp only [oneLine, List.mem_append, List.mem_cons, List.mem_replicate] at h
    rcases h with ⟨-, rfl⟩ | rfl | ⟨-, rfl⟩ | rfl | h <;> simp at *
  · decide
  · decide
  · decide

theorem witness_LoaderRefusesBadImages :
    (∃ line ∈ countedLines "0000 0000 0000 000\n".toList, (line.filter isBitChar).length ≠ 16) ∧
      256 < (countedLines ((List.replicate 257 ['1', '\n']).flatten)).length ∧
      (List.replicate 256 (0 : Word)).length = 256 := by
  refine ⟨by decide, ?_, List.length_replicate⟩
  decide +kernel

theorem witness_DisassemblyReassembles :
    (∀ cs, (⟨fun _ => false, false, []⟩ : AsmParams).commentAt cs = false) ∧
      assembleLine ⟨fun _ => false, false, []⟩ 0 "0 loadn r1 -128".toList = (.coded 0x1180, true) :=
  ⟨fun _ => rfl, by decide⟩

/-- The premise of DisassemblyReassembles under an assembler whose comments begin with `#`. -/
theorem witness_DisassemblyReassembles_comment :
    ∀ cs, cs ≠ [] → cs <:+ '0' :: ' ' :: instrText (.read 1) →
      (⟨fun cs => cs.head? == some '#', true, []⟩ : AsmParams).commentAt cs = false := by
  intro cs _ h
  have hall : ∀ ds ∈ ('0' :: ' ' :: instrText (.read 1)).tails,
      (⟨fun cs => cs.head? == some '#', true, []⟩ : AsmParams).commentAt ds = false := by decide
  exact hall cs ((List.mem_tails _ _).2 h)

theorem witness_FaultCodesAreTheTable :
    ∃ t, step (atTwo 0x9130) = .next t ∧ t.status = .fault .divisionByZero ∧
      t.faultRecord.map (fun r => r.code.code) = some 5 := ⟨_, rfl, rfl, rfl⟩

/-- Steps that run an instruction and steps that run none. -/
theorem witness_StepExecutesAtMostOneInstruction :
    (atTwo 0x6312).executes = some (.add 3 1 2) ∧ (reading []).executes = some (.read 4) ∧
      (paused [some .other]).executes = some (.loadn 1 5) ∧ (paused [some .dump]).executes = none ∧
      ({ atTwo 0x6312 with dbg := .paused } : State).executes = none ∧
      ∃ t, step ({ atTwo 0x6312 with dbg := .paused } : State) = .next t :=
  ⟨by decide, by decide, by decide, by decide, by decide, _, rfl⟩

end Sys2Proof.Tests
end

/-! ## Proofs: the register file (spec/10_state.md) -/

namespace Sys2Proof.Machine

/-! ### The read ports of the register-file block (R17) -/

@[simp] theorem State.readPorts_fst (s : State) (ra1 ra2 : RegNo) : (s.readPorts ra1 ra2).1 = s.reg ra1 := rfl

@[simp] theorem State.readPorts_snd (s : State) (ra1 ra2 : RegNo) : (s.readPorts ra1 ra2).2 = s.reg ra2 := rfl

/-- Settles O9: every read port is `State.reg`, whose selection of register 0 never looks at the storage (R14), so the
stored word plays no part. -/
theorem registerZeroReadsZero : Obligations.RegisterZeroReadsZero := by
  intro s w r t
  refine ⟨t.reg_zero, t.x_zero, ?_, ?_⟩
  · rw [State.readPorts_fst, State.reg_zero]
  · rw [State.readPorts_snd, State.reg_zero]

end Sys2Proof.Machine

/-! ## Proofs: the memory (spec/20_memory.md) -/

namespace Sys2Proof.Machine

/-! ### Effective addresses -/

/-- Zero extension keeps the field's number (spec/30_encoding.md R56). -/
@[simp] theorem unsignedImm_eq (u : Imm8) : unsignedImm u = u.toNat :=
  congrArg Nat.cast (BitVec.toNat_setWidth_of_le (by decide))

@[simp] theorem directAddress_eq (u : Imm8) : directAddress u = u.toNat := unsignedImm_eq u

theorem validAddress_false_iff (c : Fin 257) (a : Int) :
    validAddress c a = false ↔ a < (c.val : Int) ∨ 255 < a := by
  rw [← Bool.not_eq_true, validAddress_iff]
  omega

/-! ### Faults -/

/-- Raising a fault is taking it: `State.raise` changes the status, the record and the waits alone. -/
theorem faultTaken_raise (s : State) (f : RunFault) (info : FaultInfo) : FaultTaken f info s (s.raise f info) :=
  ⟨rfl, rfl, s.reg_raise f info, fun _ => rfl, rfl, rfl, rfl, rfl, rfl, rfl, rfl, rfl⟩

/-! ### Accesses outside the data region (R35) -/

/-- A load of an address outside the data region faults with that address. -/
theorem exec_of_memReads_invalid {i : Instr} {s : State} {rd : RegNo} {a : Int} (hr : memReads i s = some (rd, a))
    (hv : validAddress s.codeSize a = false) :
    ∃ t, exec i s = .next t ∧ FaultTaken .invalidMemoryTarget (.addr a) s t := by
  refine ⟨_, ?_, faultTaken_raise s _ _⟩
  have hload : loadFrom s rd a = .next (s.raise .invalidMemoryTarget (.addr a)) := by
    rcases loadFrom_cases s rd a with ⟨hvalid, -⟩ | ⟨-, hfault⟩
    · rw [hv] at hvalid; cases hvalid
    · exact hfault
  cases i <;> simp only [memReads, reduceCtorEq, Option.some.injEq, Prod.mk.injEq] at hr
  all_goals obtain ⟨rfl, rfl⟩ := hr; exact hload

/-- A store to an address outside the data region faults with that address. -/
theorem exec_of_memWrites_invalid {i : Instr} {s : State} {a : Int} {w : Word} (hw : memWrites i s = some (a, w))
    (hv : validAddress s.codeSize a = false) :
    ∃ t, exec i s = .next t ∧ FaultTaken .invalidMemoryTarget (.addr a) s t := by
  refine ⟨_, ?_, faultTaken_raise s _ _⟩
  have hstore : storeTo s a w = .next (s.raise .invalidMemoryTarget (.addr a)) := by
    rcases storeTo_cases s a w with ⟨hvalid, -⟩ | ⟨-, hfault⟩
    · rw [hv] at hvalid; cases hvalid
    · exact hfault
  cases i <;> simp only [memWrites, reduceCtorEq, Option.some.injEq, Prod.mk.injEq] at hw
  all_goals obtain ⟨rfl, rfl⟩ := hw; exact hstore

/-- Settles O28: the load/store controller checks the address of all four forms alike. An 8-bit address can only be
invalid below `codeSize`; a register's can also be negative or above 255. -/
theorem invalidAddressFaults : Obligations.InvalidAddressFaults := by
  intro s rX rY u
  refine ⟨validAddress_iff s.codeSize, fun hlow => ?_, fun hout => ?_⟩
  · have hv : validAddress s.codeSize (u.toNat : Int) = false :=
      (validAddress_false_iff _ _).2 (.inl (by exact_mod_cast hlow))
    exact ⟨exec_of_memReads_invalid (rd := rX) (by simp [memReads]) hv,
      exec_of_memWrites_invalid (w := s.reg rX) (by simp [memWrites]) hv⟩
  · have hv : validAddress s.codeSize (s.x rY) = false := (validAddress_false_iff _ _).2 hout
    exact ⟨exec_of_memReads_invalid (rd := rX) rfl hv, exec_of_memWrites_invalid (w := s.reg rX) rfl hv⟩

end Sys2Proof.Machine

/-! ## Proofs: the execution cycle (spec/40_execution_cycle.md) -/

namespace Sys2Proof.Machine

/-! ### The checks before an instruction (R76, R81) -/

/-- The fetch check fails exactly at or above `codeSize`. -/
theorem State.fetchOk_false_iff (s : State) : s.fetchOk = false ↔ s.codeSize.val ≤ s.pc.toNat := by
  simp [State.fetchOk]

/-- At a boundary where the fetch check fails, the step is the fault of R76. -/
theorem step_of_fetch_fails {s : State} (hb : s.AtBoundary) (hf : s.fetchOk = false) :
    step s = .next (s.boundarySeen.raiseUnfetched .memoryOutOfBounds) := by
  obtain ⟨hrun, hwait, hprompt, hcancel⟩ := hb
  rw [step_of_running hrun]
  rcases stepRunning_cases s with
    ⟨hw, -⟩ | ⟨-, hp, -⟩ | ⟨-, -, hc, -⟩ | ⟨-, -, -, -, hfault⟩ | ⟨-, -, -, hok, -⟩
  · simp [hwait] at hw
  · simp [hprompt] at hp
  · simp [hcancel] at hc
  · exact hfault
  · simp [hf] at hok

/-- Raising a fault before the fetch is taking it; the host's choice seen at the boundary is outside the frame. -/
theorem faultTakenUnfetched_raise (s : State) (f : RunFault) :
    FaultTakenUnfetched f s (s.boundarySeen.raiseUnfetched f) :=
  ⟨rfl, ⟨_, rfl⟩, fun _ => rfl, fun _ => rfl, rfl, rfl, rfl, rfl, rfl⟩

/-- Settles O41: the fetch check of R76, and the invariant's bound on `PC` (R20) for the second part. -/
theorem fetchCheckFaults : Obligations.FetchCheckFaults := by
  intro s hb hout
  refine ⟨⟨_, ?_, faultTakenUnfetched_raise s .memoryOutOfBounds⟩, fun hinv => ?_⟩
  · exact step_of_fetch_fails hb (s.fetchOk_false_iff.2 hout)
  · exact Nat.le_antisymm hinv.pcInRange hout

/-- A machine that is not running answers `runEnded`, the model's name for taking no step (R81). -/
theorem step_of_not_running {s : State} (h : s.status ≠ .running) : step s = .fault .runEnded := by
  simp only [step, stepMachine]
  cases hs : s.status with
  | running => exact absurd hs h
  | halted => rfl
  | fault f => rfl

/-- Settles O43: `runEnded` is no next state. -/
theorem finishedMachineTakesNoStep : Obligations.FinishedMachineTakesNoStep := by
  intro s h
  have hend := step_of_not_running h
  refine ⟨hend, fun t ht => ?_⟩
  rw [hend] at ht
  cases ht

/-! ### The value of a bit string (R6) -/

@[simp] theorem bitsValue_nil : bitsValue [] = 0 := rfl

theorem bitsValue_append_singleton (bits : List Bool) (b : Bool) :
    bitsValue (bits ++ [b]) = 2 * bitsValue bits + b.toNat := by
  simp [bitsValue, List.foldl_append]

/-- Reversed, a string is read from its least significant bit up, as the ripple of R84 does. -/
theorem bitsValue_reverse_cons (b : Bool) (bits : List Bool) :
    bitsValue (b :: bits).reverse = 2 * bitsValue bits.reverse + b.toNat := by
  rw [List.reverse_cons, bitsValue_append_singleton]

theorem bitsValue_cons (b : Bool) (bits : List Bool) :
    bitsValue (b :: bits) = b.toNat * 2 ^ bits.length + bitsValue bits := by
  induction bits using List.reverseRecOn with
  | nil => simp [bitsValue]
  | append_singleton bits c ih =>
    rw [← List.cons_append, bitsValue_append_singleton, bitsValue_append_singleton, ih, List.length_append,
      List.length_singleton, pow_succ]
    ring

theorem bitsValue_lt (bits : List Bool) : bitsValue bits < 2 ^ bits.length := by
  induction bits with
  | nil => simp
  | cons b bits ih =>
    rw [bitsValue_cons, List.length_cons, pow_succ]
    cases b <;> simp <;> omega

/-- Strings of one length with one value are the same string. -/
theorem eq_of_bitsValue_eq {a b : List Bool} (hlen : a.length = b.length) (h : bitsValue a = bitsValue b) : a = b := by
  induction a generalizing b with
  | nil => exact (List.length_eq_zero_iff.1 hlen.symm).symm
  | cons x as ih =>
    cases b with
    | nil => simp at hlen
    | cons y bs =>
      have hlen' : as.length = bs.length := Nat.succ.inj hlen
      have ha := bitsValue_lt as
      have hb := bitsValue_lt bs
      rw [bitsValue_cons, bitsValue_cons, hlen'] at h
      rw [hlen'] at ha
      have hhead : x = y := by cases x <;> cases y <;> simp at h ⊢ <;> omega
      subst hhead
      rw [ih hlen' (Nat.add_left_cancel h)]

/-! ### `bin`, `flip` and padding (R82, R84) -/

@[simp] theorem length_natBits (w n : Nat) : (natBits w n).length = w := by
  induction w with
  | zero => rfl
  | succ w ih => rw [natBits, List.length_cons, ih]

theorem bitsValue_natBits (w n : Nat) : bitsValue (natBits w n) = n % 2 ^ w := by
  induction w with
  | zero => simp [natBits, Nat.mod_one]
  | succ w ih =>
    have hbit : (n.testBit w).toNat = n / 2 ^ w % 2 := Nat.toNat_testBit n w
    rw [natBits, bitsValue_cons, length_natBits, ih, hbit, Nat.mod_pow_succ, Nat.mul_comm, Nat.add_comm]

@[simp] theorem length_flipBits (bits : List Bool) : (flipBits bits).length = bits.length := List.length_map _

/-- A string and its complement sum to the string of ones. -/
theorem bitsValue_flipBits (bits : List Bool) : bitsValue (flipBits bits) + bitsValue bits + 1 = 2 ^ bits.length := by
  induction bits with
  | nil => rfl
  | cons b bits ih =>
    have hcons : flipBits (b :: bits) = (!b) :: flipBits bits := rfl
    rw [hcons, bitsValue_cons, bitsValue_cons, length_flipBits, List.length_cons, pow_succ]
    cases b <;> simp <;> omega

@[simp] theorem length_padBits (len : Nat) (bits : List Bool) : (padBits len bits).length = max len bits.length := by
  rw [padBits, List.length_append, List.length_replicate]
  omega

@[simp] theorem bitsValue_padBits (len : Nat) (bits : List Bool) : bitsValue (padBits len bits) = bitsValue bits := by
  rw [padBits]
  induction len - bits.length with
  | zero => rfl
  | succ k ih => rw [List.replicate_succ, List.cons_append, bitsValue_cons, ih]; simp

/-! ### The ripple addition (R84) -/

/-- One full adder: sum and carry hold the exact sum of three bits. -/
theorem fullAdder_value (a b c : Bool) :
    (a ^^ b ^^ c).toNat + 2 * ((a && b) || (c && (a ^^ b))).toNat = a.toNat + b.toNat + c.toNat := by
  revert a b c; decide

theorem length_rippleBits {as bs : List Bool} (h : as.length = bs.length) (c : Bool) :
    (rippleBits as bs c).1.length = as.length := by
  induction as generalizing bs c with
  | nil => rfl
  | cons a as ih =>
    cases bs with
    | nil => simp at h
    | cons b bs => rw [rippleBits, List.length_cons, List.length_cons, ih (Nat.succ.inj h)]

/-- The ripple keeps the exact sum: its bits and, above them, its carry. -/
theorem bitsValue_rippleBits {as bs : List Bool} (h : as.length = bs.length) (c : Bool) :
    bitsValue (rippleBits as bs c).1.reverse + 2 ^ as.length * (rippleBits as bs c).2.toNat =
      bitsValue as.reverse + bitsValue bs.reverse + c.toNat := by
  induction as generalizing bs c with
  | nil => simp [rippleBits, List.length_eq_zero_iff.1 h.symm]
  | cons a as ih =>
    cases bs with
    | nil => simp at h
    | cons b bs =>
      have hrest := ih (Nat.succ.inj h) ((a && b) || (c && (a ^^ b)))
      have hbit := fullAdder_value a b c
      simp only [rippleBits, bitsValue_reverse_cons, List.length_cons, pow_succ]
      linarith

/-- What `addBits` answers: sum bits as long as the longer string, and above them a 1 on a final carry. -/
theorem addBits_cases (a b : List Bool) :
    ∃ (low : List Bool) (carry : Bool), addBits a b = (if carry then true :: low else low) ∧
      low.length = max a.length b.length ∧
      bitsValue low + 2 ^ max a.length b.length * carry.toNat = bitsValue a + bitsValue b := by
  have hlen : (padBits (max a.length b.length) a).reverse.length =
      (padBits (max a.length b.length) b).reverse.length := by simp
  have hripple := length_rippleBits hlen false
  have hvalue := bitsValue_rippleBits hlen false
  refine ⟨_, _, rfl, ?_, ?_⟩
  · simpa using hripple
  · simpa using hvalue

/-- A sum that fits the longer string leaves no carry, and `addBits` is its padded binary. -/
theorem addBits_eq_natBits {a b : List Bool} (h : bitsValue a + bitsValue b < 2 ^ max a.length b.length) :
    addBits a b = natBits (max a.length b.length) (bitsValue a + bitsValue b) := by
  obtain ⟨low, carry, hadd, hlen, hvalue⟩ := addBits_cases a b
  cases carry with
  | true => simp at hvalue; omega
  | false =>
    simp only [Bool.toNat_false, Nat.mul_zero, Nat.add_zero] at hvalue
    rw [hadd]
    refine eq_of_bitsValue_eq (hlen.trans (length_natBits _ _).symm) ?_
    rw [bitsValue_natBits, Nat.mod_eq_of_lt h]
    exact hvalue

/-- Complement and add one: the pattern of the negation modulo `2 ^ w`. -/
theorem addBits_flipBits_natBits {w n : Nat} (hn : 0 < n) (hlt : n < 2 ^ w) :
    addBits (flipBits (natBits w n)) [true] = natBits w (2 ^ w - n) := by
  have hw : 0 < w := Nat.pos_of_ne_zero (by rintro rfl; simp at hlt; omega)
  have hmax : max (flipBits (natBits w n)).length [true].length = w := by simp; omega
  have hflip := bitsValue_flipBits (natBits w n)
  rw [bitsValue_natBits, Nat.mod_eq_of_lt hlt, length_natBits] at hflip
  have hone : bitsValue [true] = 1 := rfl
  have hsum : bitsValue (flipBits (natBits w n)) + bitsValue [true] = 2 ^ w - n := by omega
  rw [addBits_eq_natBits (by rw [hmax, hsum]; omega), hmax, hsum]

/-! ### `toTwosComplement` (R82) -/

theorem toTwosComplement_out_of_range {width : Nat} {v : Int}
    (h : v < -2 ^ (width - 1) ∨ 2 ^ (width - 1) - 1 < v) : toTwosComplement v width = none := by
  rw [toTwosComplement, if_neg (by omega)]

theorem toTwosComplement_nonneg {width : Nat} {v : Int} (h0 : 0 ≤ v) (h : v ≤ 2 ^ (width - 1) - 1) :
    toTwosComplement v width = some (natBits width v.toNat) := by
  rw [toTwosComplement, if_pos (by omega), if_pos h0]

theorem toTwosComplement_neg {width : Nat} {v : Int} (h : -2 ^ (width - 1) ≤ v) (h0 : v < 0) :
    toTwosComplement v width = some (addBits (flipBits (natBits width (-v).toNat)) [true]) := by
  have hpos : (0 : Int) < 2 ^ (width - 1) := by positivity
  rw [toTwosComplement, if_pos (by omega), if_neg (by omega)]

/-- A negative integer's string is the binary of `2 ^ width + v`. -/
theorem toTwosComplement_neg_pattern {width : Nat} (hw : 0 < width) {v : Int} (h : -2 ^ (width - 1) ≤ v)
    (h0 : v < 0) : toTwosComplement v width = some (natBits width (2 ^ width + v).toNat) := by
  have hdouble := mul_pow_sub_one hw.ne' (2 : Int)
  have hcast : ((2 ^ width : Nat) : Int) = 2 ^ width := by norm_cast
  have hlt : (-v).toNat < 2 ^ width := by omega
  have hpattern : 2 ^ width - (-v).toNat = (2 ^ width + v).toNat := by omega
  rw [toTwosComplement_neg h h0, addBits_flipBits_natBits (by omega) hlt, hpattern]

/-- Whatever the sign, the string returned is a padded binary of the full width. -/
theorem toTwosComplement_none_or_natBits {width : Nat} (hw : 0 < width) (v : Int) :
    toTwosComplement v width = none ∨ ∃ n, toTwosComplement v width = some (natBits width n) := by
  by_cases hout : v < -2 ^ (width - 1) ∨ 2 ^ (width - 1) - 1 < v
  · exact .inl (toTwosComplement_out_of_range hout)
  · rcases lt_or_ge v 0 with hneg | hpos
    · exact .inr ⟨_, toTwosComplement_neg_pattern hw (by omega) hneg⟩
    · exact .inr ⟨_, toTwosComplement_nonneg hpos (by omega)⟩

theorem length_of_toTwosComplement {width : Nat} (hw : 0 < width) {v : Int} {bits : List Bool}
    (h : toTwosComplement v width = some bits) : bits.length = width := by
  rcases toTwosComplement_none_or_natBits hw v with hnone | ⟨n, hsome⟩
  · rw [hnone] at h; cases h
  · rw [hsome] at h; cases h; exact length_natBits width n

/-- Settles O13: the library's strings at any positive width, of which R82 names 8 and 16. -/
theorem toTwosComplementPatterns : Obligations.ToTwosComplementPatterns := by
  intro width hwidth v
  have hw : 0 < width := by omega
  exact ⟨toTwosComplement_out_of_range, toTwosComplement_nonneg,
    fun h h0 => ⟨toTwosComplement_neg h h0, toTwosComplement_neg_pattern hw h h0⟩,
    fun _ => length_of_toTwosComplement hw⟩

/-! ### `fromTwosComplement` (R83) -/

theorem fromTwosComplement_true_cons (bits : List Bool) :
    fromTwosComplement (true :: bits) = (bitsValue (true :: bits) : Int) - 2 ^ (bits.length + 1) := by
  rw [fromTwosComplement, if_pos List.head?_cons, List.length_cons]

theorem fromTwosComplement_false_cons (bits : List Bool) :
    fromTwosComplement (false :: bits) = bitsValue (false :: bits) := by
  rw [fromTwosComplement, if_neg (by simp)]

/-- Below `2 ^ w` the leading bit is 0, and the value is the integer. -/
theorem fromTwosComplement_natBits_low {w n : Nat} (h : n < 2 ^ w) : fromTwosComplement (natBits (w + 1) n) = n := by
  have hlead : natBits (w + 1) n = false :: natBits w n := by rw [natBits, Nat.testBit_lt_two_pow h]
  have hfit : n < 2 ^ (w + 1) := by rw [pow_succ]; omega
  rw [hlead, fromTwosComplement_false_cons, ← hlead, bitsValue_natBits, Nat.mod_eq_of_lt hfit]

/-- From `2 ^ w` on the leading bit is 1, and the value is the integer less `2 ^ (w + 1)`. -/
theorem fromTwosComplement_natBits_high {w n : Nat} (h : 2 ^ w ≤ n) (hlt : n < 2 ^ (w + 1)) :
    fromTwosComplement (natBits (w + 1) n) = n - 2 ^ (w + 1) := by
  have hlead : natBits (w + 1) n = true :: natBits w n := by
    rw [natBits, Nat.testBit_of_two_pow_le_and_two_pow_add_one_gt h hlt]
  rw [hlead, fromTwosComplement_true_cons, ← hlead, bitsValue_natBits, Nat.mod_eq_of_lt hlt, length_natBits]

/-- The inverse law at every positive width. -/
theorem fromTwosComplement_toTwosComplement {width : Nat} (hw : 0 < width) {v : Int} (hlo : -2 ^ (width - 1) ≤ v)
    (hhi : v ≤ 2 ^ (width - 1) - 1) :
    ∃ bits, toTwosComplement v width = some bits ∧ fromTwosComplement bits = v := by
  obtain ⟨w, rfl⟩ := Nat.exists_eq_add_of_lt hw
  rw [Nat.zero_add] at *
  rw [Nat.add_sub_cancel] at hlo hhi
  have hcast : ((2 ^ w : Nat) : Int) = 2 ^ w := by norm_cast
  have hdouble : (2 ^ (w + 1) : Int) = 2 * 2 ^ w := pow_succ' 2 w
  have hdoubleNat : 2 ^ (w + 1) = 2 * 2 ^ w := pow_succ' 2 w
  rcases lt_or_ge v 0 with hneg | hpos
  · refine ⟨_, toTwosComplement_neg_pattern hw hlo hneg, ?_⟩
    rw [fromTwosComplement_natBits_high (by omega) (by omega), Int.toNat_of_nonneg (by omega)]
    omega
  · refine ⟨_, toTwosComplement_nonneg hpos hhi, ?_⟩
    rw [fromTwosComplement_natBits_low (by omega), Int.toNat_of_nonneg hpos]

/-- Settles O14: the reading of the sign character, and the inverse law, which holds at every positive width. -/
theorem twosComplementRoundTrip : Obligations.TwosComplementRoundTrip := by
  refine ⟨fun bits => ⟨fromTwosComplement_true_cons bits, fromTwosComplement_false_cons bits⟩, ?_⟩
  intro width hwidth v hlo hhi
  have hw : 0 < width := by omega
  exact fromTwosComplement_toTwosComplement hw hlo hhi

end Sys2Proof.Machine

/-! ## Proofs: the decoder and the encoder (spec/30_encoding.md) -/

namespace Sys2Proof

/-! ### The decoder as a total function (R59) -/

/-- The instruction the decoder gives a word. -/
def decodedInstr (w : Word) : Instr :=
  instrOfNibbles (w.extractLsb' 12 4) (w.extractLsb' 8 4) (w.extractLsb' 4 4) (w.extractLsb' 0 4)

theorem decode_eq (w : Word) : decode w = .instr (decodedInstr w) := by
  have h := decode_wordOfNibbles (w.extractLsb' 12 4) (w.extractLsb' 8 4) (w.extractLsb' 4 4) (w.extractLsb' 0 4)
  rwa [wordOfNibbles_of] at h

/-- A property of every word follows from the property of every four nibbles. -/
theorem forall_word_of_nibbles {P : Word → Prop} (h : ∀ a b c d, P (wordOfNibbles a b c d)) (w : Word) : P w := by
  rw [← wordOfNibbles_of w]
  exact h _ _ _ _

/-! ### Words and their nibbles -/

/-- Appending puts the first field above the second. -/
theorem toNat_append {m n : Nat} (x : BitVec m) (y : BitVec n) :
    (x ++ y).toNat = x.toNat * 2 ^ n + y.toNat := by
  rw [BitVec.toNat_append, ← Nat.shiftLeft_add_eq_or_of_lt y.isLt, Nat.shiftLeft_eq]

theorem toNat_wordOfNibbles (a b c d : BitVec 4) :
    (wordOfNibbles a b c d).toNat = a.toNat * 4096 + b.toNat * 256 + c.toNat * 16 + d.toNat := by
  show ((a ++ b : BitVec (4 + 4)) ++ c ++ d : BitVec (4 + 4 + 4 + 4)).toNat = _
  rw [toNat_append, toNat_append, toNat_append]
  omega

theorem byte_append_eq_iff {c d c' d' : BitVec 4} : (c ++ d : BitVec (4 + 4)) = c' ++ d' ↔ c = c' ∧ d = d' := by
  constructor
  · intro h
    have hn := congrArg BitVec.toNat h
    rw [toNat_append, toNat_append] at hn
    have hd := d.isLt
    have hd' := d'.isLt
    exact ⟨BitVec.eq_of_toNat_eq (by omega), BitVec.eq_of_toNat_eq (by omega)⟩
  · rintro ⟨rfl, rfl⟩; rfl

/-! The constants the decoder's tree compares with, as nibbles. -/

theorem byte_eq_one_iff {c d : BitVec 4} : c ++ d = 1#8 ↔ c = 0#4 ∧ d = 1#4 :=
  (byte_append_eq_iff : c ++ d = (0#4 ++ 1#4 : BitVec (4 + 4)) ↔ c = 0#4 ∧ d = 1#4)

theorem byte_eq_two_iff {c d : BitVec 4} : c ++ d = 2#8 ↔ c = 0#4 ∧ d = 2#4 :=
  (byte_append_eq_iff : c ++ d = (0#4 ++ 2#4 : BitVec (4 + 4)) ↔ c = 0#4 ∧ d = 2#4)

theorem byte_eq_three_iff {c d : BitVec 4} : c ++ d = 3#8 ↔ c = 0#4 ∧ d = 3#4 :=
  (byte_append_eq_iff : c ++ d = (0#4 ++ 3#4 : BitVec (4 + 4)) ↔ c = 0#4 ∧ d = 3#4)

theorem word_eq_halt_iff {b c d : BitVec 4} : wordOfNibbles 0#4 b c d = 0#16 ↔ b = 0#4 ∧ c = 0#4 ∧ d = 0#4 :=
  (wordOfNibbles_inj (a' := 0#4) (b' := 0#4) (c' := 0#4) (d' := 0#4)).trans (and_iff_right rfl)

theorem word_eq_nop_iff {b c d : BitVec 4} : wordOfNibbles 6#4 b c d = 0x6000#16 ↔ b = 0#4 ∧ c = 0#4 ∧ d = 0#4 :=
  (wordOfNibbles_inj (a' := 6#4) (b' := 0#4) (c' := 0#4) (d' := 0#4)).trans (and_iff_right rfl)

/-! ### The canonical words, nibble by nibble (R52, R60) -/

/-- The four nibbles of the word of an instruction in its canonical spelling. -/
inductive Layout : Instr → BitVec 4 → BitVec 4 → BitVec 4 → BitVec 4 → Prop
  | halt : Layout .halt 0 0 0 0
  | read (x : RegNo) : Layout (.read x) 0 x 0 1
  | write (x : RegNo) : Layout (.write x) 0 x 0 2
  | jumpi (x : RegNo) : Layout (.jumpi x) 0 x 0 3
  | data0 (b c d : BitVec 4) (hhalt : ¬(b = 0 ∧ c = 0 ∧ d = 0)) (h : c = 0 → d ≠ 1 ∧ d ≠ 2 ∧ d ≠ 3) :
      Layout (.data (wordOfNibbles 0 b c d)) 0 b c d
  | loadn (x c d : BitVec 4) : Layout (.loadn x (c ++ d)) 1 x c d
  | load (x c d : BitVec 4) : Layout (.load x (c ++ d)) 2 x c d
  | store (x c d : BitVec 4) : Layout (.store x (c ++ d)) 3 x c d
  | loadi (x y : RegNo) : Layout (.loadi x y) 4 x y 0
  | storei (x y : RegNo) : Layout (.storei x y) 4 x y 1
  | data4 (b c d : BitVec 4) (h0 : d ≠ 0) (h1 : d ≠ 1) : Layout (.data (wordOfNibbles 4 b c d)) 4 b c d
  | addn (x c d : BitVec 4) : Layout (.addn x (c ++ d)) 5 x c d
  | nop : Layout .nop 6 0 0 0
  | mov (x y : RegNo) (h : ¬(x = 0 ∧ y = 0)) : Layout (.mov x y) 6 x y 0
  | add (x y z : RegNo) (h : z ≠ 0) : Layout (.add x y z) 6 x y z
  | neg (x y : RegNo) : Layout (.neg x y) 7 x 0 y
  | sub (x y z : RegNo) (h : y ≠ 0) : Layout (.sub x y z) 7 x y z
  | mul (x y z : RegNo) : Layout (.mul x y z) 8 x y z
  | div (x y z : RegNo) : Layout (.div x y z) 9 x y z
  | mod (x y z : RegNo) : Layout (.mod x y z) 10 x y z
  | jump (c d : BitVec 4) : Layout (.jump (c ++ d)) 11 0 c d
  | call (x c d : BitVec 4) (h : x ≠ 0) : Layout (.call x (c ++ d)) 11 x c d
  | jeqz (x c d : BitVec 4) : Layout (.jeqz x (c ++ d)) 12 x c d
  | jnez (x c d : BitVec 4) : Layout (.jnez x (c ++ d)) 13 x c d
  | jgtz (x c d : BitVec 4) : Layout (.jgtz x (c ++ d)) 14 x c d
  | jltz (x c d : BitVec 4) : Layout (.jltz x (c ++ d)) 15 x c d

/-- What the decoder gives is laid out as it was read. -/
theorem layout_instrOfNibbles (a b c d : BitVec 4) : Layout (instrOfNibbles a b c d) a b c d := by
  rcases nibble_cases a with h | h | h | h | h | h | h | h | h | h | h | h | h | h | h | h <;> subst h
  · show Layout (if b = 0 ∧ c = 0 ∧ d = 0 then _ else if c = 0 ∧ d = 1 then _ else if c = 0 ∧ d = 2 then _ else
      if c = 0 ∧ d = 3 then _ else _) _ _ _ _
    split_ifs with hhalt hread hwrite hjumpi
    · obtain ⟨rfl, rfl, rfl⟩ := hhalt; exact .halt
    · obtain ⟨rfl, rfl⟩ := hread; exact .read b
    · obtain ⟨rfl, rfl⟩ := hwrite; exact .write b
    · obtain ⟨rfl, rfl⟩ := hjumpi; exact .jumpi b
    · exact .data0 b c d hhalt fun hc =>
        ⟨fun hd => hread ⟨hc, hd⟩, fun hd => hwrite ⟨hc, hd⟩, fun hd => hjumpi ⟨hc, hd⟩⟩
  · exact .loadn b c d
  · exact .load b c d
  · exact .store b c d
  · show Layout (if d = 0 then _ else if d = 1 then _ else _) _ _ _ _
    split_ifs with h0 h1
    · subst h0; exact .loadi b c
    · subst h1; exact .storei b c
    · exact .data4 b c d h0 h1
  · exact .addn b c d
  · show Layout (if b = 0 ∧ c = 0 ∧ d = 0 then _ else if d = 0 then _ else _) _ _ _ _
    split_ifs with hnop hd
    · obtain ⟨rfl, rfl, rfl⟩ := hnop; exact .nop
    · subst hd; exact .mov b c (fun h => hnop ⟨h.1, h.2, rfl⟩)
    · exact .add b c d hd
  · show Layout (if c = 0 then _ else _) _ _ _ _
    split_ifs with hc
    · subst hc; exact .neg b d
    · exact .sub b c d hc
  · exact .mul b c d
  · exact .div b c d
  · exact .mod b c d
  · show Layout (if b = 0 then _ else _) _ _ _ _
    split_ifs with hb
    · subst hb; exact .jump c d
    · exact .call b c d hb
  · exact .jeqz b c d
  · exact .jnez b c d
  · exact .jgtz b c d
  · exact .jltz b c d

/-- A format whose last byte is given by its nibbles. -/
theorem append_byte_eq (a b c d : BitVec 4) :
    (a ++ b ++ (c ++ d : BitVec (4 + 4)) : BitVec (4 + 4 + (4 + 4))) = wordOfNibbles a b c d := by
  refine BitVec.eq_of_toNat_eq ?_
  rw [toNat_wordOfNibbles, toNat_append, toNat_append, toNat_append]
  omega

/-- The layout fixes the word. -/
theorem Layout.encode_eq {i : Instr} {a b c d : BitVec 4} (h : Layout i a b c d) :
    encode i = wordOfNibbles a b c d := by
  cases h with
  | halt | nop | data0 | data4 => rfl
  | read _ => exact append_byte_eq 0 _ 0 1
  | write _ => exact append_byte_eq 0 _ 0 2
  | jumpi _ => exact append_byte_eq 0 _ 0 3
  | loadn | load | store | addn | jump | call | jeqz | jnez | jgtz | jltz => exact append_byte_eq _ _ _ _
  | loadi | storei | mov | add | sub | mul | div | mod | neg => rfl

/-- The layout fixes the instruction. -/
theorem Layout.instr_eq {i : Instr} {a b c d : BitVec 4} (h : Layout i a b c d) : instrOfNibbles a b c d = i := by
  cases h with
  | data0 _ _ _ hhalt hlow =>
    show (if _ then _ else if _ then _ else if _ then _ else if _ then _ else _) = _
    rw [if_neg hhalt, if_neg (fun h => (hlow h.1).1 h.2), if_neg (fun h => (hlow h.1).2.1 h.2),
      if_neg (fun h => (hlow h.1).2.2 h.2)]
  | data4 _ _ _ h0 h1 =>
    show (if _ then _ else if _ then _ else _) = _
    rw [if_neg h0, if_neg h1]
  | mov _ _ h =>
    show (if _ then _ else if _ then _ else _) = _
    rw [if_neg (fun hn => h ⟨hn.1, hn.2.1⟩), if_pos rfl]
  | add _ _ _ h =>
    show (if _ then _ else if _ then _ else _) = _
    rw [if_neg (fun hn => h hn.2.2), if_neg h]
  | sub _ _ _ h => exact if_neg h
  | call _ _ _ h => exact if_neg h
  | read x =>
    show (if _ then _ else if _ then _ else _) = _
    rw [if_neg (by simp), if_pos ⟨rfl, rfl⟩]
  | write x =>
    show (if _ then _ else if _ then _ else if _ then _ else _) = _
    rw [if_neg (by simp), if_neg (by simp), if_pos ⟨rfl, rfl⟩]
  | jumpi x =>
    show (if _ then _ else if _ then _ else if _ then _ else if _ then _ else _) = _
    rw [if_neg (by simp), if_neg (by simp), if_neg (by simp), if_pos ⟨rfl, rfl⟩]
  | halt | loadn | load | store | loadi | storei | addn | nop | neg | mul | div | mod | jump | jeqz | jnez | jgtz
  | jltz => rfl

theorem Layout.decode_encode {i : Instr} {a b c d : BitVec 4} (h : Layout i a b c d) :
    decode (encode i) = .instr i := by
  rw [h.encode_eq, decode_wordOfNibbles, h.instr_eq]

theorem wellFormed_mov_iff (x y : RegNo) : Instr.WellFormed (.mov x y) = true ↔ ¬(x = 0 ∧ y = 0) := by
  simp only [Instr.WellFormed, Bool.not_eq_true', Bool.and_eq_false_iff, decide_eq_false_iff_not]
  tauto

/-- A data word of the first group of R60, by its nibbles. -/
theorem isDataWord_zero (b c d : BitVec 4) :
    isDataWord (wordOfNibbles 0 b c d) = true ↔
      ¬(b = 0 ∧ c = 0 ∧ d = 0) ∧ (c = 0 → d ≠ 1 ∧ d ≠ 2 ∧ d ≠ 3) := by
  rw [isDataWord, wordOfNibbles_nib3, if_pos rfl, wordOfNibbles_byte]
  simp only [Bool.not_eq_true', Bool.or_eq_false_iff, decide_eq_false_iff_not, BitVec.ofNat_eq_ofNat,
    word_eq_halt_iff, byte_eq_one_iff, byte_eq_two_iff, byte_eq_three_iff]
  tauto

/-- A data word of the second group of R60, by its nibbles. -/
theorem isDataWord_four (b c d : BitVec 4) : isDataWord (wordOfNibbles 4 b c d) = true ↔ d ≠ 0 ∧ d ≠ 1 := by
  rw [isDataWord, wordOfNibbles_nib3, if_neg (by decide), wordOfNibbles_nib0]
  simp

/-- No word of another top nibble is a data word. -/
theorem isDataWord_other {a : BitVec 4} (b c d : BitVec 4) (h0 : a ≠ 0) (h4 : a ≠ 4) :
    isDataWord (wordOfNibbles a b c d) = false := by
  rw [isDataWord, wordOfNibbles_nib3, if_neg h0, decide_eq_false h4, Bool.false_and]

/-- What is laid out is in its canonical spelling. -/
theorem Layout.wellFormed {i : Instr} {a b c d : BitVec 4} (h : Layout i a b c d) : i.WellFormed = true := by
  cases h with
  | data0 b c d hhalt hlow => exact (isDataWord_zero b c d).2 ⟨hhalt, hlow⟩
  | data4 b c d h0 h1 => exact (isDataWord_four b c d).2 ⟨h0, h1⟩
  | mov _ _ h => exact (wellFormed_mov_iff _ _).2 h
  | add _ _ _ h | sub _ _ _ h | call _ _ _ h => simpa [Instr.WellFormed] using h
  | _ => rfl

/-- A data word is laid out in one of the two groups of R60. -/
theorem layout_of_isDataWord {n : Word} (h : isDataWord n = true) : ∃ a b c d, Layout (.data n) a b c d := by
  induction n using forall_word_of_nibbles with | h a b c d => ?_
  refine ⟨a, b, c, d, ?_⟩
  by_cases h0 : a = 0
  · subst h0
    obtain ⟨hhalt, hlow⟩ := (isDataWord_zero b c d).1 h
    exact .data0 b c d hhalt hlow
  · by_cases h4 : a = 4
    · subst h4
      obtain ⟨hd0, hd1⟩ := (isDataWord_four b c d).1 h
      exact .data4 b c d hd0 hd1
    · rw [isDataWord_other b c d h0 h4] at h; cases h

/-- Every instruction in its canonical spelling has a layout. -/
theorem layout_of_wellFormed {i : Instr} (h : i.WellFormed = true) : ∃ a b c d, Layout i a b c d := by
  cases i with
  | halt => exact ⟨_, _, _, _, .halt⟩
  | read x => exact ⟨_, _, _, _, .read x⟩
  | write x => exact ⟨_, _, _, _, .write x⟩
  | jumpi x => exact ⟨_, _, _, _, .jumpi x⟩
  | loadn x s => rw [← byte_of_nibbles s]; exact ⟨_, _, _, _, .loadn x _ _⟩
  | load x u => rw [← byte_of_nibbles u]; exact ⟨_, _, _, _, .load x _ _⟩
  | store x u => rw [← byte_of_nibbles u]; exact ⟨_, _, _, _, .store x _ _⟩
  | loadi x y => exact ⟨_, _, _, _, .loadi x y⟩
  | storei x y => exact ⟨_, _, _, _, .storei x y⟩
  | addn x s => rw [← byte_of_nibbles s]; exact ⟨_, _, _, _, .addn x _ _⟩
  | nop => exact ⟨_, _, _, _, .nop⟩
  | mov x y => exact ⟨_, _, _, _, .mov x y ((wellFormed_mov_iff x y).1 h)⟩
  | add x y z => exact ⟨_, _, _, _, .add x y z (by simpa [Instr.WellFormed] using h)⟩
  | neg x y => exact ⟨_, _, _, _, .neg x y⟩
  | sub x y z => exact ⟨_, _, _, _, .sub x y z (by simpa [Instr.WellFormed] using h)⟩
  | mul x y z => exact ⟨_, _, _, _, .mul x y z⟩
  | div x y z => exact ⟨_, _, _, _, .div x y z⟩
  | mod x y z => exact ⟨_, _, _, _, .mod x y z⟩
  | jump u => rw [← byte_of_nibbles u]; exact ⟨_, _, _, _, .jump _ _⟩
  | call x u =>
    rw [← byte_of_nibbles u]
    exact ⟨_, _, _, _, .call x _ _ (by simpa [Instr.WellFormed] using h)⟩
  | jeqz x u => rw [← byte_of_nibbles u]; exact ⟨_, _, _, _, .jeqz x _ _⟩
  | jnez x u => rw [← byte_of_nibbles u]; exact ⟨_, _, _, _, .jnez x _ _⟩
  | jgtz x u => rw [← byte_of_nibbles u]; exact ⟨_, _, _, _, .jgtz x _ _⟩
  | jltz x u => rw [← byte_of_nibbles u]; exact ⟨_, _, _, _, .jltz x _ _⟩
  | data n => exact layout_of_isDataWord h

/-- Settles O2: a canonical spelling has a layout, and a layout is what the decoder reads back. -/
theorem decodeEncodeWellFormed : Obligations.DecodeEncodeWellFormed := by
  intro i h
  obtain ⟨a, b, c, d, hl⟩ := layout_of_wellFormed h
  exact hl.decode_encode

/-- The layout of every decoded word. -/
theorem layout_decodedInstr (w : Word) :
    Layout (decodedInstr w) (w.extractLsb' 12 4) (w.extractLsb' 8 4) (w.extractLsb' 4 4) (w.extractLsb' 0 4) :=
  layout_instrOfNibbles _ _ _ _

/-- Settles O3: what is decoded is laid out as the word is, so it is canonical and its word is the one decoded. -/
theorem encodeDecodeEveryWord : Obligations.EncodeDecodeEveryWord := by
  intro w
  have hl := layout_decodedInstr w
  exact ⟨decodedInstr w, decode_eq w, hl.wellFormed, hl.encode_eq.trans (wordOfNibbles_of w)⟩

/-- A word decodes as data exactly if it is a data word. -/
theorem decode_data_iff (w : Word) : decode w = .instr (.data w) ↔ isDataWord w = true := by
  constructor
  · intro h
    have hw := (layout_decodedInstr w).wellFormed
    rw [decode_eq, Decoded.instr.injEq] at h
    rwa [h] at hw
  · intro h
    exact decodeEncodeWellFormed (.data w) h

/-- Settles O8: R60's two groups by the nibbles, and the nibbles by division. -/
theorem dataWordsAreExactly : Obligations.DataWordsAreExactly := by
  refine forall_word_of_nibbles fun a b c d => ?_
  have ha := a.isLt
  have hb := b.isLt
  have hc := c.isLt
  have hd := d.isLt
  rw [decode_data_iff, toNat_wordOfNibbles]
  by_cases h0 : a = 0
  · subst h0
    rw [isDataWord_zero]
    simp only [BitVec.toNat_eq, ne_eq, BitVec.ofNat_eq_ofNat, BitVec.toNat_ofNat]
    omega
  · by_cases h4 : a = 4
    · subst h4
      rw [isDataWord_four]
      simp only [BitVec.toNat_eq, ne_eq, BitVec.ofNat_eq_ofNat, BitVec.toNat_ofNat]
      omega
    · rw [isDataWord_other b c d h0 h4]
      simp only [BitVec.toNat_eq, BitVec.ofNat_eq_ofNat, BitVec.toNat_ofNat] at h0 h4
      simp only [Bool.false_eq_true, false_iff]
      omega

/-! ### The decoder block (R57) -/

theorem table_mnemonic_index : ∀ k (h : k < opcodeTable.length), (opcodeTable[k]).mnemonic.index = k := by decide

/-- The priority encoder's output is the index of the decoded mnemonic. -/
theorem findIdx_isMatch (w : Word) :
    opcodeTable.findIdx (fun e => e.isMatch w) = (decodedInstr w).mnemonic.index := by
  have hfirst := firstMatch_wordOfNibbles (w.extractLsb' 12 4) (w.extractLsb' 8 4) (w.extractLsb' 4 4)
    (w.extractLsb' 0 4)
  rw [wordOfNibbles_of] at hfirst
  obtain ⟨e, he, hm⟩ := Option.map_eq_some_iff.1 hfirst
  obtain ⟨hmatch, k, hk, rfl, hbefore⟩ := List.find?_eq_some_iff_getElem.1 he
  have hidx : opcodeTable.findIdx (fun e => e.isMatch w) = k :=
    (List.findIdx_eq hk).2 ⟨hmatch, fun j hj => by simpa using hbefore j hj⟩
  rw [hidx, decodedInstr, ← hm, table_mnemonic_index k hk]

theorem Mnemonic.index_lt (m : Mnemonic) : m.index < 25 := by cases m <;> decide

theorem decoderPorts_op_toNat (w : Word) : (decoderPorts w).op.toNat = (decodedInstr w).mnemonic.index := by
  have hlt := (decodedInstr w).mnemonic.index_lt
  show (BitVec.ofNat 5 (opcodeTable.findIdx (fun e => e.isMatch w))).toNat = _
  rw [findIdx_isMatch, BitVec.toNat_ofNat]
  omega

/-- The mnemonics in table order have their own indices. -/
theorem table_mnemonic (m : Mnemonic) : (tableEntry m).mnemonic = m := by cases m <;> rfl

theorem Mnemonic.index_inj {m n : Mnemonic} (h : m.index = n.index) : m = n := by
  rw [← table_mnemonic m, ← table_mnemonic n, tableEntry, tableEntry, h]

/-- A value of `op` names one mnemonic. -/
theorem decoderPorts_op_eq_iff (w : Word) (m : Mnemonic) :
    (decoderPorts w).op = BitVec.ofNat 5 m.index ↔ (decodedInstr w).mnemonic = m := by
  have hlt := m.index_lt
  rw [BitVec.toNat_eq, decoderPorts_op_toNat, BitVec.toNat_ofNat, Nat.mod_eq_of_lt (by omega)]
  exact ⟨Mnemonic.index_inj, fun h => h ▸ rfl⟩

/-- The tree on the top nibble splits as the table's first match does. -/
theorem decodeTree_wordOfNibbles (a b c d : BitVec 4) :
    decodeTree (wordOfNibbles a b c d) = (instrOfNibbles a b c d).mnemonic := by
  simp only [decodeTree, instrOfNibbles, wordOfNibbles_nib3, wordOfNibbles_nib2, wordOfNibbles_nib1,
    wordOfNibbles_nib0, wordOfNibbles_byte]
  rcases nibble_cases a with h | h | h | h | h | h | h | h | h | h | h | h | h | h | h | h <;> subst h
  all_goals
    simp [word_eq_halt_iff, word_eq_nop_iff, byte_eq_one_iff, byte_eq_two_iff, byte_eq_three_iff,
      apply_ite Instr.mnemonic]
    rfl

theorem decodeTree_eq (w : Word) : decodeTree w = (decodedInstr w).mnemonic := by
  have h := decodeTree_wordOfNibbles (w.extractLsb' 12 4) (w.extractLsb' 8 4) (w.extractLsb' 4 4) (w.extractLsb' 0 4)
  rwa [wordOfNibbles_of] at h

/-- Settles O5: `op` is the decoded mnemonic's index, whose values 13 and 24 select `rY` and `illegal`; the other taps
are the block's own. -/
theorem decoderBlockAgreesWithDecoder : Obligations.DecoderBlockAgreesWithDecoder := by
  intro w i h
  rw [decode_eq, Decoded.instr.injEq] at h
  subst h
  have hneg := decoderPorts_op_eq_iff w .neg
  have hdata := decoderPorts_op_eq_iff w .data
  refine ⟨decoderPorts_op_toNat w, rfl, ?_, rfl, rfl, rfl, ?_, decodeTree_eq w⟩
  · exact ite_congr (propext hneg) (fun _ => rfl) (fun _ => rfl)
  · rw [← hdata]
    exact decide_eq_true_iff

/-- Settles O1: the table decoder evaluated at each row's word. -/
theorem sampleWordsDecode : Obligations.SampleWordsDecode := by
  unfold Obligations.SampleWordsDecode
  decide

/-- Settles O4: the table is finite, and its bits are compared entry by entry. -/
theorem tableMeetsWidthInvariant : Obligations.TableMeetsWidthInvariant := by
  unfold Obligations.TableMeetsWidthInvariant
  decide

end Sys2Proof

/-! ## Proofs: what an instruction and a step can do (spec/40_execution_cycle.md) -/

namespace Sys2Proof.Machine

/-! ### The shared operations, case by case -/

/-- The range check of the writeback fails: the integer does not fit, and its register is checked (R79). -/
def Overflows (s : State) (rd : RegNo) (v : Int) : Prop :=
  fits16 v = false ∧ (rd ≠ 0 ∨ s.params.checkOvfR0 = true)

theorem writebackFrom_overflow {s : State} {rd : RegNo} {v : Int} (h : Overflows s rd v) (t : State) :
    writebackFrom s rd v t = .next (s.raise .integerOverflow .none) := by
  rcases writebackFrom_cases s rd v t with ⟨-, -, hw⟩ | ⟨hfit | ⟨hrd, hc⟩, -⟩
  · exact hw
  · rw [h.1] at hfit; cases hfit
  · rcases h.2 with hne | hc'
    · exact absurd hrd hne
    · rw [hc] at hc'; cases hc'

theorem writebackFrom_written {s : State} {rd : RegNo} {v : Int} (h : ¬Overflows s rd v) (t : State) :
    writebackFrom s rd v t = .next (t.setReg rd (word v)).retire := by
  rcases writebackFrom_cases s rd v t with ⟨hfit, hrd, -⟩ | ⟨-, hw⟩
  · exact absurd ⟨hfit, hrd⟩ h
  · exact hw

theorem loadFrom_valid {s : State} {ea : Int} (h : validAddress s.codeSize ea = true) (rd : RegNo) :
    loadFrom s rd ea = .next (s.setReg rd (s.mem.read ea.toNat)).retire := by
  rcases loadFrom_cases s rd ea with ⟨-, hl⟩ | ⟨hv, -⟩
  · exact hl
  · rw [h] at hv; cases hv

theorem loadFrom_invalid {s : State} {ea : Int} (h : validAddress s.codeSize ea = false) (rd : RegNo) :
    loadFrom s rd ea = .next (s.raise .invalidMemoryTarget (.addr ea)) := by
  rcases loadFrom_cases s rd ea with ⟨hv, -⟩ | ⟨-, hl⟩
  · rw [h] at hv; cases hv
  · exact hl

theorem storeTo_valid {s : State} {ea : Int} (h : validAddress s.codeSize ea = true) (w : Word) :
    storeTo s ea w = .next ({ s with mem := s.mem.write ea.toNat w } : State).retire := by
  rcases storeTo_cases s ea w with ⟨-, hl⟩ | ⟨hv, -⟩
  · exact hl
  · rw [h] at hv; cases hv

theorem storeTo_invalid {s : State} {ea : Int} (h : validAddress s.codeSize ea = false) (w : Word) :
    storeTo s ea w = .next (s.raise .invalidMemoryTarget (.addr ea)) := by
  rcases storeTo_cases s ea w with ⟨hv, -⟩ | ⟨-, hl⟩
  · rw [h] at hv; cases hv
  · exact hl

theorem transferThen_valid {s : State} {p : Int} (h : validTarget s.codeSize p = true) (rest : State → Result) :
    transferThen s p rest = rest { s with pc := word p } := if_pos h

theorem transferThen_invalid {s : State} {p : Int} (h : validTarget s.codeSize p = false) (rest : State → Result) :
    transferThen s p rest = .next (s.raise .invalidJumpTarget (.target p)) :=
  if_neg (by rw [h]; exact Bool.false_ne_true)

theorem branchIf_taken (s : State) (p : Int) : branchIf s true p = transfer s p := rfl

theorem branchIf_untaken_invalid {s : State} {p : Int} (hc : s.params.checkUntakenTarget = true)
    (hv : validTarget s.codeSize p = false) :
    branchIf s false p = .next (s.raise .invalidJumpTarget (.target p)) := by
  simp [branchIf, badTarget, hc, hv]

theorem branchIf_untaken {s : State} {p : Int}
    (h : s.params.checkUntakenTarget = true → validTarget s.codeSize p = true) :
    branchIf s false p = .next s.retire := by
  cases hc : s.params.checkUntakenTarget with
  | true => simp [branchIf, complete, h hc]
  | false => simp [branchIf, complete, hc]

/-! ### The change an instruction makes, field by field -/

theorem Commits.run_kept {i : Instr} {s u : State} (h : Commits i s u) :
    u.codeSize = s.codeSize ∧ u.params = s.params ∧ u.faultRecord = s.faultRecord ∧ u.prompting = s.prompting ∧
      u.dbg = s.dbg := by
  cases h <;> simp [State.consoleSeen]

theorem Commits.status_cases {i : Instr} {s u : State} (h : Commits i s u) :
    u.status = s.status ∨ (i = .halt ∧ u.status = .halted) := by
  cases h <;> simp [State.consoleSeen]

theorem Commits.mem_cases {i : Instr} {s u : State} (h : Commits i s u) :
    u.mem = s.mem ∨ ∃ ea w, memWrites i s = some (ea, w) ∧ validAddress s.codeSize ea = true ∧
      u.mem = s.mem.write ea.toNat w := by
  cases h with
  | memory _ _ ea w _ hm hv => exact .inr ⟨ea, w, hm, hv, rfl⟩
  | _ => left; simp [State.consoleSeen]

theorem Commits.out_cases {i : Instr} {s u : State} (h : Commits i s u) :
    u.out = s.out ∨ ∃ rX, i = .write rX ∧ u.out = s.out ++ [s.x rX] := by
  cases h with
  | output rX => exact .inr ⟨rX, rfl, rfl⟩
  | _ => left; simp [State.consoleSeen]

theorem Commits.pc_cases {i : Instr} {s u : State} (h : Commits i s u) :
    u.pc = s.pc ∨ ∃ t, validTarget s.codeSize t = true ∧ u.pc = word t := by
  cases h with
  | pc _ _ t _ hv => exact .inr ⟨t, hv, rfl⟩
  | link _ _ u w hv => exact .inr ⟨_, hv, by simp⟩
  | _ => left; simp [State.consoleSeen]

theorem Commits.waiting_cases {i : Instr} {s u : State} (h : Commits i s u) :
    u.waiting = false ∨ (isRead i = false ∧ u.waiting = s.waiting) := by
  cases h with
  | input => left; simp [State.consoleSeen]
  | nothing _ _ hi | register _ _ _ _ hi | memory _ _ _ _ hi | pc _ _ _ hi => exact .inr ⟨hi, by simp⟩
  | link | output | halt => exact .inr ⟨rfl, by simp⟩

theorem Commits.reg_of_ne {i : Instr} {s u : State} (h : Commits i s u) {r : RegNo} (hr : regWrites i ≠ some r) :
    u.reg r = s.reg r := by
  have hset (p : State) (rd : RegNo) (w : Word) (hrd : regWrites i = some rd) (hp : p.reg r = s.reg r) :
      (p.setReg rd w).reg r = s.reg r := by
    rw [State.reg_setReg, if_neg (by rintro ⟨rfl, -⟩; exact hr hrd), hp]
  cases h with
  | register _ _ rd w _ hw => exact hset _ rd w hw rfl
  | link | input => exact hset _ _ _ rfl rfl
  | nothing | memory | pc | output | halt => rfl

/-! ### The execute phase -/

theorem exec_codeSize_params {i : Instr} {s t : State} (he : exec i s = .next t) :
    t.codeSize = s.codeSize ∧ t.params = s.params := by
  cases ends_of_exec he with
  | completes _ _ u h =>
    obtain ⟨hsize, hparams, -⟩ := h.run_kept
    exact ⟨hsize, hparams⟩
  | raises | waits | inputEnds | inputAborts => exact ⟨rfl, rfl⟩

theorem exec_mem_cases {i : Instr} {s t : State} (he : exec i s = .next t) :
    t.mem = s.mem ∨ ∃ ea w, memWrites i s = some (ea, w) ∧ validAddress s.codeSize ea = true ∧
      t.mem = s.mem.write ea.toNat w := by
  cases ends_of_exec he with
  | completes _ _ u h => exact h.mem_cases
  | raises | waits | inputEnds | inputAborts => exact .inl rfl

theorem exec_out_cases {i : Instr} {s t : State} (he : exec i s = .next t) :
    t.out = s.out ∨ ∃ rX, i = .write rX ∧ t.out = s.out ++ [s.x rX] := by
  cases ends_of_exec he with
  | completes _ _ u h => exact h.out_cases
  | raises | waits | inputEnds | inputAborts => exact .inl rfl

/-- A running machine's instruction that faults raises its fault in the state it began in, the console's answer apart;
and no instruction's rule names BAD_INSTRUCTION. -/
theorem exec_fault_cases {i : Instr} {s t : State} {f : RunFault} (hrun : s.status = .running)
    (he : exec i s = .next t) (hf : t.status = .fault f) :
    ∃ (u : State) (info : FaultInfo), (u = s ∨ u = s.consoleSeen false) ∧ t = u.raise f info ∧ f ≠ .badInstruction := by
  cases ends_of_exec he with
  | completes _ _ u h =>
    rcases h.status_cases with hs | ⟨-, hs⟩ <;> rw [State.retire_status, hs] at hf
    · rw [hrun] at hf; cases hf
    · cases hf
  | raises _ _ g info h =>
    cases hf
    exact ⟨s, info, .inl rfl, rfl, by rintro rfl; cases h⟩
  | waits =>
    rw [show (s.consoleSeen true).status = s.status from rfl, hrun] at hf
    cases hf
  | inputEnds => cases hf; exact ⟨_, _, .inr rfl, rfl, by decide⟩
  | inputAborts => cases hf; exact ⟨_, _, .inr rfl, rfl, by decide⟩

/-- A faulting instruction of a running machine has taken its fault and left the storage of every register. -/
theorem exec_faultTaken {i : Instr} {s t : State} {f : RunFault} (hrun : s.status = .running)
    (he : exec i s = .next t) (hf : t.status = .fault f) : (∃ info, FaultTaken f info s t) ∧ t.regs = s.regs := by
  obtain ⟨u, info, rfl | rfl, rfl, -⟩ := exec_fault_cases hrun he hf
  · exact ⟨⟨info, faultTaken_raise u f info⟩, rfl⟩
  · exact ⟨⟨info, faultTaken_raise (s.consoleSeen false) f info⟩, rfl⟩

/-- Settles O10: a completion ends in `State.retire`, which forces register 0; a fault is raised in the state the
instruction began in. -/
theorem registerZeroForcedAtEnd : Obligations.RegisterZeroForcedAtEnd := by
  intro i s t hrun he
  refine ⟨fun hnofault hwait => ?_, fun f hf => (exec_faultTaken hrun he hf).2⟩
  cases ends_of_exec he with
  | completes _ _ u h => exact u.retire_regs_zero
  | raises _ _ f info => exact absurd rfl (hnofault f)
  | waits => cases hwait
  | inputEnds => exact absurd rfl (hnofault .endOfInput)
  | inputAborts => exact absurd rfl (hnofault .interrupted)

/-- Settles O44: the one change that sets HALTED is `halt`'s. -/
theorem onlyHaltHalts : Obligations.OnlyHaltHalts := by
  intro i s t hrun he
  constructor
  · intro hhalt
    cases ends_of_exec he with
    | completes _ _ u h =>
      rcases h.status_cases with hs | ⟨hi, -⟩
      · rw [State.retire_status, hs, hrun] at hhalt; cases hhalt
      · exact hi
    | waits =>
      rw [show (s.consoleSeen true).status = s.status from rfl, hrun] at hhalt
      cases hhalt
    | raises | inputEnds | inputAborts => cases hhalt
  · rintro rfl
    cases he
    rfl

/-! ### What a step hands to the execute phase -/

@[simp] theorem instrOf_eq (w : Word) : instrOf w = some (decodedInstr w) := by
  simp only [instrOf, decode_eq]

theorem withDecoded_eq (s : State) (go : Instr → State → Result) : withDecoded s go = go (decodedInstr s.iword) s :=
  withDecoded_instr (decode_eq s.iword) go

/-- What a look at the host and a fetch leave alone. -/
structure SameData (s t : State) : Prop where
  regs : t.regs = s.regs
  mem : t.mem = s.mem
  out : t.out = s.out
  codeSize : t.codeSize = s.codeSize
  params : t.params = s.params
  console : t.host.console = s.host.console

theorem SameData.refl (s : State) : SameData s s := ⟨rfl, rfl, rfl, rfl, rfl, rfl⟩

theorem SameData.trans {s t u : State} (h : SameData s t) (g : SameData t u) : SameData s u :=
  ⟨g.regs.trans h.regs, g.mem.trans h.mem, g.out.trans h.out, g.codeSize.trans h.codeSize, g.params.trans h.params,
    g.console.trans h.console⟩

/-- A machine that goes on running, or has faulted with the fault in its record; no step raises BAD_INSTRUCTION. -/
def RunsOrFaulted (t : State) : Prop :=
  t.status = .running ∨ ∃ r, t.status = .fault r.code ∧ t.faultRecord = some r ∧ r.code ≠ .badInstruction

theorem promptExecutes_iff (s : State) :
    s.promptExecutes = true ↔ s.host.prompt.head? = some (some .cont) ∨ s.host.prompt.head? = some (some .run) ∨
      s.host.prompt.head? = some (some .other) := by
  unfold State.promptExecutes
  match s.host.prompt with
  | [] => simp
  | none :: _ => simp
  | some a :: _ => cases a <;> simp

/-- A look at the prompt executes the paused instruction under a debugger that has left PAUSED, or runs none and
leaves the core as it was or interrupted. -/
theorem debuggerPrompt_spec (i : Instr) (q : State) :
    (q.promptExecutes = true ∧ ∃ d, d ≠ .terminated ∧
      debuggerPrompt i q = exec i { q.promptSeen with dbg := d, prompting := false }) ∨
    (q.promptExecutes = false ∧ debuggerPrompt i q = .next q.promptSeen) ∨
    (q.promptExecutes = false ∧ ∃ d,
      debuggerPrompt i q = .next { q.promptSeen.raise .interrupted .none with dbg := d }) := by
  rw [← Bool.not_eq_true, promptExecutes_iff]
  rcases debuggerPrompt_cases i q with ⟨hn, h⟩ | ⟨ha, h⟩ | ⟨ha, h⟩ | ⟨ha, h⟩ | ⟨ha, h⟩ | ⟨ha, h⟩
  · exact .inr (.inl ⟨by simp [hn], h⟩)
  · exact .inr (.inl ⟨by rcases ha with ha | ha | ha <;> simp [ha], h⟩)
  · exact .inl ⟨by tauto, _, by decide, h⟩
  · exact .inl ⟨by tauto, _, by decide, h⟩
  · exact .inr (.inr ⟨by simp [ha], _, h⟩)
  · exact .inr (.inr ⟨by simp [ha], _, h⟩)

theorem debuggerPrompt_runs (i : Instr) (q : State) (hrun : q.status = .running) :
    (q.promptExecutes = true ∧ ∃ p, debuggerPrompt i q = exec i p ∧ SameData q p ∧ p.status = .running ∧ p.pc = q.pc) ∨
    (q.promptExecutes = false ∧ ∃ t, debuggerPrompt i q = .next t ∧ SameData q t ∧ RunsOrFaulted t ∧ t.pc = q.pc) := by
  rcases debuggerPrompt_spec i q with ⟨hx, d, -, h⟩ | ⟨hx, h⟩ | ⟨hx, d, h⟩
  · exact .inl ⟨hx, _, h, ⟨rfl, rfl, rfl, rfl, rfl, rfl⟩, hrun, rfl⟩
  · exact .inr ⟨hx, _, h, ⟨rfl, rfl, rfl, rfl, rfl, rfl⟩, .inl hrun, rfl⟩
  · exact .inr ⟨hx, _, h, ⟨rfl, rfl, rfl, rfl, rfl, rfl⟩, .inr ⟨_, rfl, rfl, nofun⟩, rfl⟩

theorem executes_waiting {s : State} (hrun : s.status = .running) (hw : s.waiting = true) :
    s.executes = some (decodedInstr s.iword) := by
  simp [State.executes, hrun, hw]

theorem executes_prompting {s : State} (hrun : s.status = .running) (hw : s.waiting = false) (hp : s.prompting = true) :
    s.executes = if s.promptExecutes then some (decodedInstr s.iword) else none := by
  simp [State.executes, hrun, hw, hp]

theorem executes_boundary {s : State} (hrun : s.status = .running) (hw : s.waiting = false) (hp : s.prompting = false) :
    s.executes = if s.cancelRequested || !s.fetchOk || (s.dbg.pauses && !s.promptExecutes) then none
      else some (decodedInstr (s.iFetch s.pc)) := by
  simp [State.executes, hrun, hw, hp]

/-- The state of a core that pauses at the instruction it has just fetched. -/
def State.pausedAtFetch (s : State) : State := { s.fetched with dbg := .paused, prompting := true }

/-- After a fetch the step is a look at the prompt of the core paused there, or the execute phase. -/
theorem pauseOrExecute_fetched (s : State) (i : Instr) :
    pauseOrExecute i s.fetched = if s.dbg.pauses then debuggerPrompt i s.pausedAtFetch else exec i s.fetched := rfl

/-- Everything a running machine's step can do: it is the execute phase of the instruction `State.executes` names, in a
state with the same data, or it runs none and leaves the data alone. -/
theorem step_spec {s : State} (hrun : s.status = .running) :
    (∃ i p, s.executes = some i ∧ step s = exec i p ∧ SameData s p ∧ p.status = .running ∧
      (p.pc = s.pc ∨ p.pc = s.pc + 1)) ∨
    (s.executes = none ∧ ∃ t, step s = .next t ∧ SameData s t ∧ RunsOrFaulted t ∧
      (t.pc = s.pc ∨ t.pc = s.pc + 1)) := by
  rw [step_of_running hrun]
  rcases stepRunning_cases s with
    ⟨hw, h⟩ | ⟨hw, hp, h⟩ | ⟨hw, hp, hc, h⟩ | ⟨hw, hp, hc, ho, h⟩ | ⟨hw, hp, hc, ho, h⟩
  · rw [h, withDecoded_eq, executes_waiting hrun hw]
    exact .inl ⟨_, s, rfl, rfl, .refl s, hrun, .inl rfl⟩
  · rw [h, withDecoded_eq, executes_prompting hrun hw hp]
    rcases debuggerPrompt_runs (decodedInstr s.iword) s hrun with ⟨hx, p, hp, hd, hr, hpc⟩ | ⟨hx, t, ht, hd, hr, hpc⟩
    · exact .inl ⟨_, p, if_pos hx, hp, hd, hr, .inl hpc⟩
    · exact .inr ⟨by simp [hx], t, ht, hd, hr, .inl hpc⟩
  · rw [h, executes_boundary hrun hw hp]
    exact .inr ⟨by simp [hc], _, rfl, ⟨rfl, rfl, rfl, rfl, rfl, rfl⟩, .inr ⟨_, rfl, rfl, nofun⟩, .inl rfl⟩
  · rw [h, executes_boundary hrun hw hp]
    exact .inr ⟨by simp [ho], _, rfl, ⟨rfl, rfl, rfl, rfl, rfl, rfl⟩, .inr ⟨_, rfl, rfl, nofun⟩, .inl rfl⟩
  · rw [h, withDecoded_eq, iword_afterFetch, executes_boundary hrun hw hp]
    have hfetch : SameData s s.pausedAtFetch := ⟨rfl, rfl, rfl, rfl, rfl, rfl⟩
    have hpause := pauseOrExecute_fetched s (decodedInstr (s.iFetch s.pc))
    cases hd : s.dbg.pauses with
    | false =>
      refine .inl ⟨decodedInstr (s.iFetch s.pc), s.fetched, by simp [hc, ho], ?_, ⟨rfl, rfl, rfl, rfl, rfl, rfl⟩, hrun,
        .inr rfl⟩
      rw [hd] at hpause
      exact hpause
    | true =>
      rw [hd, if_pos rfl] at hpause
      rcases debuggerPrompt_runs (decodedInstr (s.iFetch s.pc)) s.pausedAtFetch hrun with
        ⟨hx, p, hp, hs, hr, hpc⟩ | ⟨hx, t, ht, hs, hr, hpc⟩
      · have hx' : s.promptExecutes = true := hx
        exact .inl ⟨_, p, by simp [hc, ho, hx'], hpause.trans hp, hfetch.trans hs, hr, .inr hpc⟩
      · have hx' : s.promptExecutes = false := hx
        exact .inr ⟨by simp [hx'], t, hpause.trans ht, hfetch.trans hs, hr, .inr hpc⟩

theorem running_of_step {s t : State} (h : step s = .next t) : s.status = .running := by
  by_contra hn
  rw [step_of_not_running hn] at h
  cases h

/-- The two kinds of step that answer a next state. -/
theorem step_next_cases {s t : State} (h : step s = .next t) :
    (∃ i p, s.executes = some i ∧ exec i p = .next t ∧ SameData s p ∧ p.status = .running ∧
      (p.pc = s.pc ∨ p.pc = s.pc + 1)) ∨
    (s.executes = none ∧ SameData s t ∧ RunsOrFaulted t ∧ (t.pc = s.pc ∨ t.pc = s.pc + 1)) := by
  rcases step_spec (running_of_step h) with ⟨i, p, hx, hs, hd, hr, hpc⟩ | ⟨hx, t', hs, hd, hr, hpc⟩
  · exact .inl ⟨i, p, hx, hs.symm.trans h, hd, hr, hpc⟩
  · rw [h] at hs
    cases hs
    exact .inr ⟨hx, hd, hr, hpc⟩

/-- Settles O59: a machine that is not running executes nothing and takes no step; a running one does one of the two
things a step can do. -/
theorem stepExecutesAtMostOneInstruction : Obligations.StepExecutesAtMostOneInstruction := by
  intro s
  refine ⟨fun i hi => ?_, fun hnone t ht => ?_⟩
  · have hrun : s.status = .running := by
      by_contra hn
      simp [State.executes, hn] at hi
    rcases step_spec hrun with ⟨j, p, hj, hs, hd, hr, -⟩ | ⟨hnone, -⟩
    · rw [hi] at hj
      cases hj
      exact ⟨p, hs, hd.regs, hd.mem, hd.out, hd.codeSize, hd.params, hd.console, hr⟩
    · rw [hi] at hnone; cases hnone
  · rcases step_next_cases ht with ⟨i, p, hi, -⟩ | ⟨-, hd, -⟩
    · rw [hnone] at hi; cases hi
    · exact ⟨hd.regs, hd.mem, hd.out, hd.codeSize, hd.params, hd.console⟩

/-! ### Faults of a step (R122) -/

/-- A step that faults leaves the data as it was, and its record names the status's fault. -/
theorem step_fault {s t : State} {f : RunFault} (h : step s = .next t) (hf : t.status = .fault f) :
    t.regs = s.regs ∧ t.mem = s.mem ∧ t.out = s.out ∧ (t.pc = s.pc ∨ t.pc = s.pc + 1) ∧
      (∃ r, t.faultRecord = some r ∧ r.code = f) ∧ f ≠ .badInstruction := by
  rcases step_next_cases h with ⟨i, p, -, he, hd, hr, hpc⟩ | ⟨-, hd, hrf, hpc⟩
  · obtain ⟨u, info, hu, rfl, hbad⟩ := exec_fault_cases hr he hf
    rcases hu with rfl | rfl <;> exact ⟨hd.regs, hd.mem, hd.out, hpc, ⟨_, rfl, rfl⟩, hbad⟩
  · rcases hrf with hrun | ⟨r, hs, hrec, hbad⟩
    · rw [hrun] at hf; cases hf
    · rw [hs] at hf
      cases hf
      exact ⟨hd.regs, hd.mem, hd.out, hpc, ⟨r, hrec, rfl⟩, hbad⟩

theorem no_step_of_fault {t u : State} {f : RunFault} (hf : t.status = .fault f) : step t ≠ .next u :=
  (finishedMachineTakesNoStep t (by simp [hf])).2 u

theorem regsKept_of_regs {s t : State} (h : t.regs = s.regs) : RegsKept s t :=
  State.reg_congr (fun i _ => by rw [h])

theorem memKept_of_mem {s t : State} (h : t.mem = s.mem) : MemKept s t := fun a => by rw [h]

/-- Settles O39: a fault is raised in the state before the instruction's writes, and a faulted machine is finished. -/
theorem faultsArePrecise : Obligations.FaultsArePrecise := by
  refine ⟨fun i s t f hrun he hf => ⟨(exec_faultTaken hrun he hf).1, fun u => no_step_of_fault hf⟩, ?_⟩
  intro s t f h hf
  obtain ⟨hregs, hmem, hout, hpc, -⟩ := step_fault h hf
  exact ⟨regsKept_of_regs hregs, memKept_of_mem hmem, hout, hpc, fun u => no_step_of_fault hf⟩

/-- Settles O60: R119's numbers, and the record that every faulting step writes. -/
theorem faultCodesAreTheTable : Obligations.FaultCodesAreTheTable := by
  refine ⟨⟨rfl, rfl, rfl, rfl, rfl, rfl, rfl, rfl, rfl⟩, fun s t f h hf => ?_⟩
  obtain ⟨-, -, -, -, ⟨r, hrec, rfl⟩, -⟩ := step_fault h hf
  exact ⟨r, hrec, rfl⟩

/-- Settles O7: every word has a decoded instruction, so the marker's arm is never taken by a step. -/
theorem decoderIsTotal : Obligations.DecoderIsTotal := by
  refine ⟨fun w => ?_, fun s go => ⟨rfl, _, rfl, faultTaken_raise s _ _⟩, fun s t h hf => ?_⟩
  · rw [decode_eq]; exact Decoded.noConfusion
  · obtain ⟨-, -, -, -, -, hbad⟩ := step_fault h hf
    exact hbad rfl

/-- Settles O54: a step that runs no instruction leaves `OUT` alone, and `write` is the one that appends to it. -/
theorem outputOnlyGrows : Obligations.OutputOnlyGrows := by
  refine ⟨fun s t h => ?_, fun i s t he hne => ?_⟩
  · rcases step_next_cases h with ⟨i, p, -, he, hd, -⟩ | ⟨-, hd, -⟩
    · rcases exec_out_cases he with ho | ⟨rX, -, ho⟩
      · exact ⟨[], by rw [ho, hd.out, List.append_nil], by simp⟩
      · exact ⟨[p.x rX], by rw [ho, hd.out], le_refl 1⟩
    · exact ⟨[], by rw [hd.out, List.append_nil], by simp⟩
  · rcases exec_out_cases he with ho | ⟨rX, hi, -⟩
    · exact absurd ho hne
    · exact ⟨rX, hi⟩

end Sys2Proof.Machine

/-! ## Proofs: the memory along a run (spec/20_memory.md R43, R46) -/

namespace Sys2Proof.Machine

/-! ### The code region -/

/-- What R22 and R46 fix for a run: `codeSize`, the parameters and every word below `codeSize`; with the canonical form
of the memory, which the law of a write needs. -/
structure CodeKept (s t : State) : Prop where
  memWf : t.mem.wf = true
  codeSize : t.codeSize = s.codeSize
  params : t.params = s.params
  word : ∀ a, a < s.codeSize.val → t.mem.read a = s.mem.read a

theorem CodeKept.refl {s : State} (hw : s.mem.wf = true) : CodeKept s s := ⟨hw, rfl, rfl, fun _ _ => rfl⟩

theorem CodeKept.trans {s t u : State} (h : CodeKept s t) (g : CodeKept t u) : CodeKept s u :=
  ⟨g.memWf, g.codeSize.trans h.codeSize, g.params.trans h.params,
    fun a ha => (g.word a (h.codeSize ▸ ha)).trans (h.word a ha)⟩

theorem SameData.codeKept {s t : State} (h : SameData s t) (hw : s.mem.wf = true) : CodeKept s t :=
  ⟨h.mem ▸ hw, h.codeSize, h.params, fun a _ => by rw [h.mem]⟩

/-- A store goes to the data region, which the code region does not meet (R35). -/
theorem exec_codeKept {i : Instr} {s t : State} (hw : s.mem.wf = true) (he : exec i s = .next t) : CodeKept s t := by
  obtain ⟨hsize, hparams⟩ := exec_codeSize_params he
  rcases exec_mem_cases he with hm | ⟨ea, w, -, hv, hm⟩
  · exact ⟨hm ▸ hw, hsize, hparams, fun a _ => by rw [hm]⟩
  · have hrange := (validAddress_iff _ _).1 hv
    refine ⟨hm ▸ Memory.wf_write hw w (by omega), hsize, hparams, fun a ha => ?_⟩
    rw [hm, Memory.read_write_other hw w (by omega)]

theorem step_codeKept {s t : State} (hw : s.mem.wf = true) (h : step s = .next t) : CodeKept s t := by
  rcases step_next_cases h with ⟨i, p, -, he, hd, -⟩ | ⟨-, hd, -⟩
  · have hp := hd.codeKept hw
    exact hp.trans (exec_codeKept hp.memWf he)
  · exact hd.codeKept hw

/-! ### Runs of any length -/

theorem Core.run_succ_of_next {M : Host.Core} {s t : M.State} (n : Nat) (h : M.step s = .next t) :
    M.run (n + 1) s = M.run n t := by
  rw [Host.Core.run, h]

/-- A run that answers a next state has made its first step. -/
theorem Core.run_succ_next {M : Host.Core} {s u : M.State} {n : Nat} (h : M.run (n + 1) s = .next u) :
    ∃ t, M.step s = .next t ∧ M.run n t = .next u := by
  cases hs : M.step s with
  | next t => exact ⟨t, rfl, (Core.run_succ_of_next n hs).symm.trans h⟩
  | fault r => rw [Host.Core.run, hs] at h; cases h
  | refused r => rw [Host.Core.run, hs] at h; cases h

theorem run_codeKept (n : Nat) {s t : State} (hw : s.mem.wf = true) (h : Host.Core.run Sys2Proof.core n s = .next t) :
    CodeKept s t := by
  induction n generalizing s with
  | zero => cases h; exact .refl hw
  | succ n ih =>
    obtain ⟨u, hu, hrun⟩ := Core.run_succ_next h
    have hs := step_codeKept hw hu
    exact hs.trans (ih hs.memWf hrun)

/-- Settles O53: every step keeps the code region, by induction on the number of steps; and an address below
`codeSize` is outside the region a load may read. -/
theorem codeNeverChanges : Obligations.CodeNeverChanges := by
  refine ⟨fun n s t hw h => ?_, fun s rX rY u => ⟨fun hu => ?_, fun hy => ?_⟩⟩
  · have hk := run_codeKept n hw h
    exact ⟨hk.codeSize, hk.params, hk.word⟩
  · have hv : validAddress s.codeSize (u.toNat : Int) = false :=
      (validAddress_false_iff _ _).2 (.inl (by exact_mod_cast hu))
    exact exec_of_memReads_invalid (rd := rX) (by simp [memReads]) hv
  · exact exec_of_memReads_invalid (rd := rX) rfl ((validAddress_false_iff _ _).2 (.inl hy))

/-! ### A word of the data region along a stretch (R43) -/

/-- A store to an address of the data region completes with the word there. -/
theorem exec_of_memWrites {i : Instr} {s : State} {a : Int} {w : Word} (hm : memWrites i s = some (a, w))
    (hv : validAddress s.codeSize a = true) :
    exec i s = .next ({ s with mem := s.mem.write a.toNat w } : State).retire := by
  have hstore := storeTo_valid hv w
  cases i <;> simp only [memWrites, reduceCtorEq, Option.some.injEq, Prod.mk.injEq] at hm
  all_goals obtain ⟨rfl, rfl⟩ := hm; exact hstore

/-- What an instruction stores, and where, depends on the read ports alone. -/
theorem memWrites_congr {s t : State} (h : ∀ r, t.reg r = s.reg r) (i : Instr) : memWrites i t = memWrites i s := by
  cases i <;> simp only [memWrites, indirectAddress, State.x, h]

/-- A stretch that does not store to an address of the data region keeps its word, and the frame the law needs. -/
theorem noStoreTo_keeps_word {a : Int} {s v : State} (h : NoStoreTo a s v) (hw : s.mem.wf = true)
    (ha : validAddress s.codeSize a = true) :
    v.mem.wf = true ∧ v.codeSize = s.codeSize ∧ v.mem.read a.toNat = s.mem.read a.toNat := by
  induction h with
  | refl => exact ⟨hw, rfl, rfl⟩
  | instr t u i _ hi he ih =>
    obtain ⟨htw, hts, htr⟩ := ih
    obtain ⟨huw, hus, hur⟩ := exec_keeps_word htw (hts ▸ ha) (fun w hm => hi ⟨w, hm⟩) he
    exact ⟨huw, hus.trans hts, hur.trans htr⟩
  | step t u _ hi he ih =>
    obtain ⟨htw, hts, htr⟩ := ih
    rcases step_next_cases he with ⟨i, p, hx, hp, hd, -⟩ | ⟨-, hd, -⟩
    · have hm : memWrites i p = memWrites i t := memWrites_congr (regsKept_of_regs hd.regs) i
      obtain ⟨huw, hus, hur⟩ := exec_keeps_word (a := a) (hd.mem ▸ htw) (hd.codeSize ▸ hts ▸ ha)
        (fun w h => hi i hx ⟨w, hm ▸ h⟩) hp
      exact ⟨huw, hus.trans (hd.codeSize.trans hts), by rw [hur, hd.mem, htr]⟩
    · exact ⟨hd.mem ▸ htw, hd.codeSize.trans hts, by rw [hd.mem, htr]⟩

/-! ### The frames of a completed instruction -/

/-- What the end of an instruction leaves of a run's own fields. -/
theorem runKept_retire {s u : State} (hsize : u.codeSize = s.codeSize) (hrec : u.faultRecord = s.faultRecord)
    (hw : u.waiting = s.waiting) (hp : u.prompting = s.prompting) (hparams : u.params = s.params)
    (hfree : u.freeDraws = s.freeDraws) (hdbg : u.dbg = s.dbg) : RunKept s u.retire :=
  ⟨hsize, hrec, hw, hp, hparams, hfree, congrArg DebuggerState.afterInstruction hdbg⟩

/-- A register's signed reading after a write, and after the end of the instruction. -/
theorem x_setReg_retire (s : State) (rd r : RegNo) (w : Word) :
    (s.setReg rd w).retire.x r = if r = rd ∧ r ≠ 0 then sval w else s.x r := by
  rw [State.x, State.reg_retire, State.reg_setReg]
  split <;> rfl

/-- A completed write of a word to a register changes that register alone. -/
theorem onlyRegister_setReg (s : State) (rd : RegNo) (w : Word) :
    OnlyRegister rd (sval w) s (s.setReg rd w).retire := by
  refine ⟨fun r => x_setReg_retire s rd r w, fun a => ?_, ?_, ?_, ?_, ?_, runKept_retire ?_ ?_ ?_ ?_ ?_ ?_ ?_⟩ <;> simp

/-- Settles O29: along the stretch the word at the address stays as the store left it, or as it began, and the load
brings it back. -/
theorem loadReturnsLastStore : Obligations.LoadReturnsLastStore := by
  intro s v j rZ a hw ha hj
  have hload {u : State} (huw : u.mem.wf = true) (hua : validAddress u.codeSize a = true) (h : NoStoreTo a u v) :
      ∃ w, exec j v = .next w ∧ OnlyRegister rZ (sval (u.mem.read a.toNat)) v w := by
    obtain ⟨-, hsize, hread⟩ := noStoreTo_keeps_word h huw hua
    rw [← hread]
    exact ⟨_, exec_of_memReads hj (hsize ▸ hua), onlyRegister_setReg v rZ _⟩
  refine ⟨fun t i x hm he h => ?_, hload hw ha⟩
  have hstore := exec_of_memWrites hm ha
  rw [he] at hstore
  cases hstore
  have hrange := (validAddress_iff _ _).1 ha
  have hl := hload (u := ({ s with mem := s.mem.write a.toNat x } : State).retire)
    (Memory.wf_write hw x (by omega)) ha h
  rwa [State.retire_mem, Memory.read_write_same hw] at hl

end Sys2Proof.Machine

/-! ## Proofs: the invariant of every run (spec/10_state.md, spec/60_exceptions.md) -/

namespace Sys2Proof.Machine

/-! ### The execute phase -/

/-- The invariant between a fetch and the end of the execute phase: the instruction has been fetched, the debugger has
let it go, and what waits is a `read`. -/
structure Fetched (i : Instr) (s : State) : Prop where
  memWf : s.mem.wf = true
  pcInRange : s.pc.toNat ≤ s.codeSize.val
  pcPos : 1 ≤ s.pc.toNat
  zeroR0 : s.regs[0] = 0
  outFits : ∀ v ∈ s.out, fits16 v = true
  running : s.status = .running
  notPrompting : s.prompting = false
  waitingReads : s.waiting = true → isRead i = true
  notTerminated : s.dbg ≠ .terminated
  recordEmpty : s.faultRecord = none
  decoded : decode s.iword = .instr i

theorem afterInstruction_ne_terminated {d : DebuggerState} (h : d ≠ .terminated) :
    d.afterInstruction ≠ .terminated := by
  cases d <;> simp_all [DebuggerState.afterInstruction]

/-- A fault ends the waits and writes its record, and otherwise leaves the state as it was. -/
theorem inv_raise {s : State} (f : RunFault) (info : FaultInfo) (d : DebuggerState) (hmem : s.mem.wf = true)
    (hpc : s.pc.toNat ≤ s.codeSize.val) (hr0 : s.regs[0] = 0) (hout : ∀ v ∈ s.out, fits16 v = true) :
    ({ s.raise f info with dbg := d } : State).Inv where
  memWf := hmem
  pcInRange := hpc
  zeroR0 := hr0
  outFits := hout
  suspended h := by rcases h with h | h <;> cases h
  oneWait h := by cases h.1
  waitingReads h := by cases h
  promptPaused h := by cases h
  terminatedEnded _ := ⟨f, rfl⟩
  faultRecorded g hg := by cases hg; exact ⟨_, rfl, rfl⟩
  recordEmpty h := absurd rfl (h f)

/-- The state an instruction is complete in keeps the fetched instruction's facts, but for `halt`'s status and the
waits. -/
theorem Commits.inv_retire {i : Instr} {s u : State} (h : Commits i s u) (hs : Fetched i s) : u.retire.Inv := by
  obtain ⟨hsize, -, hrec, hprompt, hdbg⟩ := h.run_kept
  have hwait : u.waiting = false := by
    rcases h.waiting_cases with hw | ⟨hi, hw⟩
    · exact hw
    · rw [hw, ← Bool.not_eq_true]
      intro hwait
      rw [hs.waitingReads hwait] at hi
      cases hi
  have hnofault (f : RunFault) : u.status ≠ .fault f := by
    rcases h.status_cases with hst | ⟨-, hst⟩ <;> simp [hst, hs.running]
  exact
  { memWf := by
      rcases h.mem_cases with hm | ⟨ea, w, -, hv, hm⟩
      · rw [State.retire_mem, hm]; exact hs.memWf
      · have hrange := (validAddress_iff _ _).1 hv
        rw [State.retire_mem, hm]; exact Memory.wf_write hs.memWf w (by omega)
    pcInRange := by
      rw [State.retire_pc, State.retire_codeSize, hsize]
      rcases h.pc_cases with hpc | ⟨t, hv, hpc⟩
      · rw [hpc]; exact hs.pcInRange
      · have hrange := (validTarget_iff _ _).1 hv
        rw [hpc, word_target_toNat hv]; omega
    zeroR0 := u.retire_regs_zero
    outFits := by
      rw [State.retire_out]
      rcases h.out_cases with ho | ⟨rX, -, ho⟩ <;> rw [ho]
      · exact hs.outFits
      · intro v hv
        rcases List.mem_append.1 hv with hv | hv
        · exact hs.outFits v hv
        · rw [List.mem_singleton.1 hv]; exact fits16_sval _
    suspended := by rw [State.retire_waiting, State.retire_prompting, hwait, hprompt, hs.notPrompting]; simp
    oneWait := by rw [State.retire_waiting, hwait]; simp
    waitingReads := by rw [State.retire_waiting, hwait]; simp
    promptPaused := by rw [State.retire_prompting, hprompt, hs.notPrompting]; simp
    terminatedEnded := by
      rw [State.retire_dbg, hdbg]
      exact fun ht => absurd ht (afterInstruction_ne_terminated hs.notTerminated)
    faultRecorded := fun f hf => absurd hf (hnofault f)
    recordEmpty := fun _ => hrec.trans hs.recordEmpty }

/-- The execute phase of a fetched instruction leads back into the invariant. -/
theorem exec_inv {i : Instr} {s t : State} (hs : Fetched i s) (he : exec i s = .next t) : t.Inv := by
  cases ends_of_exec he with
  | completes _ _ u h => exact h.inv_retire hs
  | raises _ _ f info => exact inv_raise f info s.dbg hs.memWf hs.pcInRange hs.zeroR0 hs.outFits
  | inputEnds =>
    exact inv_raise (s := s.consoleSeen false) .endOfInput .none s.dbg hs.memWf hs.pcInRange hs.zeroR0 hs.outFits
  | inputAborts =>
    exact inv_raise (s := s.consoleSeen false) .interrupted .none s.dbg hs.memWf hs.pcInRange hs.zeroR0 hs.outFits
  | waits rX =>
    have hprompt : (s.consoleSeen true).prompting = false := hs.notPrompting
    have hstatus : (s.consoleSeen true).status = .running := hs.running
    exact
    { memWf := hs.memWf
      pcInRange := hs.pcInRange
      zeroR0 := hs.zeroR0
      outFits := hs.outFits
      suspended := fun _ => ⟨hs.running, hs.pcPos⟩
      oneWait := by simp [hprompt]
      waitingReads := fun _ => ⟨rX, hs.decoded⟩
      promptPaused := by simp [hprompt]
      terminatedEnded := fun h => absurd h hs.notTerminated
      faultRecorded := by simp [hstatus]
      recordEmpty := fun _ => hs.recordEmpty }

/-! ### The looks at the host -/

theorem State.Inv.not_terminated {s : State} (h : s.Inv) (hrun : s.status = .running) : s.dbg ≠ .terminated := by
  intro hd
  obtain ⟨f, hf⟩ := h.terminatedEnded hd
  rw [hrun] at hf
  cases hf

theorem State.Inv.record_of_running {s : State} (h : s.Inv) (hrun : s.status = .running) : s.faultRecord = none :=
  h.recordEmpty (fun f => by rw [hrun]; exact Status.noConfusion)

/-- Only the boundary's and the prompt's entries of the host's script have been consumed. -/
theorem State.Inv.of_host {s : State} (h : s.Inv) (host : HostScript) : ({ s with host := host } : State).Inv :=
  ⟨h.memWf, h.pcInRange, h.zeroR0, h.outFits, h.suspended, h.oneWait, h.waitingReads, h.promptPaused,
    h.terminatedEnded, h.faultRecorded, h.recordEmpty⟩

/-- A look at the prompt keeps the invariant, whatever it brings. -/
theorem debuggerPrompt_inv {i : Instr} {q t : State} (hq : q.Inv) (hp : q.prompting = true)
    (hdec : decode q.iword = .instr i) (h : debuggerPrompt i q = .next t) : t.Inv := by
  obtain ⟨hrun, hpos⟩ := hq.suspended (.inr hp)
  rcases debuggerPrompt_spec i q with ⟨-, d, hd, hx⟩ | ⟨-, hx⟩ | ⟨-, d, hx⟩ <;> rw [hx] at h
  · refine exec_inv (s := { q.promptSeen with dbg := d, prompting := false }) ?_ h
    exact
    { memWf := hq.memWf
      pcInRange := hq.pcInRange
      pcPos := hpos
      zeroR0 := hq.zeroR0
      outFits := hq.outFits
      running := hrun
      notPrompting := rfl
      waitingReads := fun hw => absurd ⟨hw, hp⟩ hq.oneWait
      notTerminated := hd
      recordEmpty := hq.record_of_running hrun
      decoded := hdec }
  · cases h; exact hq.of_host _
  · cases h; exact inv_raise .interrupted .none d hq.memWf hq.pcInRange hq.zeroR0 hq.outFits

/-- A fault before the fetch, of a core that does not wait. -/
theorem inv_raiseUnfetched {s : State} (hs : s.Inv) (hw : s.waiting = false) (hp : s.prompting = false) (f : RunFault) :
    (s.boundarySeen.raiseUnfetched f).Inv where
  memWf := hs.memWf
  pcInRange := hs.pcInRange
  zeroR0 := hs.zeroR0
  outFits := hs.outFits
  suspended := by simp [hw, hp]
  oneWait := by simp [hw]
  waitingReads := by simp [hw]
  promptPaused := by simp [hp]
  terminatedEnded _ := ⟨f, rfl⟩
  faultRecorded g hg := by cases hg; exact ⟨_, rfl, rfl⟩
  recordEmpty h := absurd rfl (h f)

/-! ### The fetch -/

/-- Below `codeSize` the fetch's increment does not wrap. -/
theorem fetched_pc_toNat {s : State} (h : s.pc.toNat < s.codeSize.val) : s.fetched.pc.toNat = s.pc.toNat + 1 := by
  have hsize := s.codeSize.isLt
  show (s.pc + 1).toNat = _
  rw [BitVec.toNat_add]
  show (s.pc.toNat + 1) % 2 ^ 16 = _
  omega

theorem fetchOk_iff (s : State) : s.fetchOk = true ↔ s.pc.toNat < s.codeSize.val := by
  simp [State.fetchOk]

/-- The step of a fetched instruction keeps the invariant, whether the debugger pauses before it or not. -/
theorem pauseOrExecute_inv {s t : State} (hs : s.Inv) (hrun : s.status = .running) (hw : s.waiting = false)
    (hp : s.prompting = false) (ho : s.fetchOk = true)
    (h : pauseOrExecute (decodedInstr s.fetched.iword) s.fetched = .next t) : t.Inv := by
  have hpc := fetched_pc_toNat ((fetchOk_iff s).1 ho)
  have hrange : s.fetched.pc.toNat ≤ s.fetched.codeSize.val := by rw [hpc]; exact (fetchOk_iff s).1 ho
  have hpos : 1 ≤ s.fetched.pc.toNat := by rw [hpc]; exact Nat.le_add_left 1 _
  rw [pauseOrExecute_fetched] at h
  cases hd : s.dbg.pauses with
  | true =>
    rw [hd, if_pos rfl] at h
    refine debuggerPrompt_inv (q := s.pausedAtFetch) ?_ rfl (decode_eq s.fetched.iword) h
    have hwait : s.pausedAtFetch.waiting = false := hw
    exact
    { memWf := hs.memWf
      pcInRange := hrange
      zeroR0 := hs.zeroR0
      outFits := hs.outFits
      suspended := fun _ => ⟨hrun, hpos⟩
      oneWait := by simp [hwait]
      waitingReads := by simp [hwait]
      promptPaused := fun _ => rfl
      terminatedEnded := fun hterm => by cases hterm
      faultRecorded := hs.faultRecorded
      recordEmpty := hs.recordEmpty }
  | false =>
    rw [hd] at h
    refine exec_inv (s := s.fetched) ?_ h
    have hwait : s.fetched.waiting = false := hw
    exact
    { memWf := hs.memWf
      pcInRange := hrange
      pcPos := hpos
      zeroR0 := hs.zeroR0
      outFits := hs.outFits
      running := hrun
      notPrompting := hp
      waitingReads := by simp [hwait]
      notTerminated := hs.not_terminated hrun
      recordEmpty := hs.record_of_running hrun
      decoded := decode_eq _ }

/-- A waiting read is a fetched instruction. -/
theorem fetched_of_waiting {s : State} (hs : s.Inv) (hw : s.waiting = true) : Fetched (decodedInstr s.iword) s := by
  obtain ⟨hrun, hpos⟩ := hs.suspended (.inl hw)
  obtain ⟨rX, hread⟩ := hs.waitingReads hw
  have hinstr : decodedInstr s.iword = .read rX := by rwa [decode_eq, Decoded.instr.injEq] at hread
  exact
  { memWf := hs.memWf
    pcInRange := hs.pcInRange
    pcPos := hpos
    zeroR0 := hs.zeroR0
    outFits := hs.outFits
    running := hrun
    notPrompting := by rw [← Bool.not_eq_true]; exact fun hp => hs.oneWait ⟨hw, hp⟩
    waitingReads := fun _ => by rw [hinstr]; rfl
    notTerminated := hs.not_terminated hrun
    recordEmpty := hs.record_of_running hrun
    decoded := decode_eq _ }

/-- Settles O50: by where the core stands, a step is a fault before the fetch, a look at the prompt, or the execute
phase of a fetched instruction, and each leads back into the invariant. -/
theorem stepKeepsInvariant : Obligations.StepKeepsInvariant := by
  intro s t hs h
  have hrun := running_of_step h
  rw [step_of_running hrun] at h
  rcases stepRunning_cases s with
    ⟨hw, hx⟩ | ⟨-, hp, hx⟩ | ⟨hw, hp, -, hx⟩ | ⟨hw, hp, -, -, hx⟩ | ⟨hw, hp, -, ho, hx⟩ <;> rw [hx] at h
  · rw [withDecoded_eq] at h
    exact exec_inv (fetched_of_waiting hs hw) h
  · rw [withDecoded_eq] at h
    exact debuggerPrompt_inv hs hp (decode_eq _) h
  · cases h; exact inv_raiseUnfetched hs hw hp .interrupted
  · cases h; exact inv_raiseUnfetched hs hw hp .memoryOutOfBounds
  · rw [withDecoded_eq] at h
    exact pauseOrExecute_inv hs hrun hw hp ho h

/-! ### Where a run begins -/

/-- A machine about to make its first step. -/
theorem inv_of_start {s : State} (hmem : s.mem.wf = true) (hpc : s.pc.toNat ≤ s.codeSize.val) (hr0 : s.regs[0] = 0)
    (hstatus : s.status = .running) (hrec : s.faultRecord = none) (hout : s.out = []) (hw : s.waiting = false)
    (hp : s.prompting = false) (hdbg : s.dbg ≠ .terminated) : s.Inv where
  memWf := hmem
  pcInRange := hpc
  zeroR0 := hr0
  outFits := by simp [hout]
  suspended := by simp [hw, hp]
  oneWait := by simp [hw]
  waitingReads := by simp [hw]
  promptPaused := by simp [hp]
  terminatedEnded := fun h => absurd h hdbg
  faultRecorded := by simp [hstatus]
  recordEmpty := fun _ => hrec

/-- Settles O51: reset has an empty memory, `PC` and `codeSize` 0 and no fault. -/
theorem resetMeetsInvariant : Obligations.ResetMeetsInvariant :=
  inv_of_start rfl (Nat.le_refl 0) rfl rfl rfl rfl rfl rfl (by decide)

theorem startDebugger_ne_terminated (o : DebugOption) (answer : Bool) : startDebugger o answer ≠ .terminated := by
  cases o <;> cases answer <;> decide

/-- Settles O52: an image that fits is placed in canonical form (R137), and no other field of a launch is a draw. -/
theorem launchMeetsInvariant : Obligations.LaunchMeetsInvariant := by
  intro l image hw _ hlen
  refine inv_of_start (Memory.wf_place hw 0 image (by omega)) (Nat.zero_le _) ?_ rfl rfl rfl rfl rfl
    (startDebugger_ne_terminated _ _)
  exact Vector.getElem_set_self _

/-! ### The state at the start of a run (R30, R132) -/

theorem launch_codeSize {image : List Word} (l : Launch) (h : image.length ≤ 256) :
    (State.launch l image).codeSize.val = image.length := by
  show image.length % 257 = image.length
  exact Nat.mod_eq_of_lt (by omega)

/-- Forcing r0 at the launch leaves every other register its draw. -/
theorem launch_reg (l : Launch) (image : List Word) {r : RegNo} (hr : r ≠ 0) :
    (State.launch l image).reg r = l.initRegs[r.toNat] := by
  have hne : r.toNat ≠ 0 := fun h => hr (BitVec.eq_of_toNat_eq h)
  rw [State.reg, if_neg hr]
  exact set_zero_getElem _ _ _ r.isLt hne

/-- Settles O57: the image is placed over the data draws, and every other row of R30 is a field of the launch. -/
theorem launchStartsRun : Obligations.LaunchStartsRun := by
  intro l image hw _ hlen s
  have hread (a : Nat) : s.mem.read a = image.getD a (l.initData.read a) :=
    Memory.read_place hw 0 image (by omega) a
  refine ⟨rfl, fun r hr => launch_reg l image hr, rfl, fun k hk => ?_, fun a ha => ?_, launch_codeSize l hlen, rfl, rfl,
    rfl, rfl, ?_, ?_, ?_, ?_⟩
  · rw [hread, List.getD_eq_getElem _ _ hk]
  · rw [hread, List.getD_eq_default _ _ ha]
  · intro h; show startDebugger l.debug _ = _; rw [h]; rfl
  · intro h; show startDebugger l.debug _ = _; rw [h]; rfl
  · intro h ha; show startDebugger l.debug l.debugAnswer = _; rw [h, ha]; rfl
  · intro h ha; show startDebugger l.debug l.debugAnswer = _; rw [h, ha]; rfl

end Sys2Proof.Machine

/-! ## Proofs: the image text and the loader (spec/30_encoding.md R73, spec/70_reset_and_hazards.md) -/

namespace Sys2Proof.Machine

/-! ### Cutting a text -/

theorem splitAtChars_ne_nil (cut : Char → Bool) (cs : List Char) : splitAtChars cut cs ≠ [] := by
  cases cs with
  | nil => simp [splitAtChars]
  | cons c cs =>
    rw [splitAtChars]
    split
    · simp
    · split <;> simp

/-- Characters that are no cut join the first piece. -/
theorem splitAtChars_append {cut : Char → Bool} {l rest m : List Char} {ms : List (List Char)}
    (h : ∀ c ∈ l, cut c = false) (hrest : splitAtChars cut rest = m :: ms) :
    splitAtChars cut (l ++ rest) = (l ++ m) :: ms := by
  induction l with
  | nil => exact hrest
  | cons c l ih =>
    obtain ⟨hc, hl⟩ := List.forall_mem_cons.1 h
    simp [splitAtChars, hc, ih hl]

theorem splitAtChars_cons_cut {cut : Char → Bool} {c : Char} (hc : cut c = true) (rest : List Char) :
    splitAtChars cut (c :: rest) = [] :: splitAtChars cut rest := by
  rw [splitAtChars, if_pos hc]

/-- A piece holds characters of the text, none of them a cut. -/
theorem mem_splitAtChars {cut : Char → Bool} {cs l : List Char} (hl : l ∈ splitAtChars cut cs) {c : Char}
    (hc : c ∈ l) : c ∈ cs ∧ cut c = false := by
  induction cs generalizing l with
  | nil => simp [splitAtChars] at hl; simp [hl] at hc
  | cons d cs ih =>
    rw [splitAtChars] at hl
    split at hl
    · rcases List.mem_cons.1 hl with rfl | hl
      · cases hc
      · exact (ih hl hc).imp_left (List.mem_cons_of_mem d)
    · next hd =>
      split at hl
      · next hnil => exact absurd hnil (splitAtChars_ne_nil cut cs)
      · next m ms hm =>
        rcases List.mem_cons.1 hl with rfl | hl
        · rcases List.mem_cons.1 hc with rfl | hc
          · exact ⟨List.mem_cons_self, by simpa using hd⟩
          · exact (ih (hm ▸ List.mem_cons_self) hc).imp_left (List.mem_cons_of_mem d)
        · exact (ih (hm ▸ List.mem_cons_of_mem m hl) hc).imp_left (List.mem_cons_of_mem d)

/-! ### The characters of a word's line -/

/-- The bit character of a bit. -/
def bitChar (b : Bool) : Char := if b then '1' else '0'

@[simp] theorem isBitChar_bitChar (b : Bool) : isBitChar (bitChar b) = true := by cases b <;> rfl

theorem bitChar_ne_space (b : Bool) : bitChar b ≠ ' ' := by cases b <;> decide

theorem nibbleChars_eq (w : Word) (lo : Nat) :
    nibbleChars w lo = [w.getLsbD (lo + 3), w.getLsbD (lo + 2), w.getLsbD (lo + 1), w.getLsbD lo].map bitChar := rfl

/-- Without its spaces a word's line is its 16 bits. -/
theorem filter_imageLine (w : Word) : (imageLine w).filter (fun c => c ≠ ' ') = (wordBits w).map bitChar := by
  have hnibble (lo : Nat) : (nibbleChars w lo).filter (fun c => c ≠ ' ') = nibbleChars w lo :=
    List.filter_eq_self.2 fun c hc => by
      obtain ⟨b, -, rfl⟩ := List.mem_map.1 (nibbleChars_eq w lo ▸ hc)
      exact decide_eq_true (bitChar_ne_space b)
  have hspace (l : List Char) : (' ' :: l).filter (fun c => c ≠ ' ') = l.filter (fun c => c ≠ ' ') := rfl
  simp only [imageLine, List.filter_append, hspace, hnibble]
  rfl

theorem mem_imageLine {w : Word} {c : Char} (h : c ∈ imageLine w) : isBitChar c = true ∨ c = ' ' := by
  by_cases hc : c = ' '
  · exact .inr hc
  · have hf : c ∈ (imageLine w).filter (fun c => c ≠ ' ') := List.mem_filter.2 ⟨h, decide_eq_true hc⟩
    obtain ⟨b, -, rfl⟩ := List.mem_map.1 (filter_imageLine w ▸ hf)
    exact .inl (isBitChar_bitChar b)

/-! ### The word of a line (R137) -/

/-- Shifting in a bit doubles and adds. -/
theorem toNat_shiftIn (w : Word) (b : Bool) :
    (w <<< 1 ||| (if bitChar b = '1' then 1 else 0)).toNat = (2 * w.toNat + b.toNat) % 2 ^ 16 := by
  have hbit : (if bitChar b = '1' then 1 else 0 : Word) = BitVec.ofNat 16 b.toNat := by cases b <;> rfl
  have hand : w <<< 1 &&& BitVec.ofNat 16 b.toNat = 0#16 := by
    refine BitVec.eq_of_getLsbD_eq fun i _ => ?_
    cases b <;> cases i <;> simp [BitVec.getLsbD_one]
  rw [hbit, ← BitVec.add_eq_or_of_and_eq_zero _ _ hand, BitVec.toNat_add, BitVec.toNat_shiftLeft, BitVec.toNat_ofNat,
    Nat.shiftLeft_eq]
  omega

theorem toNat_wordOfBitChars (bits : List Bool) :
    (wordOfBitChars (bits.map bitChar)).toNat = bitsValue bits % 2 ^ 16 := by
  induction bits using List.reverseRecOn with
  | nil => rfl
  | append_singleton bits b ih =>
    rw [wordOfBitChars] at ih ⊢
    rw [List.map_append, List.foldl_append, List.map_singleton, List.foldl_cons, List.foldl_nil, toNat_shiftIn, ih,
      bitsValue_append_singleton]
    omega

theorem bitsValue_wordBits (w : Word) : bitsValue (wordBits w) = w.toNat := by
  rw [wordBits, bitsValue_natBits, Nat.mod_eq_of_lt w.isLt]

theorem length_wordBits (w : Word) : (wordBits w).length = 16 := length_natBits 16 _

theorem lineWord_imageLine (w : Word) : lineWord (imageLine w) = some w := by
  have hword : wordOfBitChars ((wordBits w).map bitChar) = w :=
    BitVec.eq_of_toNat_eq (by rw [toNat_wordOfBitChars, bitsValue_wordBits, Nat.mod_eq_of_lt w.isLt])
  simp only [lineWord, filter_imageLine, List.length_map, length_wordBits, if_pos, hword]

/-! ### The lines of an image -/

theorem lineWords_eq_some {ls : List (List Char)} (h : ∀ l ∈ ls, ∃ w, lineWord l = some w) :
    ∃ ws, lineWords ls = some ws ∧ ws.length = ls.length := by
  induction ls with
  | nil => exact ⟨[], rfl, rfl⟩
  | cons l ls ih =>
    obtain ⟨⟨w, hw⟩, hls⟩ := List.forall_mem_cons.1 h
    obtain ⟨ws, hws, hlen⟩ := ih hls
    exact ⟨w :: ws, by simp only [lineWords, hw, hws], by rw [List.length_cons, hlen, List.length_cons]⟩

theorem lineWords_eq_none {ls : List (List Char)} {l : List Char} (hl : l ∈ ls) (h : lineWord l = none) :
    lineWords ls = none := by
  induction ls with
  | nil => cases hl
  | cons m ls ih =>
    rcases List.mem_cons.1 hl with rfl | hl
    · simp only [lineWords, h]
    · cases hm : lineWord m <;> simp only [lineWords, hm, ih hl]

theorem lineWords_map_imageLine (words : List Word) : lineWords (words.map imageLine) = some words := by
  induction words with
  | nil => rfl
  | cons w ws ih => simp only [List.map_cons, lineWords, lineWord_imageLine, ih]

theorem mem_countedLines {text l : List Char} (h : l ∈ countedLines text) :
    l.any isBitChar = true ∧ ∀ c ∈ l, c ∈ text ∧ c ≠ '\n' := by
  obtain ⟨hl, hany⟩ := List.mem_filter.1 h
  refine ⟨hany, fun c hc => ?_⟩
  obtain ⟨hmem, hcut⟩ := mem_splitAtChars hl hc
  exact ⟨hmem, of_decide_eq_false hcut⟩

theorem countedLines_imageText (words : List Word) : countedLines (imageText words) = words.map imageLine := by
  induction words with
  | nil => rfl
  | cons w ws ih =>
    have hline : ∀ c ∈ imageLine w, decide (c = '\n') = false := by
      intro c hc
      rcases mem_imageLine hc with h | rfl
      · exact decide_eq_false (by rintro rfl; cases h)
      · rfl
    have hcounted : (imageLine w).any isBitChar = true := by
      refine List.any_eq_true.2 ⟨bitChar (w.getLsbD 15), ?_, isBitChar_bitChar _⟩
      exact List.mem_cons_self
    have htext : imageText (w :: ws) = imageLine w ++ '\n' :: imageText ws := by
      simp [imageText]
    rw [countedLines, htext, splitAtChars_append hline (splitAtChars_cons_cut rfl _), List.append_nil,
      List.filter_cons_of_pos (p := fun l : List Char => l.any isBitChar) hcounted, List.map_cons, ← ih]
    rfl

/-! ### The loader's verdict (R135, R136, R138) -/

theorem isImageChar_iff (c : Char) : isImageChar c = true ↔ c ∈ ['0', '1', ' ', '\n'] := by
  simp [isImageChar, isBitChar, or_assoc]

theorem loadImage_loaded {text : List Char} {ws : List Word} (hchars : text.all isImageChar = true)
    (h1 : 1 ≤ (countedLines text).length) (h256 : (countedLines text).length ≤ 256)
    (hws : lineWords (countedLines text) = some ws) : loadImage text = .loaded ws := by
  have hne : (countedLines text).isEmpty = false := by
    rw [List.isEmpty_eq_false_iff, ← List.length_pos_iff]; exact h1
  simp only [loadImage, hchars, hne, hws, Nat.not_lt.2 h256, Bool.not_true, Bool.false_eq_true, if_false]

/-- An image that is wrong at one of the loader's four checks is refused. -/
theorem loadImage_refused {text : List Char} (h : text.all isImageChar = true → 1 ≤ (countedLines text).length →
    (countedLines text).length ≤ 256 → lineWords (countedLines text) = none) : loadImage text = .loadError := by
  unfold loadImage
  split
  · rfl
  · next hchars =>
    split
    · rfl
    · next hne =>
      split
      · rfl
      · next h256 =>
        rw [List.isEmpty_iff, ← List.length_eq_zero_iff] at hne
        rw [h (by simpa using hchars) (by omega) (by omega)]

theorem all_isImageChar_imageText (words : List Word) : (imageText words).all isImageChar = true := by
  refine List.all_eq_true.2 fun c hc => ?_
  obtain ⟨w, -, hw⟩ := List.mem_flatMap.1 hc
  rcases List.mem_append.1 hw with hw | hw
  · rcases mem_imageLine hw with h | rfl
    · simp [isImageChar, h]
    · rfl
  · rw [List.mem_singleton.1 hw]; rfl

/-- Settles O55: the writer's lines are the counted lines, and each is read back as its word. -/
theorem imageTextRoundTrip : Obligations.ImageTextRoundTrip := by
  intro words h1 h256
  have hlines := countedLines_imageText words
  refine loadImage_loaded (all_isImageChar_imageText words) ?_ ?_ (hlines ▸ lineWords_map_imageLine words)
  · rw [hlines, List.length_map]; exact h1
  · rw [hlines, List.length_map]; exact h256

/-- In a counted line of image characters, the characters left after the spaces are its bits. -/
theorem filter_countedLine {text l : List Char} (hchars : text.all isImageChar = true) (hl : l ∈ countedLines text) :
    l.filter (fun c => c ≠ ' ') = l.filter isBitChar := by
  refine List.filter_congr fun c hc => ?_
  obtain ⟨hmem, hnl⟩ := (mem_countedLines hl).2 c hc
  have himage := (isImageChar_iff c).1 (List.all_eq_true.1 hchars c hmem)
  simp only [List.mem_cons, List.not_mem_nil, or_false] at himage
  rcases himage with rfl | rfl | rfl | rfl
  · rfl
  · rfl
  · rfl
  · exact absurd rfl hnl

/-- An image without a bit character has no counted line. -/
theorem countedLines_of_no_bits {text : List Char} (h : ∀ c ∈ text, c ≠ '0' ∧ c ≠ '1') : countedLines text = [] := by
  refine List.eq_nil_iff_forall_not_mem.2 fun l hl => ?_
  obtain ⟨hany, hmem⟩ := mem_countedLines hl
  obtain ⟨c, hc, hbit⟩ := List.any_eq_true.1 hany
  obtain ⟨h0, h1⟩ := h c (hmem c hc).1
  simp [isBitChar, h0, h1] at hbit

/-- With 256 words of code no address is left for data (R35). -/
theorem validAddress_full (a : Int) (c : Fin 257) (hc : c.val = 256) : validAddress c a = false := by
  rw [validAddress_false_iff, hc]
  omega

/-- Settles O56: each refusal is one of the loader's checks, an image that passes all four has a word for each line, and
the writer's own 256 lines pass. -/
theorem loaderRefusesBadImages : Obligations.LoaderRefusesBadImages := by
  refine ⟨?_, ?_, ?_, ?_, ?_, ?_⟩
  · rintro text ⟨c, hc, hbad⟩
    refine loadImage_refused fun hchars => absurd ?_ hbad
    exact (isImageChar_iff c).1 (List.all_eq_true.1 hchars c hc)
  · intro text h
    have hnone := countedLines_of_no_bits h
    exact ⟨hnone, loadImage_refused fun _ h1 => by simp [hnone] at h1⟩
  · intro text h
    exact loadImage_refused fun _ _ h256 => absurd h256 (by omega)
  · rintro text ⟨l, hl, h16⟩
    refine loadImage_refused fun hchars _ _ => lineWords_eq_none hl ?_
    simp only [lineWord, filter_countedLine hchars hl, if_neg h16]
  · intro text hchars h1 h256 h16
    have hall : text.all isImageChar = true := List.all_eq_true.2 fun c hc => (isImageChar_iff c).2 (hchars c hc)
    obtain ⟨ws, hws, hlen⟩ := lineWords_eq_some (ls := countedLines text) fun l hl =>
      ⟨_, by simp only [lineWord, filter_countedLine hall hl, if_pos (h16 l hl)]; rfl⟩
    exact ⟨ws, loadImage_loaded hall h1 h256 hws, hlen⟩
  · intro words l hlen
    refine ⟨imageTextRoundTrip words (by omega) (by omega), fun a => validAddress_full a _ ?_⟩
    rw [launch_codeSize l (by omega), hlen]

end Sys2Proof.Machine

/-! ## Proofs: the disassembly and the assembler (spec/30_encoding.md R62 to R69) -/

namespace Sys2Proof.Machine

/-! ### Decimal numbers (R62, R67) -/

theorem decimalNat_of_lt {n : Nat} (h : n < 10) : decimalNat n = [n.digitChar] := Nat.toDigits_of_lt_base h

theorem decimalNat_of_le {n : Nat} (h : 10 ≤ n) : decimalNat n = decimalNat (n / 10) ++ [(n % 10).digitChar] :=
  Nat.toDigits_of_base_le (by decide) h

theorem decimalNat_ne_nil (n : Nat) : decimalNat n ≠ [] := Nat.toDigits_ne_nil

theorem hexDigit_digitChar : ∀ d < 10, hexDigit d.digitChar = some d ∧ isDigitChar d.digitChar = true := by decide

theorem digitsValue_append (base acc : Nat) (l l' : List Char) :
    digitsValue base acc (l ++ l') = (digitsValue base acc l).bind (fun n => digitsValue base n l') := by
  induction l generalizing acc with
  | nil => rfl
  | cons c l ih =>
    simp only [List.cons_append, digitsValue]
    split
    · split
      · exact ih _
      · rfl
    · rfl

theorem digitsValue_digitChar (acc : Nat) {d : Nat} (hd : d < 10) :
    digitsValue 10 acc [d.digitChar] = some (10 * acc + d) := by
  simp only [digitsValue, (hexDigit_digitChar d hd).1, if_pos hd]

/-- The decimal text of a number reads back as the number. -/
theorem digitsValue_decimalNat (n : Nat) : digitsValue 10 0 (decimalNat n) = some n := by
  induction n using Nat.strongRecOn with
  | ind n ih =>
    rcases Nat.lt_or_ge n 10 with h | h
    · rw [decimalNat_of_lt h, digitsValue_digitChar 0 h, Nat.mul_zero, Nat.zero_add]
    · rw [decimalNat_of_le h, digitsValue_append, ih (n / 10) (by omega), Option.bind_some,
        digitsValue_digitChar _ (Nat.mod_lt n (by decide)), Nat.div_add_mod]

theorem isDigitChar_of_mem_decimalNat {n : Nat} {c : Char} (hc : c ∈ decimalNat n) : isDigitChar c = true := by
  induction n using Nat.strongRecOn with
  | ind n ih =>
    rcases Nat.lt_or_ge n 10 with h | h
    · rw [decimalNat_of_lt h, List.mem_singleton] at hc
      rw [hc]; exact (hexDigit_digitChar n h).2
    · rw [decimalNat_of_le h, List.mem_append, List.mem_singleton] at hc
      rcases hc with hc | rfl
      · exact ih (n / 10) (by omega) hc
      · exact (hexDigit_digitChar _ (Nat.mod_lt n (by decide))).2

/-- A decimal text has no sign and is not hexadecimal. -/
theorem unsignedNumber_decimalNat (n : Nat) : unsignedNumber (decimalNat n) = some n := by
  have hdigit : ∀ c ∈ decimalNat n, isDigitChar c = true := fun c => isDigitChar_of_mem_decimalNat
  rw [← digitsValue_decimalNat n]
  unfold unsignedNumber
  split
  · next h => exact absurd h (decimalNat_ne_nil n)
  · next h => rw [h] at hdigit; simp [isDigitChar] at hdigit
  · rfl

theorem signedNumber_decimalNat (n : Nat) : signedNumber (decimalNat n) = some (n : Int) := by
  have hdigit : ∀ c ∈ decimalNat n, isDigitChar c = true := fun c => isDigitChar_of_mem_decimalNat
  unfold signedNumber
  split
  · next h => rw [h] at hdigit; simp [isDigitChar] at hdigit
  · next h => rw [h] at hdigit; simp [isDigitChar] at hdigit
  · rw [unsignedNumber_decimalNat]; rfl

/-- The signed decimal text of an integer reads back as the integer. -/
theorem signedNumber_decimalInt (v : Int) : signedNumber (decimalInt v) = some v := by
  unfold decimalInt
  split
  · rw [signedNumber, unsignedNumber_decimalNat]
    show some (-(v.natAbs : Int)) = some v
    congr 1; omega
  · rw [signedNumber_decimalNat]
    congr 1; omega

/-! ### An argument's text and its token (R66 to R68) -/

/-- The kind of slot an argument fills (R49). -/
def Arg.slot : Arg → Kind
  | .reg _ => .r
  | .signed _ => .s
  | .unsigned _ => .u
  | .imm _ => .n

theorem mem_decimalInt {v : Int} {c : Char} (h : c ∈ decimalInt v) : isDigitChar c = true ∨ c = '-' := by
  unfold decimalInt at h
  split at h
  · rcases List.mem_cons.1 h with rfl | h
    · exact .inr rfl
    · exact .inl (isDigitChar_of_mem_decimalNat h)
  · exact .inl (isDigitChar_of_mem_decimalNat h)

theorem decimalInt_ne_nil (v : Int) : decimalInt v ≠ [] := by
  unfold decimalInt
  split
  · exact List.cons_ne_nil _ _
  · exact decimalNat_ne_nil _

/-- An unsigned number's text is that of the same integer. -/
theorem decimalInt_natCast (n : Nat) : decimalInt n = decimalNat n := by
  rw [decimalInt, if_neg (by omega), Int.natAbs_natCast]

/-- A number's text is no register token. -/
theorem isRegisterToken_decimalInt (v : Int) : isRegisterToken (decimalInt v) = false := by
  have hchar : ∀ c ∈ decimalInt v, isDigitChar c = true ∨ c = '-' := fun c => mem_decimalInt
  unfold isRegisterToken
  split
  · next c d ds h =>
    have hc := hchar c (h ▸ List.mem_cons_self)
    have hr : c ≠ 'r' ∧ c ≠ 'R' := by
      constructor <;> rintro rfl <;> simp [isDigitChar] at hc
    simp [hr]
  · rfl

theorem parseArg_reg : ∀ n : RegNo, parseArg .r (argText (.reg n)) = .ok (.reg n) := by decide

/-- A number's text in a slot that takes the number. -/
theorem parseArg_decimalInt {k : Kind} {v : Int} {a : Arg} (h : numberArg k v = some a) :
    parseArg k (decimalInt v) = .ok a := by
  simp only [parseArg, isRegisterToken_decimalInt, Bool.false_eq_true, if_false, signedNumber_decimalInt, h]

theorem numberArg_signed (s : Imm8) : numberArg .s s.toInt = some (.signed s) := by
  have hlo := BitVec.le_two_mul_toInt (x := s)
  have hhi := BitVec.two_mul_toInt_lt (x := s)
  rw [numberArg, if_pos (by omega), BitVec.ofInt_toInt]

theorem numberArg_unsigned (u : Imm8) : numberArg .u (u.toNat : Int) = some (.unsigned u) := by
  have hlt := u.isLt
  rw [numberArg, if_pos (by omega), BitVec.ofInt_natCast, BitVec.ofNat_toNat, BitVec.setWidth_eq]

theorem numberArg_imm (n : Word) : numberArg .n (sval n) = some (.imm n) := by
  have hfits := (fits16_iff _).1 (fits16_sval n)
  rw [numberArg, if_pos (by omega), BitVec.ofInt_toInt]

/-- Every argument's text is accepted in its slot, as the argument. -/
theorem parseArg_argText (a : Arg) : parseArg (Arg.slot a) (argText a) = .ok a := by
  cases a with
  | reg n => exact parseArg_reg n
  | signed s => exact parseArg_decimalInt (numberArg_signed s)
  | unsigned u =>
    show parseArg .u (decimalNat u.toNat) = _
    rw [← decimalInt_natCast]
    exact parseArg_decimalInt (numberArg_unsigned u)
  | imm n => exact parseArg_decimalInt (numberArg_imm n)

theorem parseArgs_argTexts (as : List Arg) : parseArgs (as.map Arg.slot) (as.map argText) = .ok as := by
  induction as with
  | nil => rfl
  | cons a as ih => simp only [List.map_cons, parseArgs, parseArg_argText, ih]

/-! ### The line of an instruction (R62, R63) -/

theorem argText_ne_nil (a : Arg) : argText a ≠ [] := by
  cases a with
  | reg n => exact List.cons_ne_nil _ _
  | signed s => exact decimalInt_ne_nil _
  | unsigned u => exact decimalNat_ne_nil _
  | imm n => exact decimalInt_ne_nil _

theorem isArgSeparator_of_digit {c : Char} (h : isDigitChar c = true) : isArgSeparator c = false := by
  rw [← Bool.not_eq_true]
  intro hsep
  simp only [isArgSeparator, isSpaceChar, Bool.or_eq_true, decide_eq_true_eq] at hsep
  rcases hsep with rfl | (rfl | rfl) | rfl <;> simp [isDigitChar] at h

theorem isArgSeparator_of_mem_argText {a : Arg} {c : Char} (h : c ∈ argText a) : isArgSeparator c = false := by
  have hint {v : Int} (hc : c ∈ decimalInt v) : isArgSeparator c = false := by
    rcases mem_decimalInt hc with hd | rfl
    · exact isArgSeparator_of_digit hd
    · rfl
  cases a with
  | reg n =>
    rcases List.mem_cons.1 h with rfl | h
    · rfl
    · exact isArgSeparator_of_digit (isDigitChar_of_mem_decimalNat h)
  | signed s => exact hint h
  | unsigned u => exact isArgSeparator_of_digit (isDigitChar_of_mem_decimalNat h)
  | imm n => exact hint h

/-- The text of the arguments that follow a mnemonic. -/
def argsText (as : List Arg) : List Char := as.flatMap (fun a => ' ' :: argText a)

theorem instrText_eq (i : Instr) : instrText i = mnemonicText i.mnemonic ++ argsText i.args := rfl

/-- Each argument's space ends the piece before it. -/
theorem splitAtChars_argsText (as : List Arg) : splitAtChars isArgSeparator (argsText as) = [] :: as.map argText := by
  induction as with
  | nil => rfl
  | cons a as ih =>
    have htext : argsText (a :: as) = ' ' :: (argText a ++ argsText as) := by simp [argsText]
    rw [htext, splitAtChars_cons_cut rfl, splitAtChars_append (fun c => isArgSeparator_of_mem_argText) ih,
      List.append_nil, List.map_cons]

theorem tokensBetween_argsText (as : List Arg) : tokensBetween isArgSeparator (argsText as) = as.map argText := by
  rw [tokensBetween, splitAtChars_argsText, List.filter_cons_of_neg (by simp)]
  refine List.filter_eq_self.2 fun t ht => ?_
  obtain ⟨a, -, rfl⟩ := List.mem_map.1 ht
  exact decide_eq_true (argText_ne_nil a)

/-- A token that white space or the end of the text follows. -/
theorem nextToken_append {t rest : List Char} (ht : t ≠ []) (hts : ∀ c ∈ t, isSpaceChar c = false)
    (hrest : ∀ c, rest.head? = some c → isSpaceChar c = true) : nextToken (t ++ rest) = (t, rest) := by
  have hbody : (t ++ rest).dropWhile isSpaceChar = t ++ rest := by
    cases t with
    | nil => exact absurd rfl ht
    | cons c t => exact List.dropWhile_cons_of_neg (by simp [hts c List.mem_cons_self])
  have hpos : ∀ c ∈ t, (!isSpaceChar c) = true := fun c hc => by simp [hts c hc]
  simp only [nextToken, hbody]
  rw [List.takeWhile_append_of_pos hpos, List.dropWhile_append_of_pos hpos]
  cases rest with
  | nil => simp
  | cons c rest => simp [hrest c rfl]

theorem nextToken_space (cs : List Char) : nextToken (' ' :: cs) = nextToken cs := rfl

theorem mnemonicText_ne_nil (m : Mnemonic) : mnemonicText m ≠ [] := by cases m <;> decide

theorem mnemonicText_lower (m : Mnemonic) : (mnemonicText m).all isLowerChar = true := by cases m <;> decide

theorem isSpaceChar_of_lower {c : Char} (h : isLowerChar c = true) : isSpaceChar c = false := by
  rw [← Bool.not_eq_true]
  intro hspace
  simp only [isSpaceChar, Bool.or_eq_true, decide_eq_true_eq] at hspace
  rcases hspace with (rfl | rfl) | rfl <;> simp [isLowerChar] at h

theorem argsText_head (as : List Arg) (c : Char) (h : (argsText as).head? = some c) : isSpaceChar c = true := by
  cases as with
  | nil => cases h
  | cons a as => cases h; rfl

/-- The grammar cuts a numbered instruction text into its parts. -/
theorem parseLine_instrText (i : Instr) :
    parseLine ('0' :: ' ' :: instrText i) = some ⟨some 0, mnemonicText i.mnemonic, i.args.map argText⟩ := by
  have hfirst : nextToken ('0' :: ' ' :: instrText i) = (['0'], ' ' :: instrText i) :=
    nextToken_append (t := ['0']) (by simp) (by simp [isSpaceChar]) (fun c h => by cases h; rfl)
  have hsecond : nextToken (' ' :: instrText i) = (mnemonicText i.mnemonic, argsText i.args) := by
    rw [nextToken_space, instrText_eq]
    exact nextToken_append (mnemonicText_ne_nil _)
      (fun c hc => isSpaceChar_of_lower (List.all_eq_true.1 (mnemonicText_lower _) c hc)) (argsText_head _)
  have hzero : digitsValue 10 0 ['0'] = some 0 := by decide
  have hdigit : ['0'].all isDigitChar = true := by decide
  simp [parseLine, hfirst, hsecond, hzero, hdigit, mnemonicText_ne_nil, mnemonicText_lower, tokensBetween_argsText]

/-! ### The assembly of the line (R65 to R69) -/

/-- A mnemonic's own name is tried first. -/
theorem resolveMnemonic_mnemonicText (p : AsmParams) (m : Mnemonic) : resolveMnemonic p (mnemonicText m) = some m := by
  have hfind : allMnemonics.find? (fun n => mnemonicText n = mnemonicText m) = some m := by cases m <;> decide
  simp only [resolveMnemonic, hfind]

theorem argKinds_mnemonic (i : Instr) : argKinds i.mnemonic = i.args.map Arg.slot := by cases i <;> rfl

theorem ofArgs_args (i : Instr) : Instr.ofArgs i.mnemonic i.args = some i := by cases i <;> rfl

theorem assembleParsed_instr (p : AsmParams) (i : Instr) (number : Option Nat) :
    assembleParsed p ⟨number, mnemonicText i.mnemonic, i.args.map argText⟩ = .coded (encode i) := by
  simp [assembleParsed, resolveMnemonic_mnemonicText, argKinds_mnemonic, parseArgs_argTexts, ofArgs_args]

/-- A line in which no comment begins is its own body. -/
theorem stripComment_of_uncommented {p : AsmParams} {line : List Char}
    (h : ∀ cs, cs ≠ [] → cs <:+ line → p.commentAt cs = false) : stripComment p line = line := by
  induction line with
  | nil => rfl
  | cons c cs ih =>
    have hhere := h (c :: cs) (List.cons_ne_nil c cs) (List.suffix_refl _)
    have hrest := ih fun ds hne hsuf => h ds hne (hsuf.trans (List.suffix_cons c cs))
    simp [stripComment, hhere, hrest]

/-- Settles O58: the line's tokens are its number, the mnemonic's name and the arguments' texts, and each reads back as
what it was written from. -/
theorem disassemblyReassembles : Obligations.DisassemblyReassembles := by
  intro p i line h
  have hnotBlank : line.all isSpaceChar = false := rfl
  have hparse : parseLine line = _ := parseLine_instrText i
  simp [assembleLine, stripComment_of_uncommented h, hnotBlank, hparse, assembleParsed_instr]

/-! ### The other names (R65) -/

/-- `setn` is no mnemonic's name, and stands first in the table of other names. -/
theorem resolveMnemonic_setn (p : AsmParams) : resolveMnemonic p "setn".toList = some .loadn := by
  have hname : allMnemonics.find? (fun m => mnemonicText m = "setn".toList) = none := by decide
  simp only [resolveMnemonic, hname]
  rfl

end Sys2Proof.Machine

/-! ## Proofs: the adder and the divider (spec/40_execution_cycle.md R84 to R89) -/

namespace Sys2Proof.Machine

/-- Settles O15: the sum bits and the final carry of the ripple hold the exact sum. -/
theorem addBitsAddsValues : Obligations.AddBitsAddsValues := by
  intro a b
  obtain ⟨low, carry, hadd, hlen, hvalue⟩ := addBits_cases a b
  rw [hadd, ← hvalue, ← hlen]
  cases carry with
  | false => simp
  | true =>
    refine ⟨?_, .inr ⟨rfl, rfl⟩⟩
    simp [bitsValue_cons, Nat.add_comm]

/-! ### The ripple-carry adder (R85) -/

/-- The carry chain of R84 is the library's carry. -/
theorem rippleCarry_eq (a b : Word) (cin : Bool) (i : Nat) : rippleCarry a b cin i = BitVec.carry i a b cin := by
  induction i with
  | zero => exact BitVec.carry_zero.symm
  | succ i ih =>
    rw [rippleCarry, ih, BitVec.carry_succ]
    cases a.getLsbD i <;> cases b.getLsbD i <;> simp [Bool.atLeastTwo]

theorem getLsbD_wordOfBits (f : Nat → Bool) {n i : Nat} (hi : i < 16) :
    (wordOfBits f n).getLsbD i = (decide (i < n) && f i) := by
  induction n with
  | zero => simp [wordOfBits]
  | succ n ih =>
    rw [wordOfBits, BitVec.getLsbD_or, ih, BitVec.getLsbD_shiftLeft]
    rcases lt_trichotomy i n with h | rfl | h
    · simp [h, show i < n + 1 by omega]
    · simp [hi]
    · simp [hi, show ¬i < n by omega, show ¬i < n + 1 by omega, show i - n ≠ 0 by omega]

theorem adder16_sum (a b : Word) (cin : Bool) : (adder16 a b cin).sum = a + b + (BitVec.ofBool cin).setWidth 16 := by
  refine BitVec.eq_of_getLsbD_eq fun i hi => ?_
  rw [BitVec.getLsbD_add_add_bool hi, adder16, getLsbD_wordOfBits _ hi, decide_eq_true hi, Bool.true_and, rippleSum,
    rippleCarry_eq, Bool.xor_assoc]

theorem adder16_cout (a b : Word) (cin : Bool) :
    (adder16 a b cin).cout = decide (2 ^ 16 ≤ a.toNat + b.toNat + cin.toNat) := by
  rw [adder16, rippleCarry_eq, BitVec.carry, Nat.mod_eq_of_lt a.isLt, Nat.mod_eq_of_lt b.isLt]

theorem toNat_carryIn (cin : Bool) : ((BitVec.ofBool cin).setWidth 16).toNat = cin.toNat := by cases cin <;> rfl

/-- Sum and carry-out hold the exact sum. -/
theorem adder16_value (a b : Word) (cin : Bool) :
    (adder16 a b cin).sum.toNat + 2 ^ 16 * (adder16 a b cin).cout.toNat = a.toNat + b.toNat + cin.toNat := by
  have ha := a.isLt
  have hb := b.isLt
  have hc : cin.toNat ≤ 1 := Bool.toNat_le cin
  rw [adder16_sum, adder16_cout, BitVec.toNat_add, BitVec.toNat_add, toNat_carryIn]
  by_cases h : 2 ^ 16 ≤ a.toNat + b.toNat + cin.toNat
  · rw [decide_eq_true h, Bool.toNat_true]; omega
  · rw [decide_eq_false h, Bool.toNat_false]; omega

/-- Settles O16: both hold the exact sum of the two words, in a string of 16 bits and a carry. -/
theorem adderIsAddBits : Obligations.AdderIsAddBits := by
  intro a b
  obtain ⟨low, carry, hadd, hlen, hvalue⟩ := addBits_cases (wordBits a) (wordBits b)
  rw [length_wordBits, length_wordBits, Nat.max_self] at hlen hvalue
  rw [bitsValue_wordBits, bitsValue_wordBits] at hvalue
  have hadder := adder16_value a b false
  have hlow := bitsValue_lt low
  have hsum := (adder16 a b false).sum.isLt
  rw [hlen] at hlow
  rw [Bool.toNat_false, Nat.add_zero, ← hvalue] at hadder
  have hcarry : (adder16 a b false).cout = carry := by
    cases hc : (adder16 a b false).cout <;> cases carry <;> simp [hc] at hadder ⊢ <;> omega
  rw [hcarry] at hadder ⊢
  have hbits : low = wordBits (adder16 a b false).sum :=
    eq_of_bitsValue_eq (hlen.trans (length_wordBits _).symm) (by rw [bitsValue_wordBits]; omega)
  rw [hadd, hbits]

/-! ### The overflow output (R86) -/

/-- `ovf` is 1 exactly when the exact sum of the signed readings does not fit. -/
theorem adder16_ovf (a b : Word) (cin : Bool) :
    (adder16 a b cin).ovf = !fits16 (sval a + sval b + (cin.toNat : Int)) := by
  have ha := a.isLt
  have hb := b.isLt
  have hc : cin.toNat ≤ 1 := Bool.toNat_le cin
  have hxor (p q : Prop) [Decidable p] [Decidable q] : (decide p ^^ decide q) = !decide (p ↔ q) := by
    by_cases p <;> by_cases q <;> simp [*]
  rw [adder16, rippleCarry_eq, rippleCarry_eq, BitVec.carry, BitVec.carry, hxor, Bool.not_inj_iff, Bool.eq_iff_iff,
    decide_eq_true_eq, fits16_iff, sval, sval, BitVec.toInt_eq_toNat_cond, BitVec.toInt_eq_toNat_cond]
  split <;> split <;> omega

/-- `sum` is the word of the exact sum. -/
theorem adder16_sum_word (a b : Word) (cin : Bool) :
    (adder16 a b cin).sum = word (sval a + sval b + (cin.toNat : Int)) := by
  have hcin : BitVec.ofInt 16 (cin.toNat : Int) = (BitVec.ofBool cin).setWidth 16 := by cases cin <;> rfl
  rw [adder16_sum, word, BitVec.ofInt_add, BitVec.ofInt_add, BitVec.ofInt_toInt, BitVec.ofInt_toInt, hcin]

/-- What `AdderOverflowIsExact` and `AdderDrivesArithmetic` say of an adder's outputs and its exact integer. -/
theorem adder16_exact (a b : Word) (cin : Bool) {e : Int} (he : e = sval a + sval b + (cin.toNat : Int)) :
    ((adder16 a b cin).ovf = true ↔ ¬(-32768 ≤ e ∧ e ≤ 32767)) ∧
      ((adder16 a b cin).ovf = false → sval (adder16 a b cin).sum = e) := by
  subst he
  rw [adder16_ovf, Bool.not_eq_true', fits16_false_iff, Bool.not_eq_false']
  exact ⟨Iff.rfl, fun hfits => by rw [adder16_sum_word, sval_word hfits]⟩

/-- The writeback of the exact integer is the test of `ovf` and the write of `sum`. -/
theorem writeback_adder16 (s : State) (rd : RegNo) (a b : Word) (cin : Bool) {e : Int}
    (he : e = sval a + sval b + (cin.toNat : Int)) : writeback s rd e = adderWriteback s rd (adder16 a b cin) := by
  subst he
  rw [writeback, writebackFrom, adderWriteback, adder16_ovf, adder16_sum_word]

/-! ### The source's addition law -/

/-- In range, the two's-complement string is that of the integer's word. -/
theorem toTwosComplement_eq_wordBits {v : Int} (hlo : -32768 ≤ v) (hhi : v ≤ 32767) :
    toTwosComplement v 16 = some (wordBits (word v)) := by
  rw [wordBits, word, BitVec.toNat_ofInt]
  rcases lt_or_ge v 0 with hneg | hpos
  · rw [toTwosComplement_neg_pattern (by decide) (by omega) hneg]
    congr 2; omega
  · rw [toTwosComplement_nonneg hpos (by omega)]
    congr 2; omega

/-- The signed value of a word's string is its signed reading. -/
theorem fromTwosComplement_wordBits (w : Word) : fromTwosComplement (wordBits w) = sval w := by
  obtain ⟨hlo, hhi⟩ := (fits16_iff _).1 (fits16_sval w)
  obtain ⟨bits, hto, hfrom⟩ := fromTwosComplement_toTwosComplement (width := 16) (by decide) (v := sval w)
    (by omega) (by omega)
  rw [toTwosComplement_eq_wordBits hlo hhi, word_sval, Option.some.injEq] at hto
  rw [hto, hfrom]

/-- The low 16 bits of `addBits` are the adder's sum. -/
theorem drop_addBits_wordBits (a b : Word) :
    (addBits (wordBits a) (wordBits b)).drop ((addBits (wordBits a) (wordBits b)).length - 16) =
      wordBits (adder16 a b false).sum := by
  rw [adderIsAddBits a b]
  split <;> simp [length_wordBits]

/-- Settles O17: the carries into and out of bit 15 differ exactly when the exact sum does not fit. -/
theorem adderOverflowIsExact : Obligations.AdderOverflowIsExact := by
  refine ⟨fun a b cin => ?_, fun a b hla hha hlb hhb hl hh => ?_⟩
  · intro e
    obtain ⟨hovf, hsum⟩ := adder16_exact a b cin (e := e) rfl
    exact ⟨hovf, hsum, fun s rd => writeback_adder16 s rd a b cin rfl⟩
  · refine ⟨_, _, toTwosComplement_eq_wordBits hla hha, toTwosComplement_eq_wordBits hlb hhb, ?_⟩
    have hsa : sval (word a) = a := sval_word ((fits16_iff a).2 ⟨hla, hha⟩)
    have hsb : sval (word b) = b := sval_word ((fits16_iff b).2 ⟨hlb, hhb⟩)
    rw [drop_addBits_wordBits, fromTwosComplement_wordBits, adder16_sum_word, hsa, hsb, Bool.toNat_false,
      Int.ofNat_zero, add_zero, sval_word ((fits16_iff _).2 ⟨hl, hh⟩)]

/-! ### What drives the adder (R87) -/

/-- The complement of a word reads as its negation less 1. -/
theorem sval_not (w : Word) : sval (~~~w) = -sval w - 1 := by
  have hw := w.isLt
  rw [sval, sval, BitVec.toInt_eq_toNat_cond, BitVec.toInt_eq_toNat_cond, BitVec.toNat_not]
  split <;> split <;> omega

@[simp] theorem signedImm_eq (s : Imm8) : signedImm s = s.toInt := BitVec.toInt_signExtend_of_le (by decide)

/-- Settles O18: each instruction's exact integer is the signed sum of the adder's inputs, the carry-in making a
complement a negation. -/
theorem adderDrivesArithmetic : Obligations.AdderDrivesArithmetic := by
  intro s rX rY rZ imm exact
  have hadd : s.x rY + s.x rZ = sval (s.reg rY) + sval (s.reg rZ) + ((false.toNat : Nat) : Int) := (add_zero _).symm
  have hsub : s.x rY - s.x rZ = sval (s.reg rY) + sval (~~~(s.reg rZ)) + ((true.toNat : Nat) : Int) := by
    rw [sval_not]
    show sval (s.reg rY) - sval (s.reg rZ) = _ + 1
    ring
  have hneg : -s.x rY = sval 0x0000 + sval (~~~(s.reg rY)) + ((true.toNat : Nat) : Int) := by
    rw [sval_not]
    show -sval (s.reg rY) = 0 + _ + 1
    ring
  have haddn : s.x rX + imm.toInt = sval (s.reg rX) + sval (imm.signExtend 16) + ((false.toNat : Nat) : Int) := by
    rw [← signedImm_eq]
    exact (add_zero _).symm
  refine ⟨writeback_adder16 s rX _ _ _ hadd, writeback_adder16 s rX _ _ _ hsub, writeback_adder16 s rX _ _ _ hneg, ?_,
    adder16_exact _ _ _ hadd, adder16_exact _ _ _ hsub, adder16_exact _ _ _ hneg, adder16_exact _ _ _ haddn, rfl⟩
  show writeback s rX (s.x rX + signedImm imm) = _
  rw [signedImm_eq]
  exact writeback_adder16 s rX _ _ _ haddn

/-! ### The divider (R89) -/

theorem divider_zero (mode : DivMode) (n : Int) : divider mode n 0 = none := rfl

theorem divider_floor (n : Int) {d : Int} (hd : d ≠ 0) : divider .floor n d = some ⟨n.fdiv d, n.fmod d⟩ := by
  rw [divider_eq, if_neg hd, Int.fmod_def]
  rfl

theorem divider_trunc (n : Int) {d : Int} (hd : d ≠ 0) : divider .trunc n d = some ⟨n.tdiv d, n.tmod d⟩ := by
  rw [divider_eq, if_neg hd, Int.tmod_def]
  rfl

/-- Under FLOOR the remainder has the divisor's sign, and is smaller. -/
theorem fmod_sign_size (n : Int) {d : Int} (hd : d ≠ 0) :
    (n.fmod d = 0 ∨ (0 < n.fmod d ↔ 0 < d)) ∧ |n.fmod d| < |d| := by
  have hlo := Int.emod_nonneg n hd
  have hhi := Int.emod_lt_abs n hd
  rw [Int.fmod_eq_emod, abs_lt]
  rcases abs_cases d with ⟨h, -⟩ | ⟨h, -⟩ <;> rw [h] at hhi ⊢ <;> split_ifs with hc
  · omega
  · omega
  · rcases hc with hc | hc
    · omega
    · rw [Int.emod_eq_zero_of_dvd hc]; omega
  · have hne : n % d ≠ 0 := fun h0 => hc (.inr (Int.dvd_of_emod_eq_zero h0))
    omega

/-- Under TRUNC the remainder has the dividend's sign, and is smaller. -/
theorem tmod_sign_size (n : Int) {d : Int} (hd : d ≠ 0) :
    (n.tmod d = 0 ∨ (0 < n.tmod d ↔ 0 < n)) ∧ |n.tmod d| < |d| := by
  have hlo := Int.emod_nonneg n hd
  have hhi := Int.emod_lt_abs n hd
  rw [Int.tmod_eq_emod, abs_lt]
  split_ifs with hc
  · rcases hc with hc | hc
    · have hzero : n = 0 → n % d = 0 := by rintro rfl; exact Int.zero_emod d
      omega
    · rw [Int.emod_eq_zero_of_dvd hc]; omega
  · have hne : n % d ≠ 0 := fun h0 => hc (.inr (Int.dvd_of_emod_eq_zero h0))
    rw [Int.natCast_natAbs]
    omega

/-- The modes agree on a quotient that both round the same way. -/
theorem fdiv_eq_tdiv_of_agree {n d : Int} (h : (0 ≤ n ∧ 0 < d) ∨ d ∣ n) : n.fdiv d = n.tdiv d := by
  rcases h with ⟨hn, hd⟩ | h
  · exact Int.fdiv_eq_tdiv_of_nonneg hn hd.le
  · rw [Int.fdiv_eq_ediv_of_dvd h, Int.tdiv_eq_ediv_of_dvd h]

/-- A divisor other than 1 and -1 at least halves the dividend, up to a remainder. -/
theorem abs_quotient_lt {n d q r : Int} (hn : |n| ≤ 32768) (h : n = d * q + r) (hr : |r| < |d|) (hd : 2 ≤ |d|) :
    |q| < 32768 := by
  have hprod : |d| * |q| < 32768 + |d| := by
    calc |d| * |q| = |n - r| := by rw [← abs_mul, h]; ring_nf
      _ ≤ |n| + |r| := abs_sub n r
      _ < 32768 + |d| := by omega
  nlinarith [abs_nonneg q]

/-- The one quotient out of range, in either mode. -/
theorem quotient_out_of_range_iff {n d q r : Int} (hlo : -32768 ≤ n) (hhi : n ≤ 32767) (hd : d ≠ 0)
    (h : n = d * q + r) (hr : |r| < |d|) : ¬(-32768 ≤ q ∧ q ≤ 32767) ↔ n = -32768 ∧ d = -1 := by
  by_cases h2 : 2 ≤ |d|
  · obtain ⟨hqlo, hqhi⟩ := abs_lt.1 (abs_quotient_lt (abs_le.2 ⟨hlo, by omega⟩) h hr h2)
    have hne : d ≠ -1 := by rintro rfl; simp at h2
    omega
  · have hone : d = 1 ∨ d = -1 := by rcases abs_cases d with habs | habs <;> omega
    have hr0 : r = 0 := by rcases hone with rfl | rfl <;> simpa using hr
    rcases hone with rfl | rfl <;> omega

/-- A remainder smaller than a 16-bit divisor is a 16-bit integer. -/
theorem remainder_in_range {d r : Int} (hlo : -32768 ≤ d) (hhi : d ≤ 32767) (hr : |r| < |d|) :
    -32768 ≤ r ∧ r ≤ 32767 := by
  have hsize := abs_lt.1 hr
  rcases abs_cases d with habs | habs <;> omega

/-- Settles O19: the sign and size of each remainder, and from them and the division law the range of each quotient. -/
theorem dividerLaw : Obligations.DividerLaw := by
  refine ⟨divider_zero, fun n d hnlo hnhi hdlo hdhi hd => ?_⟩
  have hfloor : n = d * n.fdiv d + n.fmod d := (Int.mul_fdiv_add_fmod n d).symm
  have htrunc : n = d * n.tdiv d + n.tmod d := (Int.mul_tdiv_add_tmod n d).symm
  obtain ⟨hfsign, hfsize⟩ := fmod_sign_size n hd
  obtain ⟨htsign, htsize⟩ := tmod_sign_size n hd
  refine ⟨_, _, _, _, divider_floor n hd, divider_trunc n hd, hfloor, hfsign, hfsize, htrunc, htsign, htsize,
    fun hagree => ?_, quotient_out_of_range_iff hnlo hnhi hd hfloor hfsize,
    quotient_out_of_range_iff hnlo hnhi hd htrunc htsize, ?_, remainder_in_range hdlo hdhi hfsize,
    remainder_in_range hdlo hdhi htsize⟩
  · have hq := fdiv_eq_tdiv_of_agree hagree
    exact ⟨hq, by rw [Int.fmod_def, Int.tmod_def, hq]⟩
  · rintro ⟨rfl, rfl⟩
    decide

end Sys2Proof.Machine

/-! ## Proofs: what an instruction depends on (spec/10_state.md R18, spec/60_exceptions.md R119, R134) -/

namespace Sys2Proof.Machine

/-! ### The effect an instruction chooses -/

/-- What an instruction does, once it has read what it reads. -/
inductive Effect where
  | raise (f : RunFault) (info : FaultInfo)
  | keep
  | write (rd : RegNo) (w : Word)
  | store (a : Nat) (w : Word)
  | jump (p : Word)
  | link (p : Word) (rd : RegNo) (w : Word)
  | output (v : Int)
  | halt
  | await
  | input (rd : RegNo) (w : Word)
  | inputFault (f : RunFault)

/-- The next state of an effect. -/
def Effect.apply : Effect → State → State
  | .raise f info, s => s.raise f info
  | .keep, s => s.retire
  | .write rd w, s => (s.setReg rd w).retire
  | .store a w, s => ({ s with mem := s.mem.write a w } : State).retire
  | .jump p, s => ({ s with pc := p } : State).retire
  | .link p rd w, s => (State.setReg { s with pc := p } rd w).retire
  | .output v, s => (s.output v).retire
  | .halt, s => ({ s with status := .halted } : State).retire
  | .await, s => s.consoleSeen true
  | .input rd w, s => ((s.consoleSeen false).setReg rd w).retire
  | .inputFault f, s => (s.consoleSeen false).raise f .none

/-- The effect of an instruction that writes a given register, if it writes one: a fault and a wait write none. -/
def Effect.Writes : Effect → Option RegNo → Prop
  | .write rd _, r | .link _ rd _, r | .input rd _, r => r = some rd
  | .keep, r | .store _ _, r | .jump _, r | .output _, r | .halt, r => r = none
  | .raise _ _, _ | .await, _ | .inputFault _, _ => True

/-- Two states that an instruction cannot tell apart: they differ in registers it does not read, in the debugger, and
in what no instruction reads. -/
structure Alike (i : Instr) (s t : State) : Prop where
  pc : t.pc = s.pc
  mem : t.mem = s.mem
  codeSize : t.codeSize = s.codeSize
  params : t.params = s.params
  host : t.host = s.host
  reads : ∀ r ∈ regReads i, t.reg r = s.reg r

theorem Alike.x {i : Instr} {s t : State} (h : Alike i s t) {r : RegNo} (hr : r ∈ regReads i) : t.x r = s.x r :=
  congrArg sval (h.reads r hr)

/-- An operation has one effect in every state that the instruction cannot tell from `s`. -/
def Decided (i : Instr) (s : State) (op : State → Result) : Prop :=
  ∃ e : Effect, e.Writes (regWrites i) ∧ ∀ t, Alike i s t → op t = .next (e.apply t)

theorem Alike.overflows_iff {i : Instr} {s t : State} (h : Alike i s t) (rd : RegNo) (v : Int) :
    Overflows t rd v ↔ Overflows s rd v := by
  rw [Overflows, Overflows, h.params]

theorem decided_writeback {i : Instr} (s : State) {rd : RegNo} (hw : regWrites i = some rd) {v : State → Int}
    (hv : ∀ t, Alike i s t → v t = v s) : Decided i s (fun t => writeback t rd (v t)) := by
  by_cases ho : Overflows s rd (v s)
  · refine ⟨.raise .integerOverflow .none, trivial, fun t h => ?_⟩
    exact writebackFrom_overflow (by rwa [hv t h, h.overflows_iff]) t
  · refine ⟨.write rd (word (v s)), hw, fun t h => ?_⟩
    rw [← hv t h]
    exact writebackFrom_written (by rwa [hv t h, h.overflows_iff]) t

theorem decided_loadFrom {i : Instr} (s : State) {rd : RegNo} (hw : regWrites i = some rd) {ea : State → Int}
    (hea : ∀ t, Alike i s t → ea t = ea s) : Decided i s (fun t => loadFrom t rd (ea t)) := by
  cases hv : validAddress s.codeSize (ea s) with
  | true =>
    refine ⟨.write rd (s.mem.read (ea s).toNat), hw, fun t h => ?_⟩
    rw [← hea t h, ← h.mem]
    exact loadFrom_valid (by rwa [h.codeSize, hea t h]) rd
  | false =>
    refine ⟨.raise .invalidMemoryTarget (.addr (ea s)), trivial, fun t h => ?_⟩
    rw [← hea t h]
    exact loadFrom_invalid (by rwa [h.codeSize, hea t h]) rd

theorem decided_storeTo {i : Instr} (s : State) (hw : regWrites i = none) {ea : State → Int} {w : State → Word}
    (hea : ∀ t, Alike i s t → ea t = ea s) (hword : ∀ t, Alike i s t → w t = w s) :
    Decided i s (fun t => storeTo t (ea t) (w t)) := by
  cases hv : validAddress s.codeSize (ea s) with
  | true =>
    refine ⟨.store (ea s).toNat (w s), hw, fun t h => ?_⟩
    rw [← hea t h, ← hword t h]
    exact storeTo_valid (by rwa [h.codeSize, hea t h]) (w t)
  | false =>
    refine ⟨.raise .invalidMemoryTarget (.addr (ea s)), trivial, fun t h => ?_⟩
    rw [← hea t h]
    exact storeTo_invalid (by rwa [h.codeSize, hea t h]) (w t)

theorem decided_transfer {i : Instr} (s : State) (hw : regWrites i = none) {p : State → Int}
    (hp : ∀ t, Alike i s t → p t = p s) : Decided i s (fun t => transfer t (p t)) := by
  cases hv : validTarget s.codeSize (p s) with
  | true =>
    refine ⟨.jump (word (p s)), hw, fun t h => ?_⟩
    rw [← hp t h]
    exact transferThen_valid (by rwa [h.codeSize, hp t h]) complete
  | false =>
    refine ⟨.raise .invalidJumpTarget (.target (p s)), trivial, fun t h => ?_⟩
    rw [← hp t h]
    exact transferThen_invalid (by rwa [h.codeSize, hp t h]) complete

theorem decided_branchIf {i : Instr} (s : State) (hw : regWrites i = none) (p : Int) {taken : State → Bool}
    (ht : ∀ t, Alike i s t → taken t = taken s) : Decided i s (fun t => branchIf t (taken t) p) := by
  cases hs : taken s with
  | true =>
    obtain ⟨e, hwrites, he⟩ := decided_transfer s hw (p := fun _ => p) (fun _ _ => rfl)
    refine ⟨e, hwrites, fun t h => ?_⟩
    show branchIf t (taken t) p = _
    rw [ht t h, hs, branchIf_taken]
    exact he t h
  | false =>
    by_cases hc : s.params.checkUntakenTarget = true → validTarget s.codeSize p = true
    · refine ⟨.keep, hw, fun t h => ?_⟩
      show branchIf t (taken t) p = _
      rw [ht t h, hs]
      exact branchIf_untaken (by rwa [h.params, h.codeSize])
    · refine ⟨.raise .invalidJumpTarget (.target p), trivial, fun t h => ?_⟩
      obtain ⟨hcheck, hbad⟩ := Classical.not_imp.1 hc
      show branchIf t (taken t) p = _
      rw [ht t h, hs]
      exact branchIf_untaken_invalid (by rwa [h.params]) (by rwa [h.codeSize, ← Bool.not_eq_true])

theorem decided_call (s : State) (rX : RegNo) (u : Imm8) : Decided (.call rX u) s (execCall rX u) := by
  have hlink {t : State} (h : Alike (.call rX u) s t) : linkValue t = linkValue s := by rw [linkValue, h.pc, linkValue]
  cases hv : validTarget s.codeSize (directTarget u) with
  | true =>
    have hcall {t : State} (h : Alike (.call rX u) s t) :
        execCall rX u t = writebackFrom t rX (linkValue s) { t with pc := word (directTarget u) } := by
      rw [← hlink h]
      exact transferThen_valid (by rwa [h.codeSize]) _
    by_cases ho : Overflows s rX (linkValue s)
    · refine ⟨.raise .integerOverflow .none, trivial, fun t h => ?_⟩
      rw [hcall h]
      exact writebackFrom_overflow ((h.overflows_iff _ _).2 ho) _
    · refine ⟨.link (word (directTarget u)) rX (word (linkValue s)), rfl, fun t h => ?_⟩
      rw [hcall h]
      exact writebackFrom_written (fun h' => ho ((h.overflows_iff _ _).1 h')) _
  | false =>
    refine ⟨.raise .invalidJumpTarget (.target (directTarget u)), trivial, fun t h => ?_⟩
    exact transferThen_invalid (by rwa [h.codeSize]) _

/-- The effect of a `read`, by what the console gives it. -/
def readEffect (rX : RegNo) : Option (Option ReadAnswer) → Effect
  | some (some (.value v)) => .input rX v
  | some (some .eof) => .inputFault .endOfInput
  | some (some .abort) | some (some .cancel) => .inputFault .interrupted
  | some none | none => .await

theorem readEffect_of_no_answer (rX : RegNo) {a : Option (Option ReadAnswer)} (h : ∀ e, a ≠ some (some e)) :
    readEffect rX a = .await := by
  match a with
  | none => rfl
  | some none => rfl
  | some (some e) => exact absurd rfl (h e)

theorem readConsole_eq (s : State) (rX : RegNo) :
    readConsole s rX = .next ((readEffect rX s.host.console.head?).apply s) := by
  rcases readConsole_cases s rX with ⟨hn, h⟩ | ⟨v, hv, h⟩ | ⟨he, h⟩ | ⟨ha | ha, h⟩
  · rw [h, readEffect_of_no_answer rX hn]; rfl
  · rw [h, hv]; rfl
  · rw [h, he]; rfl
  · rw [h, ha]; rfl
  · rw [h, ha]; rfl

theorem readEffect_writes (rX : RegNo) (a : Option (Option ReadAnswer)) : (readEffect rX a).Writes (some rX) := by
  match a with
  | none => trivial
  | some none => trivial
  | some (some (.value v)) => rfl
  | some (some .eof) | some (some .abort) | some (some .cancel) => trivial

theorem decided_read (s : State) (rX : RegNo) : Decided (.read rX) s (execRead rX) := by
  refine ⟨readEffect rX s.host.console.head?, readEffect_writes rX _, fun t h => ?_⟩
  rw [← h.host]
  exact readConsole_eq t rX

/-- A division's operands are read before its divisor is tested. -/
theorem decided_divider {i : Instr} (s : State) {rX rY rZ : RegNo} (hr : regReads i = [rY, rZ])
    (hw : regWrites i = some rX) (out : DivOut → Int) :
    Decided i s (fun t => match divider t.params.divMode (t.x rY) (t.x rZ) with
      | none => .next (t.raise .divisionByZero .none)
      | some o => writeback t rX (out o)) := by
  have hdiv {t : State} (h : Alike i s t) : divider t.params.divMode (t.x rY) (t.x rZ) =
      divider s.params.divMode (s.x rY) (s.x rZ) := by
    rw [h.params, h.x (by simp [hr]), h.x (by simp [hr])]
  cases hs : divider s.params.divMode (s.x rY) (s.x rZ) with
  | none => exact ⟨.raise .divisionByZero .none, trivial, fun t h => by simp only [hdiv h, hs]; rfl⟩
  | some o =>
    obtain ⟨e, hwrites, he⟩ := decided_writeback (i := i) s hw (v := fun _ => out o) (fun _ _ => rfl)
    exact ⟨e, hwrites, fun t h => by simp only [hdiv h, hs]; exact he t h⟩

/-- Every instruction's effect is chosen by the registers it reads and the state's data, `PC` and host. -/
theorem exec_decided (i : Instr) (s : State) : Decided i s (exec i) := by
  cases i with
  | halt => exact ⟨.halt, rfl, fun _ _ => rfl⟩
  | read rX => exact decided_read s rX
  | write rX => exact ⟨.output (s.x rX), rfl, fun t h => by rw [← h.x (r := rX) (by simp [regReads])]; rfl⟩
  | jumpi rX => exact decided_transfer s rfl fun t h => h.x (by simp [regReads])
  | loadn rX imm => exact decided_writeback s rfl fun _ _ => rfl
  | load rX u => exact decided_loadFrom s rfl (ea := fun _ => directAddress u) fun _ _ => rfl
  | store rX u =>
    exact decided_storeTo s rfl (ea := fun _ => directAddress u) (fun _ _ => rfl)
      fun t h => h.reads rX (by simp [regReads])
  | loadi rX rY => exact decided_loadFrom s rfl fun t h => h.x (r := rY) (by simp [regReads])
  | storei rX rY =>
    exact decided_storeTo s rfl (fun t h => h.x (r := rY) (by simp [regReads]))
      fun t h => h.reads rX (by simp [regReads])
  | addn rX imm => exact decided_writeback s rfl fun t h => by rw [h.x (r := rX) (by simp [regReads])]
  | nop => exact ⟨.keep, rfl, fun _ _ => rfl⟩
  | mov rX rY => exact decided_writeback s rfl fun t h => h.x (by simp [regReads])
  | add rX rY rZ | sub rX rY rZ | mul rX rY rZ =>
    exact decided_writeback s rfl fun t h => by
      rw [h.x (r := rY) (by simp [regReads]), h.x (r := rZ) (by simp [regReads])]
  | neg rX rY => exact decided_writeback s rfl fun t h => by rw [h.x (r := rY) (by simp [regReads])]
  | div rX rY rZ => exact decided_divider s rfl rfl DivOut.q
  | mod rX rY rZ => exact decided_divider s rfl rfl DivOut.r
  | jump u => exact decided_transfer s rfl (p := fun _ => directTarget u) fun _ _ => rfl
  | call rX u => exact decided_call s rX u
  | jeqz rX u | jnez rX u | jgtz rX u | jltz rX u =>
    exact decided_branchIf s rfl (directTarget u) fun t h => by rw [h.x (r := rX) (by simp [regReads])]
  | data n => exact ⟨.raise .invalidOpcode .none, trivial, fun _ _ => rfl⟩

/-! ### Registers and the debugger apart -/

/-- A written register reads the same whatever the registers held. -/
theorem State.reg_setReg_same (s : State) (r : RegNo) (w : Word) :
    (s.setReg r w).reg r = if r = 0 then 0 else w := by
  rw [State.reg_setReg]
  by_cases hr : r = 0
  · subst hr; rfl
  · rw [if_pos ⟨rfl, hr⟩, if_neg hr]

/-- An effect makes the same change to everything but the registers, whatever they hold. -/
theorem Effect.apply_regs (e : Effect) (s : State) (other : Vector Word 16) :
    { e.apply { s with regs := other } with regs := (e.apply s).regs } = e.apply s := by
  cases e with
  | write rd w | input rd w | link p rd w =>
    simp only [Effect.apply, State.setReg]
    split <;> rfl
  | raise | keep | store | jump | output | halt | await | inputFault => rfl

/-- The register an effect writes comes out the same in every state. -/
theorem Effect.apply_reg {e : Effect} {r : RegNo} (hwrites : e.Writes (some r)) (s t : State)
    (hf : ∀ f, (e.apply s).status ≠ .fault f) (hw : (e.apply s).waiting = false) :
    (e.apply t).reg r = (e.apply s).reg r := by
  cases e with
  | write rd w | input rd w | link p rd w =>
    cases hwrites
    simp only [Effect.apply, State.reg_retire, State.reg_setReg_same]
  | raise f | inputFault f => exact absurd rfl (hf f)
  | await => cases hw
  | keep | store | jump | output | halt => cases hwrites

/-- An effect makes the same change under every state of the debugger. -/
theorem Effect.apply_dbg (e : Effect) (s : State) (d : DebuggerState) :
    SameButDebugger (e.apply s) (e.apply { s with dbg := d }) := by
  cases e with
  | write rd w | input rd w | link p rd w =>
    simp only [SameButDebugger, Effect.apply, State.setReg]
    split <;> rfl
  | raise | keep | store | jump | output | halt | await | inputFault => rfl

/-- Settles O11: the one change of an instruction writes the table's register alone, and the effect is chosen by the
registers the table names as read. -/
theorem instructionsReadAndWriteTheirRegisters : Obligations.InstructionsReadAndWriteTheirRegisters := by
  refine ⟨fun i s t he r hr => ?_, fun i s t other _ he hreads => ?_⟩
  · cases ends_of_exec he with
    | completes _ _ u h => rw [State.reg_retire, h.reg_of_ne hr]
    | raises | waits | inputEnds | inputAborts => rfl
  · obtain ⟨e, hwrites, hall⟩ := exec_decided i s
    have hs := hall s ⟨rfl, rfl, rfl, rfl, rfl, fun _ _ => rfl⟩
    rw [he] at hs
    cases hs
    refine ⟨_, hall { s with regs := other } ⟨rfl, rfl, rfl, rfl, rfl, hreads⟩, e.apply_regs s other, ?_⟩
    intro hf hw r hr
    rw [hr] at hwrites
    exact Effect.apply_reg hwrites s _ hf hw

/-- Settles O49: no instruction reads the debugger, and its effect keeps all else apart from it. -/
theorem debuggerIsTransparent : Obligations.DebuggerIsTransparent := by
  intro i s t d he
  obtain ⟨e, -, hall⟩ := exec_decided i s
  have hs := hall s ⟨rfl, rfl, rfl, rfl, rfl, fun _ _ => rfl⟩
  rw [he] at hs
  cases hs
  exact ⟨_, hall { s with dbg := d } ⟨rfl, rfl, rfl, rfl, rfl, fun _ _ => rfl⟩, e.apply_dbg s d⟩

end Sys2Proof.Machine

/-! ## Proofs: the instructions one by one (spec/41 to spec/45) -/

namespace Sys2Proof.Machine

/-! ### Exact results (R79) -/

theorem not_overflows_of_fits {s : State} {rd : RegNo} {v : Int} (h : fits16 v = true) : ¬Overflows s rd v := by
  rintro ⟨hf, -⟩
  rw [h] at hf
  cases hf

theorem overflows_iff (s : State) (rd : RegNo) (v : Int) :
    Overflows s rd v ↔ ¬(-32768 ≤ v ∧ v ≤ 32767) ∧ (rd ≠ 0 ∨ s.params.checkOvfR0 = true) := by
  rw [Overflows, fits16_false_iff]

/-- An integer that passes the range check is the one written, but for r0, where nothing is. -/
theorem onlyRegister_of_not_overflows {s : State} {rd : RegNo} {v : Int} (h : ¬Overflows s rd v) :
    OnlyRegister rd v s (s.setReg rd (word v)).retire := by
  obtain ⟨-, hmem, hrest⟩ := onlyRegister_setReg s rd (word v)
  refine ⟨fun r => ?_, hmem, hrest⟩
  rw [x_setReg_retire]
  refine ite_congr rfl (fun hr => ?_) (fun _ => rfl)
  have hne : rd ≠ 0 := hr.1 ▸ hr.2
  have hfits : fits16 v = true := by
    rw [← Bool.not_eq_false]
    exact fun hf => h ⟨hf, .inl hne⟩
  exact sval_word hfits

theorem writeback_onlyRegister {s : State} {rd : RegNo} {v : Int} (h : ¬Overflows s rd v) :
    ∃ t, writeback s rd v = .next t ∧ OnlyRegister rd v s t :=
  ⟨_, writebackFrom_written h s, onlyRegister_of_not_overflows h⟩

theorem writeback_faultTaken {s : State} {rd : RegNo} {v : Int} (h : Overflows s rd v) :
    ∃ t, writeback s rd v = .next t ∧ FaultTaken .integerOverflow .none s t :=
  ⟨_, writebackFrom_overflow h s, faultTaken_raise s _ _⟩

/-- Settles O12: the range check, and the write of an integer that passes it. -/
theorem writebackChecksRange : Obligations.WritebackChecksRange := by
  intro s rd v
  have hrange : (v < -32768 ∨ v > 32767) ∧ (rd ≠ 0 ∨ s.params.checkOvfR0 = true) ↔ Overflows s rd v := by
    rw [overflows_iff]
    exact and_congr_left fun _ => by omega
  rw [hrange]
  refine ⟨writeback_faultTaken, fun h => ⟨_, writebackFrom_written h s, onlyRegister_of_not_overflows h, fun hrd => ?_⟩⟩
  rw [State.reg_retire, State.reg_setReg_same, if_neg hrd]

/-- An instruction that ends in the writeback has the writeback's exact result. -/
theorem exactResult_of_writeback {i : Instr} {s : State} {rX : RegNo} {v : Int} (h : exec i s = writeback s rX v) :
    ExactResult i s rX v := by
  rw [ExactResult, h]
  refine ⟨fun hok => writeback_onlyRegister ?_, fun hbad => writeback_faultTaken ((overflows_iff s rX v).2 hbad)⟩
  rw [overflows_iff]
  rintro ⟨hout, hcheck⟩
  rcases hok with hin | ⟨hr0, hoff⟩
  · exact hout hin
  · rcases hcheck with hne | hon
    · exact hne hr0
    · rw [hoff] at hon; cases hon

/-- Settles O30: the four instructions are the writeback of their exact integers. -/
theorem arithmeticIsExact : Obligations.ArithmeticIsExact := fun _ _ _ _ =>
  ⟨exactResult_of_writeback rfl, exactResult_of_writeback rfl, exactResult_of_writeback rfl,
    exactResult_of_writeback rfl⟩

/-! ### The range of operands and results -/

theorem fits16_x (s : State) (r : RegNo) : fits16 (s.x r) = true := fits16_sval _

theorem fits16_imm (imm : Imm8) : fits16 imm.toInt = true := by
  rw [← signedImm_eq]
  exact fits16_sval _

/-- The link value fits, `PC` being at most `codeSize` (R20, R111). -/
theorem fits16_linkValue {s : State} (h : s.pc.toNat ≤ s.codeSize.val) : fits16 (linkValue s) = true := by
  have hsize := s.codeSize.isLt
  rw [fits16_iff, linkValue, uval]
  omega

/-- Every remainder of 16-bit operands fits, in both modes (R105). -/
theorem fits16_remainder (mode : DivMode) {n d : Int} (hd : fits16 d = true) (hd0 : d ≠ 0) :
    fits16 (n - d * quotient mode n d) = true := by
  obtain ⟨hlo, hhi⟩ := (fits16_iff d).1 hd
  rw [fits16_iff]
  cases mode with
  | floor =>
    rw [quotient, ← Int.fmod_def]
    exact remainder_in_range hlo hhi (fmod_sign_size n hd0).2
  | trunc =>
    rw [quotient, ← Int.tmod_def]
    exact remainder_in_range hlo hhi (tmod_sign_size n hd0).2

/-- The one quotient of 16-bit operands that does not fit, in either mode (R104). -/
theorem fits16_quotient (mode : DivMode) {n d : Int} (hn : fits16 n = true) (hd0 : d ≠ 0)
    (h : ¬(n = -32768 ∧ d = -1)) : fits16 (quotient mode n d) = true := by
  obtain ⟨hlo, hhi⟩ := (fits16_iff n).1 hn
  rw [fits16_iff]
  by_contra hout
  refine h ?_
  cases mode with
  | floor =>
    exact (quotient_out_of_range_iff hlo hhi hd0 (Int.mul_fdiv_add_fmod n d).symm (fmod_sign_size n hd0).2).1 hout
  | trunc =>
    exact (quotient_out_of_range_iff hlo hhi hd0 (Int.mul_tdiv_add_tmod n d).symm (tmod_sign_size n hd0).2).1 hout

/-! ### Division (R104, R105) -/

theorem exec_div {s : State} (rX rY : RegNo) {rZ : RegNo} (hd : s.x rZ ≠ 0) :
    exec (.div rX rY rZ) s = writeback s rX (quotient s.params.divMode (s.x rY) (s.x rZ)) := by
  simp only [exec, execDiv, divider_eq, if_neg hd]

theorem exec_mod {s : State} (rX rY : RegNo) {rZ : RegNo} (hd : s.x rZ ≠ 0) :
    exec (.mod rX rY rZ) s =
      writeback s rX (s.x rY - s.x rZ * quotient s.params.divMode (s.x rY) (s.x rZ)) := by
  simp only [exec, execMod, divider_eq, if_neg hd]

theorem quotient_eq_ite (mode : DivMode) (n d : Int) :
    quotient mode n d = if mode = .floor then n.fdiv d else n.tdiv d := by
  cases mode <;> rfl

/-- Settles O31: the quotient and the remainder are written back, and the remainder always fits. -/
theorem divAndModResults : Obligations.DivAndModResults := by
  intro s rX rY rZ hd q
  have hq : q = quotient s.params.divMode (s.x rY) (s.x rZ) := (quotient_eq_ite _ _ _).symm
  rw [hq]
  refine ⟨exactResult_of_writeback (exec_div rX rY hd), fun h => ?_, ?_⟩
  · rw [exec_div rX rY hd]
    exact writeback_onlyRegister (not_overflows_of_fits (fits16_quotient _ (fits16_x s rY) hd h))
  · rw [exec_mod rX rY hd]
    exact writeback_onlyRegister (not_overflows_of_fits (fits16_remainder _ (fits16_x s rZ) hd))

/-- Settles O32: the divider has no result for a zero divisor, which r0 always is. -/
theorem divisionByZeroFaults : Obligations.DivisionByZeroFaults := by
  intro s rX rY rZ h
  have hd : s.x rZ = 0 := by
    rcases h with rfl | h
    · exact s.x_zero
    · exact h
  refine ⟨⟨_, ?_, faultTaken_raise s _ _⟩, ⟨_, ?_, faultTaken_raise s _ _⟩⟩
  · simp only [exec, execDiv, divider_eq, if_pos hd]
  · simp only [exec, execMod, divider_eq, if_pos hd]

/-! ### Immediates and moves (R95, R96, R107, R108) -/

theorem exec_loadn (s : State) (rX : RegNo) (imm : Imm8) : exec (.loadn rX imm) s = writeback s rX imm.toInt := by
  show writeback s rX (signedImm imm) = _
  rw [signedImm_eq]

theorem exec_addn (s : State) (rX : RegNo) (imm : Imm8) :
    exec (.addn rX imm) s = writeback s rX (s.x rX + imm.toInt) := by
  show writeback s rX (s.x rX + signedImm imm) = _
  rw [signedImm_eq]

/-- Settles O24: a signed byte always fits. -/
theorem loadnSetsConstant : Obligations.LoadnSetsConstant := by
  refine ⟨fun s rX imm => ⟨rfl, ?_⟩, resolveMnemonic_setn⟩
  rw [exec_loadn]
  exact writeback_onlyRegister (not_overflows_of_fits (fits16_imm imm))

/-- Settles O25: the writeback of the exact sum; on r0 the sum is the constant itself. -/
theorem addnAddsConstant : Obligations.AddnAddsConstant := by
  intro s rX imm
  refine ⟨rfl, exactResult_of_writeback (exec_addn s rX imm), ?_⟩
  rw [exec_addn, State.x_zero, zero_add]
  exact writeback_onlyRegister (not_overflows_of_fits (fits16_imm imm))

/-- The frame of an instruction that completes with `PC` set and nothing else. -/
theorem onlyPc_retire (s : State) (p : Word) : OnlyPc p s ({ s with pc := p } : State).retire :=
  ⟨rfl, fun r => State.reg_retire _ r, fun _ => rfl, rfl, rfl, rfl, rfl, rfl, rfl, rfl, rfl, rfl, rfl⟩

/-- Settles O33: the writeback of a register's value, which fits, and an instruction with no change of its own. -/
theorem movCopiesAndNopDoesNothing : Obligations.MovCopiesAndNopDoesNothing := fun s _ rY =>
  ⟨writeback_onlyRegister (not_overflows_of_fits (fits16_x s rY)), ⟨_, rfl, onlyPc_retire s s.pc⟩⟩

/-! ### Loads and stores (R97 to R100) -/

/-- An 8-bit address is valid exactly from `codeSize` on. -/
theorem validAddress_byte_iff (c : Fin 257) (u : Imm8) : validAddress c (u.toNat : Int) = true ↔ c.val ≤ u.toNat := by
  have hu := u.isLt
  rw [validAddress_iff]
  omega

/-- Settles O26: a load of a valid address is a write of its word to the register. -/
theorem loadsReadMemory : Obligations.LoadsReadMemory := by
  intro s rX rY u
  refine ⟨fun h => ?_, fun hlo hhi => ?_⟩
  · have hv : validAddress s.codeSize (directAddress u) = true := by
      rw [directAddress_eq]; exact (validAddress_byte_iff _ _).2 h
    exact ⟨_, loadFrom_valid hv rX, onlyRegister_setReg s rX _, by rw [directAddress_eq, Int.toNat_natCast]⟩
  · have hv : validAddress s.codeSize (indirectAddress s rY) = true := (validAddress_iff _ _).2 ⟨hlo, hhi⟩
    exact ⟨_, loadFrom_valid hv rX, onlyRegister_setReg s rX _, rfl⟩

/-- A completed store changes the word at its address alone, the memory being canonical. -/
theorem onlyMemory_write {s : State} (hw : s.mem.wf = true) (a : Nat) (w : Word) :
    OnlyMemory a w s ({ s with mem := s.mem.write a w } : State).retire :=
  ⟨⟨Memory.read_write_same hw a w, fun _ hb => Memory.read_write_other hw w hb⟩, fun r => State.reg_retire _ r, rfl,
    rfl, rfl, rfl, rfl, rfl, rfl, rfl, rfl, rfl, rfl⟩

/-- Settles O27: a store to a valid address is a write of the register's word to it. -/
theorem storesWriteMemory : Obligations.StoresWriteMemory := by
  intro s rX rY u hw
  refine ⟨fun h => ?_, fun hlo hhi => ?_⟩
  · have hv : validAddress s.codeSize (directAddress u) = true := by
      rw [directAddress_eq]; exact (validAddress_byte_iff _ _).2 h
    exact ⟨_, storeTo_valid hv (s.reg rX), onlyMemory_write hw _ _, by rw [directAddress_eq, Int.toNat_natCast]⟩
  · have hv : validAddress s.codeSize (indirectAddress s rY) = true := (validAddress_iff _ _).2 ⟨hlo, hhi⟩
    exact ⟨_, storeTo_valid hv (s.reg rX), onlyMemory_write hw _ _, rfl⟩

/-! ### Control transfer (R109 to R116) -/

@[simp] theorem directTarget_eq (u : Imm8) : directTarget u = u.toNat := unsignedImm_eq u

theorem validTarget_byte_iff (c : Fin 257) (u : Imm8) : validTarget c (directTarget u) = true ↔ u.toNat < c.val := by
  rw [directTarget_eq, validTarget_iff]
  omega

theorem validTarget_byte_false_iff (c : Fin 257) (u : Imm8) :
    validTarget c (directTarget u) = false ↔ c.val ≤ u.toNat := by
  rw [← Bool.not_eq_true, validTarget_byte_iff, not_lt]

/-- The word of an 8-bit target is its zero extension. -/
theorem word_directTarget (u : Imm8) : word (directTarget u) = u.zeroExtend 16 := by
  refine BitVec.eq_of_toNat_eq ?_
  rw [directTarget_eq, word, BitVec.ofInt_natCast, BitVec.toNat_ofNat]
  exact (BitVec.toNat_setWidth 16 u).symm

theorem transfer_onlyPc {s : State} {p : Int} (h : validTarget s.codeSize p = true) :
    ∃ t, transfer s p = .next t ∧ OnlyPc (word p) s t :=
  ⟨_, transferThen_valid h complete, onlyPc_retire s (word p)⟩

theorem transferThen_faultTaken {s : State} {p : Int} (h : validTarget s.codeSize p = false) (rest : State → Result) :
    ∃ t, transferThen s p rest = .next t ∧ FaultTaken .invalidJumpTarget (.target p) s t :=
  ⟨_, transferThen_invalid h rest, faultTaken_raise s _ _⟩

theorem transferThen_byte_faultTaken {s : State} {u : Imm8} (h : s.codeSize.val ≤ u.toNat) (rest : State → Result) :
    ∃ t, transferThen s (directTarget u) rest = .next t ∧ FaultTaken .invalidJumpTarget (.target u.toNat) s t := by
  rw [← directTarget_eq u]
  exact transferThen_faultTaken ((validTarget_byte_false_iff _ _).2 h) rest

/-- Settles O34: a valid target of 8 bits or of a register is the number of the word `PC` is set to. -/
theorem jumpsTransfer : Obligations.JumpsTransfer := by
  intro s rX u
  refine ⟨fun h => ?_, fun hlo hhi => ?_⟩
  · rw [← word_directTarget]
    exact transfer_onlyPc ((validTarget_byte_iff _ _).2 h)
  · have hword : word (s.x rX) = s.reg rX := word_sval _
    rw [← hword]
    exact transfer_onlyPc ((validTarget_iff _ _).2 ⟨hlo, hhi⟩)

/-- Settles O35: the link value fits, so the call completes with the link written and `PC` set. -/
theorem callLinksAndTransfers : Obligations.CallLinksAndTransfers := by
  intro s rX u hpc hu
  have hfits := fits16_linkValue hpc
  have hexec : exec (.call rX u) s =
      .next (State.setReg { s with pc := word (directTarget u) } rX (word (linkValue s))).retire :=
    (transferThen_valid ((validTarget_byte_iff _ _).2 hu) _).trans (writebackFrom_fits s rX _ hfits)
  refine ⟨_, hexec, fun r => ?_, ?_, fun a => ?_, ?_, ?_, ?_, runKept_retire ?_ ?_ ?_ ?_ ?_ ?_ ?_⟩
  · rw [x_setReg_retire, sval_word hfits]; rfl
  · rw [State.retire_pc, State.setReg_pc, word_directTarget]
  all_goals simp

/-- A conditional branch on a condition of a register. -/
theorem branchIf_onlyPc_taken {s : State} {u : Imm8} (hu : u.toNat < s.codeSize.val) {c : Prop} [Decidable c] (hc : c) :
    ∃ t, branchIf s (decide c) (directTarget u) = .next t ∧ OnlyPc (u.zeroExtend 16) s t := by
  rw [decide_eq_true hc, branchIf_taken, ← word_directTarget]
  exact transfer_onlyPc ((validTarget_byte_iff _ _).2 hu)

theorem branchIf_onlyPc_untaken {s : State} {u : Imm8}
    (hu : u.toNat < s.codeSize.val ∨ s.params.checkUntakenTarget = false) {c : Prop} [Decidable c] (hc : ¬c) :
    ∃ t, branchIf s (decide c) (directTarget u) = .next t ∧ OnlyPc s.pc s t := by
  rw [decide_eq_false hc]
  refine ⟨_, branchIf_untaken fun hcheck => ?_, onlyPc_retire s s.pc⟩
  rcases hu with hu | hoff
  · exact (validTarget_byte_iff _ _).2 hu
  · rw [hcheck] at hoff; cases hoff

theorem branchIf_faultTaken {s : State} {u : Imm8} (hu : s.codeSize.val ≤ u.toNat) {c : Prop} [Decidable c]
    (hc : c ∨ s.params.checkUntakenTarget = true) :
    ∃ t, branchIf s (decide c) (directTarget u) = .next t ∧ FaultTaken .invalidJumpTarget (.target u.toNat) s t := by
  have hv := (validTarget_byte_false_iff s.codeSize u).2 hu
  have hfault : branchIf s (decide c) (directTarget u) =
      .next (s.raise .invalidJumpTarget (.target (directTarget u))) := by
    by_cases h : c
    · rw [decide_eq_true h, branchIf_taken]
      exact transferThen_invalid hv complete
    · rw [decide_eq_false h]
      exact branchIf_untaken_invalid (hc.resolve_left h) hv
  rw [hfault, directTarget_eq]
  exact ⟨_, rfl, faultTaken_raise s _ _⟩

/-- Settles O36: each branch is one on its own condition, which holds. -/
theorem takenBranchesTransfer : Obligations.TakenBranchesTransfer := fun _ _ _ hu =>
  ⟨branchIf_onlyPc_taken hu, branchIf_onlyPc_taken hu, branchIf_onlyPc_taken hu, branchIf_onlyPc_taken hu⟩

/-- Settles O37: each branch is one on its own condition, which fails. -/
theorem untakenBranchesFallThrough : Obligations.UntakenBranchesFallThrough := fun _ _ _ hu =>
  ⟨fun h => branchIf_onlyPc_untaken hu h, fun h => branchIf_onlyPc_untaken hu (not_not.2 h),
    fun h => branchIf_onlyPc_untaken hu (not_lt.2 h), fun h => branchIf_onlyPc_untaken hu (not_lt.2 h)⟩

/-- Settles O38: the target is checked before anything is written, the link register included. -/
theorem invalidTargetFaults : Obligations.InvalidTargetFaults := by
  intro s rX u bad
  refine ⟨fun h => ?_, fun hu => ?_⟩
  · have hv : validTarget s.codeSize (s.x rX) = false := by
      rw [← Bool.not_eq_true, validTarget_iff]; omega
    exact transferThen_faultTaken hv complete
  · exact ⟨transferThen_byte_faultTaken hu complete, transferThen_byte_faultTaken hu _, branchIf_faultTaken hu,
      branchIf_faultTaken hu, branchIf_faultTaken hu, branchIf_faultTaken hu⟩

end Sys2Proof.Machine

/-! ## Proofs: machine control, the console and the second spellings (spec/30, spec/41, spec/60) -/

namespace Sys2Proof.Machine

/-! ### Control and console (R91 to R94) -/

/-- Settles O20: `halt` completes with its status alone, and a halted machine takes no step. -/
theorem haltStopsMachine : Obligations.HaltStopsMachine := by
  refine ⟨rfl, by decide, fun s => ⟨_, rfl, rfl, rfl, State.retire_regs_zero _, fun r => State.reg_retire _ r,
    fun _ => rfl, rfl, rfl, runKept_retire rfl rfl rfl rfl rfl rfl rfl, fun u => ?_⟩⟩
  exact (finishedMachineTakesNoStep _ Status.noConfusion).2 u

/-- What `OUT` gains, the console shows on a line of its own. -/
theorem consoleText_of_out {s t : State} {v : Int} (h : t.out = s.out ++ [v]) :
    t.consoleText = s.consoleText ++ decimalInt v ++ ['\n'] := by
  simp [State.consoleText, h]

/-- Settles O22: `write` completes with `OUT` appended to, and the console's text is read from `OUT`. -/
theorem writeEmitsValue : Obligations.WriteEmitsValue := fun _ _ =>
  ⟨rfl, _, rfl, rfl, consoleText_of_out rfl, fun r => State.reg_retire _ r, fun _ => rfl, rfl, rfl, rfl,
    runKept_retire rfl rfl rfl rfl rfl rfl rfl⟩

/-- Settles O23: the fault is raised whatever the word, and the word of `data` is its operand. -/
theorem dataRaisesInvalidOpcode : Obligations.DataRaisesInvalidOpcode :=
  ⟨fun _ s => ⟨_, rfl, faultTaken_raise s _ _⟩, fun _ => rfl, by decide, by decide⟩

theorem exec_read (s : State) (rX : RegNo) :
    exec (.read rX) s = .next ((readEffect rX s.host.console.head?).apply s) := readConsole_eq s rX

/-- A fault at the console is taken in the state before the answer, the host apart. -/
theorem faultTaken_inputFault (s : State) (f : RunFault) : FaultTaken f .none s ((Effect.inputFault f).apply s) :=
  faultTaken_raise (s.consoleSeen false) f .none

/-- Settles O21: the effect of a `read` by each answer at the head of the console's script. -/
theorem readTakesHostAnswer : Obligations.ReadTakesHostAnswer := by
  intro s rX
  refine ⟨rfl, fun v rest h => ?_, fun rest h => ?_, fun rest h => ?_, fun rest h => ?_, fun h => ?_⟩
  · refine ⟨((s.consoleSeen false).setReg rX v).retire, by rw [exec_read, h]; rfl, ?_⟩
    obtain ⟨hreg, hmem, hpc, hstatus, hout, hhost, hrun⟩ := onlyRegister_setReg (s.consoleSeen false) rX v
    obtain ⟨hsize, hrec, hwait, hprompt, hparams, hfree, hdbg⟩ := hrun
    have hconsole : (s.consoleSeen false).host = { s.host with console := rest } := by
      rw [State.consoleSeen, h, List.tail_cons]
    exact ⟨hreg, hmem, hpc, hstatus, hout, hhost.trans hconsole, hwait, hsize, hrec, hprompt, hparams, hfree, hdbg⟩
  · exact ⟨_, by rw [exec_read, h]; rfl, faultTaken_inputFault s .endOfInput⟩
  · refine ⟨_, ?_, faultTaken_inputFault s .interrupted⟩
    rcases h with h | h <;> rw [exec_read, h] <;> rfl
  · rw [exec_read, h]
    simp only [List.head?_cons, readEffect, Effect.apply, State.consoleSeen, h, List.tail_cons]
  · have hhost : ({ s.host with console := [] } : HostScript) = s.host := by rw [← h]
    rw [exec_read, h]
    simp only [List.head?_nil, readEffect, Effect.apply, State.consoleSeen, h, List.tail_nil, hhost]

/-! ### The four overlaps (R58) -/

/-- An integer that fits and goes to r0 is discarded. -/
theorem writebackFrom_r0 {s : State} {v : Int} (h : fits16 v = true) (t : State) : writebackFrom s 0 v t = complete t :=
  writebackFrom_fits s 0 t h

theorem exec_add_r0 (s : State) (rX rY : RegNo) : exec (.add rX rY 0) s = exec (.mov rX rY) s := by
  show writeback s rX (s.x rY + s.x 0) = writeback s rX (s.x rY)
  rw [State.x_zero, add_zero]

theorem exec_mov_r0 (s : State) (rY : RegNo) : exec (.mov 0 rY) s = exec .nop s := writebackFrom_r0 (fits16_x s rY) s

theorem exec_sub_r0 (s : State) (rX rY : RegNo) : exec (.sub rX 0 rY) s = exec (.neg rX rY) s := by
  show writeback s rX (s.x 0 - s.x rY) = writeback s rX (-s.x rY)
  rw [State.x_zero, zero_sub]

/-- A call through r0 discards its link, which fits. -/
theorem exec_call_r0 {s : State} (h : s.pc.toNat ≤ s.codeSize.val) (u : Imm8) :
    exec (.call 0 u) s = exec (.jump u) s := by
  have hrest : writebackFrom s 0 (linkValue s) = complete := funext fun t => writebackFrom_r0 (fits16_linkValue h) t
  show transferThen s (directTarget u) (writebackFrom s 0 (linkValue s)) = transferThen s (directTarget u) complete
  rw [hrest]

/-- Settles O6: both spellings have one word, which is the canonical one's, and reading r0 as 0 or discarding a write
to it makes their effects the same. -/
theorem synonymsHaveSameEffect : Obligations.SynonymsHaveSameEffect := by
  intro s hpc
  refine ⟨⟨by decide, by decide, (exec_add_r0 s 0 0).trans (exec_mov_r0 s 0), exec_mov_r0 s 0⟩, fun rX rY h => ?_,
    fun rX rY => ?_, fun u => ?_⟩
  · exact ⟨decodeEncodeWellFormed (.mov rX rY) ((wellFormed_mov_iff rX rY).2 h), exec_add_r0 s rX rY⟩
  · exact ⟨decodeEncodeWellFormed (.neg rX rY) rfl, exec_sub_r0 s rX rY⟩
  · exact ⟨decodeEncodeWellFormed (.jump u) rfl, exec_call_r0 hpc u⟩

/-! ### The causes of the faults (R119) -/

/-- An outcome in which no fault but the listed ones is taken. -/
def FaultsOnly (fs : List RunFault) (o : Result) : Prop := ∀ t f, o = .next t → t.status = .fault f → f ∈ fs

theorem faultsOnly_complete (fs : List RunFault) {u : State} (h : ∀ f, u.status ≠ .fault f) :
    FaultsOnly fs (complete u) := by
  intro t f ht hf
  cases ht
  exact absurd hf (h f)

theorem faultsOnly_raise {fs : List RunFault} {f : RunFault} (h : f ∈ fs) (s : State) (info : FaultInfo) :
    FaultsOnly fs (.next (s.raise f info)) := by
  intro t g ht hg
  cases ht
  cases hg
  exact h

section
variable {s : State} (hrun : s.status = .running)
include hrun

theorem not_fault_of_running (f : RunFault) : s.status ≠ .fault f := by
  rw [hrun]
  exact Status.noConfusion

theorem faultsOnly_writeback {fs : List RunFault} {v : Int} (h : fits16 v = true ∨ .integerOverflow ∈ fs) (rd : RegNo) :
    FaultsOnly fs (writeback s rd v) := by
  by_cases ho : Overflows s rd v
  · rw [writeback, writebackFrom_overflow ho]
    refine faultsOnly_raise (h.resolve_left fun hf => ?_) s _
    exact not_overflows_of_fits hf ho
  · rw [writeback, writebackFrom_written ho]
    exact faultsOnly_complete fs (by simpa using not_fault_of_running hrun)

theorem faultsOnly_loadFrom (rd : RegNo) (ea : Int) : FaultsOnly [.invalidMemoryTarget] (loadFrom s rd ea) := by
  rcases loadFrom_cases s rd ea with ⟨-, h⟩ | ⟨-, h⟩ <;> rw [h]
  · exact faultsOnly_complete _ (by simpa using not_fault_of_running hrun)
  · exact faultsOnly_raise (by simp) s _

theorem faultsOnly_storeTo (ea : Int) (w : Word) : FaultsOnly [.invalidMemoryTarget] (storeTo s ea w) := by
  rcases storeTo_cases s ea w with ⟨-, h⟩ | ⟨-, h⟩ <;> rw [h]
  · exact faultsOnly_complete _ (not_fault_of_running hrun)
  · exact faultsOnly_raise (by simp) s _

theorem faultsOnly_transfer (p : Int) : FaultsOnly [.invalidJumpTarget] (transfer s p) := by
  rcases transfer_cases s p with ⟨-, h⟩ | ⟨-, h⟩ <;> rw [h]
  · exact faultsOnly_complete _ (not_fault_of_running hrun)
  · exact faultsOnly_raise (by simp) s _

theorem faultsOnly_branchIf (taken : Bool) (p : Int) : FaultsOnly [.invalidJumpTarget] (branchIf s taken p) := by
  rcases branchIf_cases s taken p with ⟨-, -, h⟩ | ⟨-, -, h⟩ | ⟨-, -, h⟩ <;> rw [h]
  · exact faultsOnly_complete _ (not_fault_of_running hrun)
  · exact faultsOnly_raise (by simp) s _
  · exact faultsOnly_complete _ (not_fault_of_running hrun)

theorem faultsOnly_read (rX : RegNo) : FaultsOnly [.endOfInput, .interrupted] (readConsole s rX) := by
  rcases readConsole_cases s rX with ⟨-, h⟩ | ⟨v, -, h⟩ | ⟨-, h⟩ | ⟨-, h⟩ <;> rw [h]
  · intro t f ht hf
    cases ht
    exact absurd hf (not_fault_of_running hrun f)
  · exact faultsOnly_complete _ (by simpa using not_fault_of_running (s := s.consoleSeen false) hrun)
  · exact faultsOnly_raise (by simp) _ _
  · exact faultsOnly_raise (by simp) _ _

/-- Only the target of a call is checked: its link value fits. -/
theorem faultsOnly_call (hpc : s.pc.toNat ≤ s.codeSize.val) (rX : RegNo) (u : Imm8) :
    FaultsOnly [.invalidJumpTarget] (execCall rX u s) := by
  cases hv : validTarget s.codeSize (directTarget u) with
  | true =>
    rw [execCall, transferThen_valid hv, writebackFrom_fits s rX _ (fits16_linkValue hpc)]
    exact faultsOnly_complete _ (by simpa using not_fault_of_running hrun)
  | false =>
    rw [execCall, transferThen_invalid hv]
    exact faultsOnly_raise (by simp) s _

theorem faultsOnly_div (rX rY rZ : RegNo) : FaultsOnly [.divisionByZero, .integerOverflow] (execDiv rX rY rZ s) := by
  by_cases hd : s.x rZ = 0
  · simp only [execDiv, divider_eq, if_pos hd]
    exact faultsOnly_raise (by simp) s _
  · rw [show execDiv rX rY rZ s = _ from exec_div rX rY hd]
    exact faultsOnly_writeback hrun (.inr (by simp)) rX

/-- The remainder fits, so only a zero divisor faults. -/
theorem faultsOnly_mod (rX rY rZ : RegNo) : FaultsOnly [.divisionByZero] (execMod rX rY rZ s) := by
  by_cases hd : s.x rZ = 0
  · simp only [execMod, divider_eq, if_pos hd]
    exact faultsOnly_raise (by simp) s _
  · rw [show execMod rX rY rZ s = _ from exec_mod rX rY hd]
    exact faultsOnly_writeback hrun (.inl (fits16_remainder _ (fits16_x s rZ) hd)) rX

theorem exec_faultsOnly (hpc : s.pc.toNat ≤ s.codeSize.val) (i : Instr) : FaultsOnly (faultCauses i) (exec i s) := by
  cases i with
  | halt => exact faultsOnly_complete _ fun f => Status.noConfusion
  | write | nop => exact faultsOnly_complete _ (not_fault_of_running hrun)
  | read rX => exact faultsOnly_read hrun rX
  | loadn rX imm => exact exec_loadn s rX imm ▸ faultsOnly_writeback hrun (.inl (fits16_imm imm)) rX
  | mov rX rY => exact faultsOnly_writeback hrun (.inl (fits16_x s rY)) rX
  | addn rX imm => exact faultsOnly_writeback hrun (.inr (by simp [faultCauses])) rX
  | add rX _ _ | sub rX _ _ | mul rX _ _ | neg rX _ => exact faultsOnly_writeback hrun (.inr (by simp [faultCauses])) rX
  | div rX rY rZ => exact faultsOnly_div hrun rX rY rZ
  | mod rX rY rZ => exact faultsOnly_mod hrun rX rY rZ
  | load | loadi => exact faultsOnly_loadFrom hrun _ _
  | store | storei => exact faultsOnly_storeTo hrun _ _
  | jump | jumpi => exact faultsOnly_transfer hrun _
  | call rX u => exact faultsOnly_call hrun hpc rX u
  | jeqz | jnez | jgtz | jltz => exact faultsOnly_branchIf hrun _ _
  | data n => exact faultsOnly_raise (by simp [faultCauses]) s _

end

/-- Settles O40: each instruction's own operation raises the faults of its row and no other. -/
theorem faultsHaveTheirCauses : Obligations.FaultsHaveTheirCauses := fun i _ t f hrun hpc he hf =>
  exec_faultsOnly hrun hpc i t f he hf

end Sys2Proof.Machine

/-! ## Proofs: the step, the waits and the debugger (spec/40, spec/60, spec/70) -/

namespace Sys2Proof.Machine

/-! ### The step by where the core stands (R74, R133) -/

theorem step_of_waiting {s : State} (hrun : s.status = .running) (hw : s.waiting = true) :
    step s = exec (decodedInstr s.iword) s := by
  rw [step_of_running hrun, stepRunning, if_pos hw, withDecoded_eq]

theorem step_of_prompting {s : State} (hrun : s.status = .running) (hw : s.waiting = false) (hp : s.prompting = true) :
    step s = debuggerPrompt (decodedInstr s.iword) s := by
  rw [step_of_running hrun, stepRunning, if_neg (by simp [hw]), if_pos hp, withDecoded_eq]

theorem step_of_cancel {s : State} (hrun : s.status = .running) (hw : s.waiting = false) (hp : s.prompting = false)
    (hc : s.cancelRequested = true) : step s = .next (s.boundarySeen.raiseUnfetched .interrupted) := by
  rw [step_of_running hrun, stepRunning, if_neg (by simp [hw]), if_neg (by simp [hp]), stepBoundary, if_pos hc]

/-- At a boundary inside the code region the word at `PC` is fetched. -/
theorem step_of_fetch {s : State} (hb : s.AtBoundary) (hpc : s.pc.toNat < s.codeSize.val) :
    step s = pauseOrExecute (decodedInstr (s.mem.read s.pc.toNat)) s.fetched := by
  obtain ⟨hrun, hw, hp, hc⟩ := hb
  have hok : s.boundarySeen.fetchOk = true := (fetchOk_iff s).2 hpc
  rw [step_of_running hrun, stepRunning, if_neg (by simp [hw]), if_neg (by simp [hp]), stepBoundary,
    if_neg (by simp [hc]), if_pos hok, withDecoded_eq, iword_afterFetch]
  rfl

theorem step_of_fetch_executes {s : State} (hb : s.AtBoundary) (hpc : s.pc.toNat < s.codeSize.val)
    (hd : s.dbg.pauses = false) : step s = exec (decodedInstr (s.mem.read s.pc.toNat)) s.fetched := by
  rw [step_of_fetch hb hpc, pauseOrExecute_fetched, if_neg (by simp [hd])]

theorem step_of_fetch_pauses {s : State} (hb : s.AtBoundary) (hpc : s.pc.toNat < s.codeSize.val)
    (hd : s.dbg.pauses = true) :
    step s = debuggerPrompt (decodedInstr (s.mem.read s.pc.toNat)) s.pausedAtFetch := by
  rw [step_of_fetch hb hpc, pauseOrExecute_fetched, if_pos hd]

theorem decodedInstr_of_decode {w : Word} {i : Instr} (h : decode w = .instr i) : decodedInstr w = i := by
  rwa [decode_eq, Decoded.instr.injEq] at h

/-- Settles O45: the two places where a step is the execute phase with no look at the prompt. -/
theorem stepRunsDecodedInstruction : Obligations.StepRunsDecodedInstruction := by
  refine ⟨fun s i hb hpc hd hdec => ⟨?_, fetched_pc_toNat hpc, rfl⟩, fun s i hrun hw hdec => ?_⟩
  · rw [step_of_fetch_executes hb hpc hd, decodedInstr_of_decode hdec]
  · rw [step_of_waiting hrun hw, decodedInstr_of_decode hdec]

/-! ### Cancellation (R75) -/

/-- A cancellation at the prompt interrupts before the blocked instruction. -/
theorem debuggerPrompt_cancel (i : Instr) {q : State} {rest : List (Option PromptAnswer)}
    (h : q.host.prompt = some .cancel :: rest) :
    ∃ t, debuggerPrompt i q = .next t ∧ FaultTaken .interrupted .none q t := by
  refine ⟨q.promptSeen.raise .interrupted .none, ?_, faultTaken_raise q.promptSeen _ _⟩
  simp only [debuggerPrompt, State.promptSeen, h, List.tail_cons]

/-- Settles O42: the three places where the core looks for a cancellation. -/
theorem cancellationInterrupts : Obligations.CancellationInterrupts := by
  refine ⟨fun s hrun hw hp hc => ?_, fun s rX rest hrun hw hdec hcon => ?_, fun s rest hrun hw hp hprompt => ?_,
    fun s rest hb hpc hd hprompt => ?_⟩
  · exact ⟨_, step_of_cancel hrun hw hp hc, faultTakenUnfetched_raise s .interrupted⟩
  · rw [step_of_waiting hrun hw, decodedInstr_of_decode hdec, exec_read, hcon]
    exact ⟨_, rfl, faultTaken_inputFault s .interrupted⟩
  · rw [step_of_prompting hrun hw hp]
    exact debuggerPrompt_cancel _ hprompt
  · rw [step_of_fetch_pauses hb hpc hd]
    exact debuggerPrompt_cancel (q := s.pausedAtFetch) _ hprompt

/-! ### The debugger (R133, R134) -/

/-- A single-stepped instruction that completes leaves the debugger PAUSED. -/
theorem exec_singleStepping {i : Instr} {s t : State} (hd : s.dbg = .singleStepping) (he : exec i s = .next t)
    (hf : ∀ f, t.status ≠ .fault f) (hw : t.waiting = false) : t.dbg = .paused := by
  cases ends_of_exec he with
  | completes _ _ u h =>
    obtain ⟨-, -, -, -, hdbg⟩ := h.run_kept
    rw [State.retire_dbg, hdbg, hd]
    rfl
  | raises _ _ f => exact absurd rfl (hf f)
  | waits => cases hw
  | inputEnds => exact absurd rfl (hf .endOfInput)
  | inputAborts => exact absurd rfl (hf .interrupted)

theorem debuggerPrompt_no_command (i : Instr) {q : State} (h : q.host.prompt = []) : debuggerPrompt i q = .next q := by
  simp only [debuggerPrompt, h]

/-- Settles O46: a pausing debugger makes the step a look at the prompt of the core paused at the fetch, which is what
that core's own step is. -/
theorem debuggerPausesBeforeExecute : Obligations.DebuggerPausesBeforeExecute := by
  refine ⟨fun s hb hpc hd => ?_, fun s i hb hpc hd hdec => ?_,
    fun i s t _ hd he hf hw => exec_singleStepping hd he hf hw⟩
  · intro p
    have hpause : s.dbg.pauses = true := by rcases hd with hd | hd <;> (rw [hd]; rfl)
    have hs := step_of_fetch_pauses hb hpc hpause
    have hword : s.pausedAtFetch.iword = s.mem.read s.pc.toNat := iword_afterFetch s
    have hp := step_of_prompting (s := s.pausedAtFetch) hb.1 hb.2.1 rfl
    rw [hword] at hp
    exact ⟨hs.trans hp.symm, fun hnil => hs.trans (debuggerPrompt_no_command _ hnil)⟩
  · rw [step_of_fetch_executes hb hpc (by rw [hd]; rfl), decodedInstr_of_decode hdec]

/-- Settles O47: one look at the prompt, by the command at the head of its script. -/
theorem debuggerCommands : Obligations.DebuggerCommands := by
  intro s i a rest hrun hw hp hdbg hdec hprompt p
  have hstep : step s = debuggerPrompt i s := by
    rw [step_of_prompting hrun hw hp, decodedInstr_of_decode hdec]
  rw [hstep]
  have hother (ha : a = .other) :
      debuggerPrompt i s = exec i { p with dbg := .singleStepping, prompting := false } := by
    subst ha
    simp only [debuggerPrompt, hprompt]
    rfl
  refine ⟨?_, ?_, ?_, fun ha => ⟨hother ha, fun t ht hf hwait => ?_⟩⟩
  · rintro (rfl | rfl) <;> simp only [debuggerPrompt, hprompt] <;> rfl
  · rintro rfl
    refine ⟨{ p.raise .interrupted .none with dbg := .terminated }, by simp only [debuggerPrompt, hprompt]; rfl, ?_⟩
    exact faultTaken_raise { p with dbg := .terminated } .interrupted .none
  · rintro (rfl | rfl | rfl) <;> simp only [debuggerPrompt, hprompt] <;> rfl
  · rw [hother ha] at ht
    exact exec_singleStepping (s := { p with dbg := .singleStepping, prompting := false }) rfl ht hf hwait

/-! ### Waits that never end (R144) -/

/-- A state that steps to itself is where a run of any length stays. -/
theorem Core.run_of_fixed {M : Host.Core} {s : M.State} (h : M.step s = .next s) (n : Nat) : M.run n s = .next s := by
  induction n with
  | zero => rfl
  | succ n ih => rw [Core.run_succ_of_next n h, ih]

/-- A waiting core that finds no answer and none to come is as it was. -/
theorem consoleSeen_of_nil {s : State} (hw : s.waiting = true) (hc : s.host.console = []) : s.consoleSeen true = s := by
  have hhost : ({ s.host with console := [] } : HostScript) = s.host := by rw [← hc]
  rw [State.consoleSeen, hc, List.tail_nil, hhost, ← hw]

/-- Settles O48: with no answer or command to come the step of a wait is the state itself. -/
theorem unansweredWaitNeverEnds : Obligations.UnansweredWaitNeverEnds := by
  intro n s rX hrun
  refine ⟨fun hw hdec hcon => ?_, fun hw hp hprompt => ?_⟩
  · have hstep : step s = .next s := by
      rw [step_of_waiting hrun hw, decodedInstr_of_decode hdec, exec_read, hcon]
      exact congrArg Host.Outcome.next (consoleSeen_of_nil hw hcon)
    exact Core.run_of_fixed (M := Sys2Proof.core) hstep n
  · have hstep : step s = .next s := by
      rw [step_of_prompting hrun hw hp]
      exact debuggerPrompt_no_command _ hprompt
    exact Core.run_of_fixed (M := Sys2Proof.core) hstep n

end Sys2Proof.Machine
